-- ==== Sys2Proof/Word.lean ====
section
/-! DEFINITION. The machine word of the block (00_scope.md R7, R9, R17). -/

namespace Sys2Proof

/-- A word: an unsigned integer in `[0, 2^32)` (00_scope.md R9); bit 0 is the least significant bit (R17). -/
abbrev Word := BitVec 32

end Sys2Proof
end

