-- ==== Sys2Proof/Config.lean ====
section
/-! DEFINITION. What is fixed when the block is built (00_scope.md R7, 10_state.md R29, 20_memory.md R41). -/

namespace Sys2Proof.Config

/-- `NF`, the number of field registers (00_scope.md R7). -/
abbrev nf : Nat := 8

/-- `NE`, the number of extended registers (00_scope.md R7). -/
abbrev ne : Nat := 4

/-- `NP`, the number of point registers (00_scope.md R7). -/
abbrev np : Nat := 4

/-- The largest `LEN` a block can be built with: `1 <= LEN <= 16` (00_scope.md R7). -/
abbrev maxLen : Nat := 16

/-- The `LEN` of the block that `State.reset` describes. DESIGN CHOICE (log 1), unsafe for a claim about `State.reset`
alone: the spec leaves `LEN` open and names "6 for a 192-bit prime" (00_scope.md R7). `LEN` itself is the field `len` of
State, so that a statement about every state is one about every `LEN`. -/
abbrev resetLen : Nat := 6

end Sys2Proof.Config
end

