-- ==== Sys2Proof/Syntax.lean ====
section
/-! DEFINITION. The 17 commands of 30_encoding.md R64 as syntax, one constructor for each row of the opcode table. -/

namespace Sys2Proof

/-- A register index as an instruction carries it. The register file it refers to is fixed by the opcode
(30_encoding.md R62); whether it is legal there is `Instr.wf`. -/
abbrev RegIndex := Nat

/-- A command, destination first (30_encoding.md R62, R64). -/
inductive Instr where
  /-- `FINV Fd, Fs1` (40_modular_inversion.md R80). -/
  | finv (rd rs1 : RegIndex)
  /-- `FMUL Fd, Fs1, Fs2` (41_field_ops.md R101). -/
  | fmul (rd rs1 rs2 : RegIndex)
  /-- `MMUL Fd, Fs1, Fs2` (41_field_ops.md R102). -/
  | mmul (rd rs1 rs2 : RegIndex)
  /-- `FSQR Fd, Fs1` (41_field_ops.md R103). -/
  | fsqr (rd rs1 : RegIndex)
  /-- `FRED Fd, Es1` (41_field_ops.md R104). -/
  | fred (rd rs1 : RegIndex)
  /-- `FADD Fd, Fs1, Fs2` (41_field_ops.md R105). -/
  | fadd (rd rs1 rs2 : RegIndex)
  /-- `FSUB Fd, Fs1, Fs2` (41_field_ops.md R106). -/
  | fsub (rd rs1 rs2 : RegIndex)
  /-- `FDBL Fd, Fs1` (41_field_ops.md R107). -/
  | fdbl (rd rs1 : RegIndex)
  /-- `FNEG Fd, Fs1` (41_field_ops.md R108). -/
  | fneg (rd rs1 : RegIndex)
  /-- `MULX Ed, Fs1, Fs2` (41_field_ops.md R109). -/
  | mulx (rd rs1 rs2 : RegIndex)
  /-- `SUBX Ed, Es1, Es2` (41_field_ops.md R110). -/
  | subx (rd rs1 rs2 : RegIndex)
  /-- `PADD PTd, PTs1, PTs2` (42_point_ops.md R139). -/
  | padd (rd rs1 rs2 : RegIndex)
  /-- `PDBL PTd, PTs1` (42_point_ops.md R140). -/
  | pdbl (rd rs1 : RegIndex)
  /-- `PNEG PTd, PTs1` (42_point_ops.md R141). -/
  | pneg (rd rs1 : RegIndex)
  /-- `PSUB PTd, PTs1, PTs2` (42_point_ops.md R142). -/
  | psub (rd rs1 rs2 : RegIndex)
  /-- `PTPL PTd, PTs1` (42_point_ops.md R143). -/
  | ptpl (rd rs1 : RegIndex)
  /-- `PDBLADD PTd, PTs1, PTs2` (42_point_ops.md R144). -/
  | pdbladd (rd rs1 rs2 : RegIndex)
  deriving DecidableEq, Repr

end Sys2Proof
end

