-- ==== Sys2Proof/WellFormed.lean ====
section
/-! DEFINITION. When a command is well formed: every register index is legal for its file (30_encoding.md R62). -/

namespace Sys2Proof

/-- An index is legal for the field registers when it is below 8 (30_encoding.md R62). -/
def legalField (i : RegIndex) : Bool := decide (i < Config.nf)

/-- An index is legal for the extended registers when it is below 4 (30_encoding.md R62). -/
def legalExt (i : RegIndex) : Bool := decide (i < Config.ne)

/-- An index is legal for the point registers when it is below 4 (30_encoding.md R62). -/
def legalPoint (i : RegIndex) : Bool := decide (i < Config.np)

/-- Every register index of the command is legal for the class R62's table gives the operand. -/
def Instr.wf : Instr → Bool
  | .finv d a => legalField d && legalField a
  | .fmul d a b => legalField d && legalField a && legalField b
  | .mmul d a b => legalField d && legalField a && legalField b
  | .fsqr d a => legalField d && legalField a
  | .fred d a => legalField d && legalExt a
  | .fadd d a b => legalField d && legalField a && legalField b
  | .fsub d a b => legalField d && legalField a && legalField b
  | .fdbl d a => legalField d && legalField a
  | .fneg d a => legalField d && legalField a
  | .mulx d a b => legalExt d && legalField a && legalField b
  | .subx d a b => legalExt d && legalExt a && legalExt b
  | .padd d a b => legalPoint d && legalPoint a && legalPoint b
  | .pdbl d a => legalPoint d && legalPoint a
  | .pneg d a => legalPoint d && legalPoint a
  | .psub d a b => legalPoint d && legalPoint a && legalPoint b
  | .ptpl d a => legalPoint d && legalPoint a
  | .pdbladd d a b => legalPoint d && legalPoint a && legalPoint b

end Sys2Proof
end

