-- ==== Sys2Proof/Decode.lean ====
section
/-! DEFINITION. The decoder of 30_encoding.md R61, R64, R66, R72, total on all words, and the encoder of R65. -/

namespace Sys2Proof

/-- Why a word is no command (30_encoding.md R66). The block records all three as the one cause `ILLEGAL_CMD`. -/
inductive DecodeError where
  /-- R66 (a): the opcode is not one of the 17 of R64. -/
  | unknownOpcode
  /-- R66 (b): a bit the format marks zero is 1. -/
  | nonzeroReservedBits
  /-- R66 (c): a register index is not legal for its file. -/
  | illegalIndex
  deriving DecidableEq, Repr

/-- `w[hi:lo]` as an unsigned integer (00_scope.md R17). -/
def bits (w : Word) (hi lo : Nat) : Nat := w.toNat / 2 ^ lo % 2 ^ (hi + 1 - lo)

/-- The last check of R72: the indexes are legal for their classes. -/
def checkIndexes (i : Instr) : Except DecodeError Instr :=
  if i.wf then .ok i else .error .illegalIndex

/-- Format R3: bits 11:0 are zero; `rd` 23:20, `rs1` 19:16, `rs2` 15:12 (30_encoding.md R61, R72). -/
def decodeR3 (make : RegIndex → RegIndex → RegIndex → Instr) (w : Word) : Except DecodeError Instr :=
  if bits w 11 0 = 0 then checkIndexes (make (bits w 23 20) (bits w 19 16) (bits w 15 12))
  else .error .nonzeroReservedBits

/-- Format R2: bits 15:0 are zero; `rd` 23:20, `rs1` 19:16 (30_encoding.md R61, R72). -/
def decodeR2 (make : RegIndex → RegIndex → Instr) (w : Word) : Except DecodeError Instr :=
  if bits w 15 0 = 0 then checkIndexes (make (bits w 23 20) (bits w 19 16))
  else .error .nonzeroReservedBits

/-- The decoder: the opcode map of 30_encoding.md R64, with the checks of R72 in R72's order. -/
def decode (w : Word) : Except DecodeError Instr :=
  match bits w 31 24 with
  | 0x10 => decodeR2 .finv w
  | 0x20 => decodeR3 .fmul w
  | 0x21 => decodeR3 .mmul w
  | 0x22 => decodeR2 .fsqr w
  | 0x23 => decodeR2 .fred w
  | 0x24 => decodeR3 .fadd w
  | 0x25 => decodeR3 .fsub w
  | 0x26 => decodeR2 .fdbl w
  | 0x27 => decodeR2 .fneg w
  | 0x28 => decodeR3 .mulx w
  | 0x29 => decodeR3 .subx w
  | 0x30 => decodeR3 .padd w
  | 0x31 => decodeR2 .pdbl w
  | 0x32 => decodeR2 .pneg w
  | 0x33 => decodeR3 .psub w
  | 0x34 => decodeR2 .ptpl w
  | 0x35 => decodeR3 .pdbladd w
  | _ => .error .unknownOpcode

/-- `opcode*2^24 + rd*2^20 + rs1*2^16 + rs2*2^12` (30_encoding.md R65). -/
def encodeR3 (op d a b : Nat) : Word := BitVec.ofNat 32 (op * 2 ^ 24 + d * 2 ^ 20 + a * 2 ^ 16 + b * 2 ^ 12)

/-- The same with `rs2 = 0` (30_encoding.md R65, format R2). -/
def encodeR2 (op d a : Nat) : Word := encodeR3 op d a 0

/-- The word of a command (30_encoding.md R64, R65). -/
def encode : Instr → Word
  | .finv d a => encodeR2 0x10 d a
  | .fmul d a b => encodeR3 0x20 d a b
  | .mmul d a b => encodeR3 0x21 d a b
  | .fsqr d a => encodeR2 0x22 d a
  | .fred d a => encodeR2 0x23 d a
  | .fadd d a b => encodeR3 0x24 d a b
  | .fsub d a b => encodeR3 0x25 d a b
  | .fdbl d a => encodeR2 0x26 d a
  | .fneg d a => encodeR2 0x27 d a
  | .mulx d a b => encodeR3 0x28 d a b
  | .subx d a b => encodeR3 0x29 d a b
  | .padd d a b => encodeR3 0x30 d a b
  | .pdbl d a => encodeR2 0x31 d a
  | .pneg d a => encodeR2 0x32 d a
  | .psub d a b => encodeR3 0x33 d a b
  | .ptpl d a => encodeR2 0x34 d a
  | .pdbladd d a b => encodeR3 0x35 d a b

/-- What the decoder reads from a table word of `nbits` bits. Every command is one 32-bit word (30_encoding.md R60); the
bits of the word above `nbits` are 0. -/
def decodeTableWord (nbits w : Nat) : Option Instr :=
  match decode (BitVec.ofNat 32 (w % 2 ^ nbits)) with
  | .ok i => some i
  | .error _ => none

end Sys2Proof
end

