-- ==== Sys2Proof/Machine/State.lean ====
section
/-! DEFINITION. The state of the block, field by field (10_state.md R20), its stops, and its reset value (R35). -/

namespace Sys2Proof.Machine

/-- The parts of `STATUS` that are stored (10_state.md R29); its other bits read 0. -/
structure Status where
  /-- Bit 0: the last executed command completed without a fault. -/
  done : Bool
  /-- Bit 1: a fault is recorded; while 1, commands are not executed. -/
  fault : Bool
  /-- Bits 7:4: the cause code of the recorded fault (60_exceptions.md R171). -/
  cause : BitVec 4
  deriving DecidableEq, Repr

/-- A point register (10_state.md R24): a tag (`STATE` 1:0, `COMP` 2) and three coordinate arrays, word 0 first.
`none` is the spec's "holds no value" (R20). -/
structure PointReg where
  tag : Option (BitVec 3)
  x : List (Option Word)
  y : List (Option Word)
  z : List (Option Word)
  deriving DecidableEq, Repr

/-- A host transaction (20_memory.md R40). The access size in bytes is kept, because every size but 4 is answered `ERR`
(R42, R45); `addr` is a byte offset from the block's base. Where the base is, a launch says (R43, `State.launch`). -/
inductive Transaction where
  | read (addr size : Nat)
  | write (addr size : Nat) (w : Word)
  deriving DecidableEq, Repr

/-- The bus's answer to a transaction (20_memory.md R40). -/
inductive Answer where
  /-- `OK` of a write. -/
  | ok
  /-- `OK(word)` of a read. -/
  | word (w : Word)
  /-- `ERR`: the transaction changed nothing in the block. -/
  | err
  deriving DecidableEq, Repr

/-- Everything the spec gives the block (10_state.md R20), and the model's own two lists (log 2). `CTRL` stores nothing
(R30); `CONFIG` is hardwired and computed from `len` (R29). Every word of `P`, `F`, `E` and `PT` is "either a 32-bit
value or `none`" (R20), word 0 first. -/
structure State where
  /-- `LEN`, the build parameter `CONFIG` shows (00_scope.md R7); no step changes it (log 1). -/
  len : Nat
  /-- `P`, the modulus register (10_state.md R21). -/
  p : List (Option Word)
  /-- `F[0..7]`, the field registers (10_state.md R22). -/
  f : Vector (List (Option Word)) 8
  /-- `E[0..3]`, the extended registers (10_state.md R23). -/
  e : Vector (List (Option Word)) 4
  /-- `PT[0..3]`, the point registers (10_state.md R24). -/
  pt : Vector PointReg 4
  /-- `CMD`, the last word taken for execution (10_state.md R28). -/
  cmd : Word
  /-- `STATUS` (10_state.md R29). -/
  status : Status
  /-- `FCMD`, the command word whose execution raised the recorded fault (10_state.md R30). -/
  fcmd : Word
  /-- The model's own (log 2): the host's transactions still to come, first one first. -/
  pending : List Transaction
  /-- The model's own (log 2): the bus's answers so far, latest first. -/
  answers : List Answer
  deriving DecidableEq, Repr

/-- What stops the machine with no next state. The block's own faults (60_exceptions.md R171) are not here: they are
recorded in `STATUS` and the machine goes on. -/
inductive Fault where
  /-- Raised by FINV where its loops have no exit (40_modular_inversion.md R91: "the source's algorithm has no exit for
  this case"): a stuck state. Safe: the model stops where the unit would run for ever. It needs a modulus that is not
  prime, so `modulusNotOddPrime` is answered before it (log 6). -/
  | inversionDoesNotEnd
  deriving DecidableEq, Repr

/-- What the model gives no meaning to. -/
inductive Refusal where
  /-- An instruction that has no meaning in the model yet. Safe. Raised only by an arm of `exec`. -/
  | notModelled (mnemonic : String)
  /-- A command executed while every word of `P` holds a value and that value is not an odd prime: "the result of every
  command is undefined; a model refuses such a launch" (00_scope.md R8; U1). Safe. Raised by every command (log 4). -/
  | modulusNotOddPrime
  deriving DecidableEq, Repr

/-- An array of `n` words none of which holds a value (10_state.md R35). -/
abbrev noWords (n : Nat) : List (Option Word) := List.replicate n none

/-- A point register that holds no value (10_state.md R35). -/
def PointReg.unwritten (len : Nat) : PointReg :=
  { tag := none, x := noWords len, y := noWords len, z := noWords len }

/-- The reset state of a block built with `LEN = len` (10_state.md R35, 70_reset_and_hazards.md R191). -/
def State.resetFor (len : Nat) : State :=
  { len := len
    p := noWords len
    f := Vector.replicate 8 (noWords len)
    e := Vector.replicate 4 (noWords (2 * len))
    pt := Vector.replicate 4 (PointReg.unwritten len)
    cmd := 0
    status := { done := false, fault := false, cause := 0 }
    fcmd := 0
    pending := []
    answers := [] }

/-- The machine right after reset (10_state.md R35), with the `LEN` of log 1 and no transaction pending (log 2). -/
def State.reset : State := State.resetFor Config.resetLen

end Sys2Proof.Machine
end

