-- ==== Sys2Proof/Machine/FieldFunctions.lean ====
section
/-! DEFINITION. The pure functions of 41_field_ops.md R111, as functions of integers. The method inside the units is
open and invisible (R112): "A model computes the values of rule R111 directly". -/

namespace Sys2Proof.Machine

/-- `(x * y) mod p`. -/
def fmul (p x y : Nat) : Nat := x * y % p

/-- `(x * x) mod p`. -/
def fsqr (p x : Nat) : Nat := x * x % p

/-- `(x + y) mod p`. -/
def fadd (p x y : Nat) : Nat := (x + y) % p

/-- `(x - y) mod m`, the residue in `[0, m)` (00_scope.md R17). -/
def subMod (m x y : Nat) : Nat := (((x : Int) - y) % m).toNat

/-- `(x - y) mod p`. -/
def fsub (p x y : Nat) : Nat := subMod p x y

/-- `(2 * x) mod p`. -/
def fdbl (p x : Nat) : Nat := 2 * x % p

/-- `0 if x = 0, else p - x`. -/
def fneg (p x : Nat) : Nat := if x = 0 then 0 else p - x

/-- `x * y`, an extended value. -/
def mulx (x y : Nat) : Nat := x * y

/-- `(s - t) mod p^2`, an extended value (R110, D20). -/
def subx (p s t : Nat) : Nat := subMod (p ^ 2) s t

/-- `s mod p`. -/
def fred (p s : Nat) : Nat := s % p

end Sys2Proof.Machine
end

