-- ==== Sys2Proof/Machine/Modulus.lean ====
section
/-! DEFINITION. The premise on the modulus: "`p` is an odd prime" (00_scope.md R8), decided exactly (log 4). -/

namespace Sys2Proof.Machine

/-- `a^e mod m` for `e < 2^fuel`. -/
def powMod (m : Nat) : (fuel a e : Nat) → Nat
  | 0, _, _ => 1 % m
  | fuel + 1, a, e =>
    if e % 2 = 1 then a * powMod m fuel (a * a % m) (e / 2) % m else powMod m fuel (a * a % m) (e / 2)

/-- No odd number from `d` up to the square root of `n` divides `n`; `fuel` bounds the numbers tried. -/
def noOddDivisor : (fuel d n : Nat) → Bool
  | 0, _, _ => false
  | fuel + 1, d, n =>
    if n < d * d then true else if n % d = 0 then false else noOddDivisor fuel (d + 2) n

/-- Moduli known to be odd primes, so that trial division need not be run on them: the field primes of common curves and
some other well-known primes. That they are primes is proved in Sys2Proof/Laws/Primality.lean; the list only makes
`oddPrime` fast, its answer is the same without it. -/
def provedPrimes : List Nat :=
  [2 ^ 128 - 2 ^ 97 - 1,  -- secp128r1
   2 ^ 160 - 2 ^ 32 - 21389,  -- secp160k1, secp160r2
   2 ^ 160 - 2 ^ 31 - 1,  -- secp160r1
   2 ^ 192 - 2 ^ 32 - 4553,  -- secp192k1
   2 ^ 192 - 2 ^ 64 - 1,  -- P-192
   2 ^ 224 - 2 ^ 32 - 6803,  -- secp224k1
   2 ^ 224 - 2 ^ 96 + 1,  -- P-224
   2 ^ 256 - 2 ^ 32 - 977,  -- secp256k1
   2 ^ 256 - 2 ^ 224 + 2 ^ 192 + 2 ^ 96 - 1,  -- P-256
   0xfffffffffffffffffffffffffffffffffffffffffffffffffffffffffffffffeffffffff0000000000000000ffffffff,  -- P-384
   2 ^ 255 - 19,  -- Curve25519
   0xfffffffffffffffffffffffffffffffffffffffffffffffffffffffeffffffffffffffffffffffffffffffffffffffffffffffffffffffff,  -- Curve448
   2 ^ 256 - 2 ^ 224 - 2 ^ 96 + 2 ^ 64 - 1,  -- SM2
   21888242871839275222246405745257275088696311157297823662689037894645226208583,  -- BN254
   0x1a0111ea397fe69a4b1ba7b6434bacd764774b84f38512bf6730d2a0f6b0f6241eabfffeb153ffffb9feffffffffaaab,  -- BLS12-381
   2 ^ 64 - 2 ^ 32 + 1,  -- Goldilocks
   2 ^ 31 - 1,  -- Mersenne primes
   2 ^ 61 - 1,
   2 ^ 89 - 1,
   2 ^ 107 - 1,
   2 ^ 127 - 1,
   2 ^ 32 - 5,  -- the largest primes of one, two, four, five, six, seven, eight and twelve words
   2 ^ 64 - 59,
   2 ^ 128 - 159,
   2 ^ 160 - 47,
   2 ^ 192 - 237,
   2 ^ 224 - 63,
   2 ^ 256 - 189,
   0xfffffffffffffffffffffffffffffffffffffffffffffffffffffffffffffffffffffffffffffffffffffffffffffec3]

/-- `n` is an odd prime. Exact: `Sys2Proof.Laws.oddPrime_iff`. A composite is mostly refused by Fermat's test to the base
2, a prime that is not listed is found prime by trial division. -/
def oddPrime (n : Nat) : Bool :=
  provedPrimes.contains n ||
    (decide (2 < n) && decide (n % 2 = 1) && decide (powMod n (n.log2 + 1) 2 (n - 1) = 1) && noOddDivisor n 3 n)

end Sys2Proof.Machine
end

