-- ==== Sys2Proof/Machine/Flags.lean ====
section
/-! DEFINITION. The status fields. The block has no condition codes, carry flags or predicates (10_state.md R32): its
only status bits are those of `STATUS` (R29). Here are the words a host reads, the cause codes (60_exceptions.md R171)
and the setting of `DONE`. -/

namespace Sys2Proof.Machine

/-- The causes of a recorded fault (60_exceptions.md R171). -/
inductive Cause where
  | illegalCmd
  | uninit
  | badTag
  | operandRange
  | invZero
  | internal
  deriving DecidableEq, Repr

/-- The code in `STATUS.CAUSE` (60_exceptions.md R171); 0 is "no fault recorded", 7 to 15 are never raised. -/
def causeCode : Cause → BitVec 4
  | .illegalCmd => 1
  | .uninit => 2
  | .badTag => 3
  | .operandRange => 4
  | .invZero => 5
  | .internal => 6

/-- The word a host reads at `STATUS` (10_state.md R29): `DONE` bit 0, `FAULT` bit 1, `CAUSE` 7:4, the rest 0. -/
def statusWord (st : Status) : Word :=
  BitVec.ofNat 32 (st.done.toNat + st.fault.toNat * 2 + st.cause.toNat * 2 ^ 4)

/-- The word a host reads at `CONFIG` (10_state.md R29): `LEN` 7:0, `NF` 11:8, `NE` 15:12, `NP` 19:16, the rest 0. -/
def configWord (len : Nat) : Word :=
  BitVec.ofNat 32 (len % 2 ^ 8 + Config.nf * 2 ^ 8 + Config.ne * 2 ^ 12 + Config.np * 2 ^ 16)

/-- `STATUS.DONE <- 1`, at the completion of a command (30_encoding.md R72). -/
def State.complete (s : State) : State := { s with status := { s.status with done := true } }

end Sys2Proof.Machine
end

