-- ==== Sys2Proof/Machine/WordArray.lean ====
section
/-! DEFINITION. Word arrays (00_scope.md R9) and the word-array primitives of the utility layer (R12 to R16). -/

namespace Sys2Proof.Machine

/-- `2^(32n)`, one more than the largest value of an `n`-word array (00_scope.md R9). -/
abbrev wordsBound (n : Nat) : Nat := 2 ^ (32 * n)

/-- `val(a)` where every word holds a value (00_scope.md R9: word 0 is the least significant), `none` where one does
not (10_state.md R20). -/
def valueOf : List (Option Word) → Option Nat
  | [] => some 0
  | none :: _ => none
  | some w :: ws => (valueOf ws).map fun v => w.toNat + 2 ^ 32 * v

/-- `words_n(v)`, each word marked as holding a value (00_scope.md R9, R18). -/
def wordsOf : Nat → Nat → List (Option Word)
  | 0, _ => []
  | n + 1, v => some (BitVec.ofNat 32 v) :: wordsOf n (v / 2 ^ 32)

/-! ### The utility layer, on the values of the arrays (log 6) -/

/-- Word `j` of the array of value `x` (00_scope.md R9). -/
def wordAt (x j : Nat) : Nat := x / wordsBound j % 2 ^ 32

/-- `nat_add` (00_scope.md R12): the sum modulo `2^(32n)` and the carry, 0 or 1. -/
def natAdd (n x y : Nat) : Nat × Int :=
  ((x + y) % wordsBound n, if wordsBound n ≤ x + y then 1 else 0)

/-- `nat_sub` (00_scope.md R13): the difference modulo `2^(32n)` and the borrow, 0 or -1. -/
def natSub (n x y : Nat) : Nat × Int :=
  ((((x : Int) - y) % wordsBound n).toNat, if x < y then -1 else 0)

/-- `nat_gte` (00_scope.md R14). -/
def natGte (x y : Nat) : Bool := decide (y ≤ x)

/-- `nat_is_zero` (00_scope.md R14). -/
def natIsZero (x : Nat) : Bool := decide (x = 0)

/-- `nat_is_one` (00_scope.md R14). -/
def natIsOne (x : Nat) : Bool := decide (x = 1)

/-- `nat_shift_down_word` (00_scope.md R15): over the low `n` words; the words above are not touched. -/
def natShiftDownWord (n x : Nat) : Nat :=
  x / wordsBound n * wordsBound n + x % wordsBound n / 2 ^ 32

/-- `nat_shift_down_bits` (00_scope.md R15): over the low `n` words; the words above are not touched. -/
def natShiftDownBits (n x k : Nat) : Nat :=
  x / wordsBound n * wordsBound n + x % wordsBound n / 2 ^ k

/-- The number of trailing zero bits of `w`, looking at no more than `fuel` of them. -/
def trailingZeros : (fuel w : Nat) → Nat
  | 0, _ => 0
  | fuel + 1, w => if w % 2 = 1 then 0 else 1 + trailingZeros fuel (w / 2)

/-- `ctz32` (00_scope.md R16), for a word that is not 0. -/
def ctz32 (w : Nat) : Nat := trailingZeros 32 w

end Sys2Proof.Machine
end

