-- ==== Sys2Proof/Machine/Ops.lean ====
section
/-! DEFINITION. The named operations on the registers: fault entry and its clearing, the resets, the writing of results,
and how a command ends. -/

namespace Sys2Proof.Machine

/-! ### Fault entry and clearing -/

/-- FAULT ENTRY (60_exceptions.md R174), the one operation every fault of a command goes through: `FAULT <- 1`,
`CAUSE <- cause`, `DONE <- 0`, `FCMD <- w`, and nothing else. "`CMD` already holds `w`" there, so `w` is read from `CMD`
(log 7). -/
def State.raiseFault (c : Cause) (s : State) : State :=
  { s with status := { done := false, fault := true, cause := causeCode c }, fcmd := s.cmd }

/-- THE RETURN from a fault, `CTRL.CLRF` (60_exceptions.md R177): `FAULT <- 0`, `CAUSE <- 0`, `FCMD <- 0`; "there is no
return instruction and nothing to restore". `DONE` keeps its value. -/
def State.clearFault (s : State) : State :=
  { s with status := { s.status with fault := false, cause := 0 }, fcmd := 0 }

/-! ### Resets -/

/-- Soft reset, `CTRL.SRST` (10_state.md R30, R35): the whole state of the block takes its reset value. The host's
transactions and the answers it has are not the block's and stay. -/
def State.softReset (s : State) : State :=
  { State.resetFor s.len with pending := s.pending, answers := s.answers }

/-- Hardware reset (70_reset_and_hazards.md R190): the same effect on the block; it "ends the run" (R201), so no
transaction is pending after it (log 9). -/
def State.hardReset (s : State) : State := { s.softReset with pending := [] }

/-! ### Writing results -/

/-- `F[i] <- v` (00_scope.md R18): all `LEN` words. -/
def State.writeField (s : State) (i : Fin 8) (v : Nat) : State := { s with f := s.f.set i (wordsOf s.len v) }

/-- `E[i] <- v` (00_scope.md R18): all `2*LEN` words. -/
def State.writeExt (s : State) (i : Fin 4) (v : Nat) : State := { s with e := s.e.set i (wordsOf (2 * s.len) v) }

/-- A logical point (10_state.md R25): `c` is the compression-preference flag, the coordinates are values. -/
inductive Point where
  | infinity (c : Bool)
  | affine (c : Bool) (x y : Nat)
  | jacobian (c : Bool) (x y z : Nat)
  deriving DecidableEq, Repr

/-- The tag `c*4 + state` (10_state.md R24, R26). -/
def tagOf (c : Bool) (state : Nat) : BitVec 3 := BitVec.ofNat 3 (c.toNat * 4 + state)

/-- What a point register holds after the logical point is written to it (10_state.md R26): the coordinates a state does
not have hold no value. -/
def pointReg (len : Nat) : Point → PointReg
  | .infinity c => { tag := some (tagOf c 0), x := noWords len, y := noWords len, z := noWords len }
  | .affine c x y => { tag := some (tagOf c 1), x := wordsOf len x, y := wordsOf len y, z := noWords len }
  | .jacobian c x y z => { tag := some (tagOf c 2), x := wordsOf len x, y := wordsOf len y, z := wordsOf len z }

/-- `PT[i] <- R` (10_state.md R26). -/
def State.writePoint (s : State) (i : Fin 4) (r : Point) : State := { s with pt := s.pt.set i (pointReg s.len r) }

/-! ### How a command ends -/

/-- Why a command does not complete. -/
inductive Stop where
  /-- `raise Fault(cause)` (00_scope.md R19): recorded by `State.raiseFault`, and the machine goes on. -/
  | raise (c : Cause)
  /-- The model gives the command no meaning. -/
  | refuse (r : Refusal)
  /-- The command never ends. -/
  | stuck (r : Fault)
  deriving DecidableEq, Repr

/-- The end of a command that began in `s` (30_encoding.md R72): without a fault the result it wrote and `DONE <- 1`;
with a fault the entry of R174 in `s` itself, so that nothing of a result is kept (60_exceptions.md R175). -/
def conclude (s : State) : Except Stop State → Host.Outcome State Fault Refusal
  | .ok t => .next t.complete
  | .error (.raise c) => .next (s.raiseFault c)
  | .error (.refuse r) => .refused r
  | .error (.stuck r) => .fault r

/-- A command that ends by writing a field register: the destination and the checked operands, then the result, which
FINV alone may not have. Everything is read and computed before the destination is written (10_state.md R27). -/
def toField {α : Type} (s : State) (operands : Except Stop (Fin 8 × α)) (result : α → Except Stop Nat) :
    Host.Outcome State Fault Refusal :=
  conclude s do
    let (d, xs) ← operands
    let v ← result xs
    return s.writeField d v

/-- A command that ends by writing an extended register. -/
def toExt {α : Type} (s : State) (operands : Except Stop (Fin 4 × α)) (result : α → Nat) :
    Host.Outcome State Fault Refusal :=
  conclude s do
    let (d, xs) ← operands
    return s.writeExt d (result xs)

/-- A command that ends by writing a point register. -/
def toPoint {α : Type} (s : State) (operands : Except Stop (Fin 4 × α)) (result : α → Point) :
    Host.Outcome State Fault Refusal :=
  conclude s do
    let (d, xs) ← operands
    return s.writePoint d (result xs)

end Sys2Proof.Machine
end

