-- ==== Sys2Proof/Machine/Operands.lean ====
section
/-! DEFINITION. The operand forms of the commands: indexes, held values, ranges, in the fixed order of
60_exceptions.md R173, and the six shapes of operand list of 30_encoding.md R62. -/

namespace Sys2Proof.Machine

/-! ### Step 1 of R173: the indexes -/

/-- A field register's index, or `ILLEGAL_CMD` (30_encoding.md R66 (c)). A decoded command never takes the second way,
since the decoder refuses its word (log 5). -/
def fieldIndex (i : Nat) : Except Stop (Fin 8) := if h : i < 8 then .ok ⟨i, h⟩ else .error (.raise .illegalCmd)

/-- An extended register's index, or `ILLEGAL_CMD` (30_encoding.md R66 (c), log 5). -/
def extIndex (i : Nat) : Except Stop (Fin 4) := if h : i < 4 then .ok ⟨i, h⟩ else .error (.raise .illegalCmd)

/-- A point register's index, or `ILLEGAL_CMD` (30_encoding.md R66 (c), log 5). -/
def pointIndex (i : Nat) : Except Stop (Fin 4) := if h : i < 4 then .ok ⟨i, h⟩ else .error (.raise .illegalCmd)

/-! ### Step 2 of R173: the modulus -/

/-- `p = val(P)`: `UNINIT` if a word of `P` holds no value (10_state.md R21); refused if it is not an odd prime
(00_scope.md R8, log 4). -/
def modulus (s : State) : Except Stop Nat :=
  match valueOf s.p with
  | none => .error (.raise .uninit)
  | some p => if oddPrime p then .ok p else .error (.refuse .modulusNotOddPrime)

/-! ### Step 3 of R173: what the source registers hold -/

/-- The value of a word array, `UNINIT` if one of its words holds none. -/
def held (a : List (Option Word)) : Except Stop Nat :=
  match valueOf a with
  | none => .error (.raise .uninit)
  | some v => .ok v

/-- `val(F[i])` (10_state.md R22). -/
def heldField (s : State) (i : Fin 8) : Except Stop Nat := held s.f[i]

/-- `val(E[i])` (10_state.md R23). -/
def heldExt (s : State) (i : Fin 4) : Except Stop Nat := held s.e[i]

/-- `TAG.STATE`, bits 1:0 (10_state.md R24). -/
def tagState (t : BitVec 3) : Nat := t.toNat % 4

/-- `TAG.COMP`, bit 2 (10_state.md R24). -/
def tagComp (t : BitVec 3) : Bool := t.getLsbD 2

/-- `point(PT[i])` (10_state.md R25): the logical point a point register holds. An Infinity's coordinates and an Affine
point's `Z` are not looked at. -/
def logicalPoint (r : PointReg) : Except Stop Point :=
  match r.tag with
  | none => .error (.raise .uninit)
  | some t =>
    match tagState t with
    | 0 => .ok (.infinity (tagComp t))
    | 1 => do
      let x ← held r.x
      let y ← held r.y
      return .affine (tagComp t) x y
    | 2 => do
      let x ← held r.x
      let y ← held r.y
      let z ← held r.z
      return .jacobian (tagComp t) x y z
    | _ => .error (.raise .badTag)

/-- `point(PT[i])` (10_state.md R25). -/
def heldPoint (s : State) (i : Fin 4) : Except Stop Point := logicalPoint s.pt[i]

/-! ### Step 4 of R173: the ranges -/

/-- `OPERAND_RANGE` unless `v < bound` (10_state.md R22, R23). -/
def below (bound v : Nat) : Except Stop Unit := if v < bound then .ok () else .error (.raise .operandRange)

/-- Each coordinate the point's state has is reduced. -/
def Point.reduced (p : Nat) : Point → Bool
  | .infinity _ => true
  | .affine _ x y => decide (x < p) && decide (y < p)
  | .jacobian _ x y z => decide (x < p) && decide (y < p) && decide (z < p)

/-- `OPERAND_RANGE` unless each coordinate the point's state has is `< p` (10_state.md R25). -/
def pointInRange (p : Nat) (q : Point) : Except Stop Unit :=
  if q.reduced p then .ok () else .error (.raise .operandRange)

/-! ### The operand lists: destination, modulus, sources, after steps 1 to 4 of R173 -/

/-- `Fd, Fs1`. -/
def operandsFF (s : State) (rd rs1 : Nat) : Except Stop (Fin 8 × Nat × Nat) := do
  let d ← fieldIndex rd
  let a ← fieldIndex rs1
  let p ← modulus s
  let x ← heldField s a
  below p x
  return (d, p, x)

/-- `Fd, Fs1, Fs2`. -/
def operandsFFF (s : State) (rd rs1 rs2 : Nat) : Except Stop (Fin 8 × Nat × Nat × Nat) := do
  let d ← fieldIndex rd
  let a ← fieldIndex rs1
  let b ← fieldIndex rs2
  let p ← modulus s
  let x ← heldField s a
  let y ← heldField s b
  below p x
  below p y
  return (d, p, x, y)

/-- `Fd, Es1`. -/
def operandsFE (s : State) (rd rs1 : Nat) : Except Stop (Fin 8 × Nat × Nat) := do
  let d ← fieldIndex rd
  let a ← extIndex rs1
  let p ← modulus s
  let x ← heldExt s a
  below (p ^ 2) x
  return (d, p, x)

/-- `Ed, Fs1, Fs2`. -/
def operandsEFF (s : State) (rd rs1 rs2 : Nat) : Except Stop (Fin 4 × Nat × Nat × Nat) := do
  let d ← extIndex rd
  let a ← fieldIndex rs1
  let b ← fieldIndex rs2
  let p ← modulus s
  let x ← heldField s a
  let y ← heldField s b
  below p x
  below p y
  return (d, p, x, y)

/-- `Ed, Es1, Es2`. -/
def operandsEEE (s : State) (rd rs1 rs2 : Nat) : Except Stop (Fin 4 × Nat × Nat × Nat) := do
  let d ← extIndex rd
  let a ← extIndex rs1
  let b ← extIndex rs2
  let p ← modulus s
  let x ← heldExt s a
  let y ← heldExt s b
  below (p ^ 2) x
  below (p ^ 2) y
  return (d, p, x, y)

/-- `PTd, PTs1`. -/
def operandsPP (s : State) (rd rs1 : Nat) : Except Stop (Fin 4 × Nat × Point) := do
  let d ← pointIndex rd
  let a ← pointIndex rs1
  let p ← modulus s
  let x ← heldPoint s a
  pointInRange p x
  return (d, p, x)

/-- `PTd, PTs1, PTs2`. -/
def operandsPPP (s : State) (rd rs1 rs2 : Nat) : Except Stop (Fin 4 × Nat × Point × Point) := do
  let d ← pointIndex rd
  let a ← pointIndex rs1
  let b ← pointIndex rs2
  let p ← modulus s
  let x ← heldPoint s a
  let y ← heldPoint s b
  pointInRange p x
  pointInRange p y
  return (d, p, x, y)

end Sys2Proof.Machine
end

