-- ==== Sys2Proof/Machine/FieldOps.lean ====
section
/-! DEFINITION. The ten field commands (41_field_ops.md R100 to R110). Each reads its operands after all checks of
60_exceptions.md R173, and writes its destination last (10_state.md R27). -/

namespace Sys2Proof.Machine

/-- FMUL (41_field_ops.md R101): `F[d] <- fmul(val(F[s1]), val(F[s2]))`. -/
def execFmul (rd rs1 rs2 : Nat) (s : State) : Host.Outcome State Fault Refusal :=
  toField s (operandsFFF s rd rs1 rs2) fun (p, x, y) => .ok (fmul p x y)

/-- MMUL (41_field_ops.md R102): "identical to FMUL in result, in faults and in every corner case". -/
def execMmul (rd rs1 rs2 : Nat) (s : State) : Host.Outcome State Fault Refusal :=
  toField s (operandsFFF s rd rs1 rs2) fun (p, x, y) => .ok (fmul p x y)

/-- FSQR (41_field_ops.md R103): `F[d] <- fsqr(val(F[s1]))`. -/
def execFsqr (rd rs1 : Nat) (s : State) : Host.Outcome State Fault Refusal :=
  toField s (operandsFF s rd rs1) fun (p, x) => .ok (fsqr p x)

/-- FRED (41_field_ops.md R104): `F[d] <- fred(val(E[s1]))`. -/
def execFred (rd rs1 : Nat) (s : State) : Host.Outcome State Fault Refusal :=
  toField s (operandsFE s rd rs1) fun (p, x) => .ok (fred p x)

/-- FADD (41_field_ops.md R105): `F[d] <- fadd(val(F[s1]), val(F[s2]))`. -/
def execFadd (rd rs1 rs2 : Nat) (s : State) : Host.Outcome State Fault Refusal :=
  toField s (operandsFFF s rd rs1 rs2) fun (p, x, y) => .ok (fadd p x y)

/-- FSUB (41_field_ops.md R106): `F[d] <- fsub(val(F[s1]), val(F[s2]))`. -/
def execFsub (rd rs1 rs2 : Nat) (s : State) : Host.Outcome State Fault Refusal :=
  toField s (operandsFFF s rd rs1 rs2) fun (p, x, y) => .ok (fsub p x y)

/-- FDBL (41_field_ops.md R107): `F[d] <- fdbl(val(F[s1]))`. -/
def execFdbl (rd rs1 : Nat) (s : State) : Host.Outcome State Fault Refusal :=
  toField s (operandsFF s rd rs1) fun (p, x) => .ok (fdbl p x)

/-- FNEG (41_field_ops.md R108): `F[d] <- fneg(val(F[s1]))`. -/
def execFneg (rd rs1 : Nat) (s : State) : Host.Outcome State Fault Refusal :=
  toField s (operandsFF s rd rs1) fun (p, x) => .ok (fneg p x)

/-- MULX (41_field_ops.md R109): `E[d] <- mulx(val(F[s1]), val(F[s2]))`, "no reduction of any kind". -/
def execMulx (rd rs1 rs2 : Nat) (s : State) : Host.Outcome State Fault Refusal :=
  toExt s (operandsEFF s rd rs1 rs2) fun (_, x, y) => mulx x y

/-- SUBX (41_field_ops.md R110): `E[d] <- subx(val(E[s1]), val(E[s2]))`. -/
def execSubx (rd rs1 rs2 : Nat) (s : State) : Host.Outcome State Fault Refusal :=
  toExt s (operandsEEE s rd rs1 rs2) fun (p, x, y) => subx p x y

end Sys2Proof.Machine
end

