-- ==== Sys2Proof/Machine/Inversion.lean ====
section
/-! DEFINITION. Modular inversion, the command FINV (40_modular_inversion.md R80 to R86). A tracked quantity is a pair
`(t, tc)`: the value of a `LEN`-word array and its correction counter (R82, R92). Word arrays stand here as their values,
which the primitives of 00_scope.md R12 to R16 are stated on (log 6). -/

namespace Sys2Proof.Machine

/-- The first loop of `odd_reduce` (40_modular_inversion.md R83): shift `u` down by whole words while its low word is 0,
counting 32 for each. An array of `uLen` words that is not zero needs fewer than `uLen` turns; where the turns run out
the loop has no exit (R91). -/
def shiftWords (uLen : Nat) : (turns u count : Nat) → Except Stop (Nat × Nat)
  | 0, _, _ => .error (.stuck .inversionDoesNotEnd)
  | turns + 1, u, count =>
    if wordAt u 0 = 0 then shiftWords uLen turns (natShiftDownWord uLen u) (count + 32) else .ok (u, count)

/-- One turn of the last loop of `odd_reduce` (40_modular_inversion.md R83): make the tracked value even by adding or
subtracting the modulus, test its counter (R90), and halve the signed value. -/
def halve (len p : Nat) (t : Nat) (tc : Int) : Except Stop (Nat × Int) :=
  let even : Nat × Int :=
    if t % 2 = 1 then
      if tc < 0 then ((natAdd len t p).1, tc + (natAdd len t p).2)
      else ((natSub len t p).1, tc + (natSub len t p).2)
    else (t, tc)
  if even.2 ≠ 0 ∧ even.2 ≠ -1 then .error (.raise .internal)
  else .ok (even.1 / 2 + (if even.2 = -1 then 2 ^ (32 * len - 1) else 0), even.2)

/-- "repeat count times" of `odd_reduce` (40_modular_inversion.md R83). -/
def halveTimes (len p : Nat) : (count t : Nat) → (tc : Int) → Except Stop (Nat × Int)
  | 0, t, tc => .ok (t, tc)
  | count + 1, t, tc => do
    let (t, tc) ← halve len p t tc
    halveTimes len p count t tc

/-- `odd_reduce(u, uLen, t, tc)` (40_modular_inversion.md R83). -/
def oddReduce (len p u uLen t : Nat) (tc : Int) : Except Stop (Nat × Nat × Int) := do
  let (u, count) ← shiftWords uLen (uLen + 1) u 0
  let k := ctz32 (wordAt u 0)
  let u := if 0 < k then natShiftDownBits uLen u k else u
  let (t, tc) ← halveTimes len p (count + k) t tc
  return (u, t, tc)

/-- `finalise(t, tc)` (40_modular_inversion.md R86). -/
def finalise (len p t : Nat) (tc : Int) : Nat := if tc < 0 then (natAdd len t p).1 else t

/-- The head of the main loop (40_modular_inversion.md R85): shrink the shared active length while the top words of both
`u` and `v` are zero, never below 1. -/
def shrink (u v : Nat) : (uvLen : Nat) → Nat
  | 0 => 0
  | 1 => 1
  | n + 2 => if wordAt u (n + 1) = 0 ∧ wordAt v (n + 1) = 0 then shrink u v (n + 1) else n + 2

/-- The main loop (40_modular_inversion.md R85). Each turn at least halves `u * v`, so `64 * LEN` turns are enough where
one of the two reaches 1; where they run out the loop has no exit (R91). -/
def inversionLoop (len p : Nat) :
    (turns u a : Nat) → (ac : Int) → (v b : Nat) → (bc : Int) → (uvLen : Nat) → Except Stop Nat
  | 0, _, _, _, _, _, _, _ => .error (.stuck .inversionDoesNotEnd)
  | turns + 1, u, a, ac, v, b, bc, uvLen =>
    let uvLen := shrink u v uvLen
    if natGte u v then do
      let (u, a, ac) ←
        oddReduce len p (natSub len u v).1 uvLen (natSub len a b).1 (ac + (natSub len a b).2 - bc)
      if natIsOne u then return finalise len p a ac
      inversionLoop len p turns u a ac v b bc uvLen
    else do
      let (v, b, bc) ←
        oddReduce len p (natSub len v u).1 uvLen (natSub len b a).1 (bc + (natSub len b a).2 - ac)
      if natIsOne v then return finalise len p b bc
      inversionLoop len p turns u a ac v b bc uvLen

/-- "if `u[0]` is even" of 40_modular_inversion.md R84: one `odd_reduce` of the pair `(x, 1)` before the loop. -/
def initialReduction (len p x : Nat) : Except Stop (Nat × Nat × Int) :=
  if x % 2 = 0 then oddReduce len p x len 1 0 else .ok (x, 1, 0)

/-- `invert(p, x)` (40_modular_inversion.md R80, R84): the fast path `x = 1`, the initial odd-reduction, the early test,
the main loop. -/
def invert (len p x : Nat) : Except Stop Nat :=
  if x = 1 then .ok 1
  else do
    let (u, a, ac) ← initialReduction len p x
    if natIsOne u then return finalise len p a ac
    inversionLoop len p (64 * len) u a ac p 0 0 len

/-- FINV (40_modular_inversion.md R80): `F[d] <- invert(p, val(F[s1]))`; `INV_ZERO` for 0. -/
def execFinv (rd rs1 : Nat) (s : State) : Host.Outcome State Fault Refusal :=
  toField s (operandsFF s rd rs1) fun (p, x) =>
    if natIsZero x then .error (.raise .invZero) else invert s.len p x

end Sys2Proof.Machine
end

