-- ==== Sys2Proof/Machine/GroupLaw.lean ====
section
/-! DEFINITION. The six pure functions of the group law on logical points (42_point_ops.md R131 to R138), written as the
spec's pseudocode writes them. -/

namespace Sys2Proof.Machine

/-- The compression-preference flag, which no rule reads to decide anything (42_point_ops.md R131). -/
def Point.flag : Point → Bool
  | .infinity c => c
  | .affine c _ _ => c
  | .jacobian c _ _ _ => c

/-- "Is Infinity": a test of the state, never of coordinates (42_point_ops.md, head). -/
def Point.isInfinity : Point → Bool
  | .infinity _ => true
  | .affine _ _ _ => false
  | .jacobian _ _ _ _ => false

/-- `P.X`; an Infinity has none, and no rule asks for it. -/
def Point.xCoord : Point → Nat
  | .infinity _ => 0
  | .affine _ x _ => x
  | .jacobian _ x _ _ => x

/-- `P.Y`; an Infinity has none, and no rule asks for it. -/
def Point.yCoord : Point → Nat
  | .infinity _ => 0
  | .affine _ _ y => y
  | .jacobian _ _ y _ => y

/-- `Zeff(P)` (10_state.md R25): 1 for an Affine point, the stored `Z` of a Jacobian one. -/
def Point.zEff : Point → Nat
  | .infinity _ => 0
  | .affine _ _ _ => 1
  | .jacobian _ _ _ z => z

/-- `twice(P)` (42_point_ops.md R132). -/
def twice (p : Nat) (pt : Point) : Point :=
  if pt.isInfinity then .infinity pt.flag
  else
    let x1 := pt.xCoord
    let y1 := pt.yCoord
    let z1 := pt.zEff
    if y1 = 0 then .infinity pt.flag
    else
      let y1y1 := fsqr p y1
      let t4 := fsqr p y1y1
      let t := fsqr p x1
      let m := fadd p (fdbl p t) t
      let s := fdbl p (fdbl p (fmul p x1 y1y1))
      let x3 := fsub p (fsub p (fsqr p m) s) s
      let t8 := fdbl p (fdbl p (fdbl p t4))
      let y3 := fsub p (fmul p m (fsub p s x3)) t8
      let z3 := fdbl p y1
      .jacobian pt.flag x3 y3 (if z1 ≠ 1 then fmul p z3 z1 else z3)

/-- `add(P, Q, same)` (42_point_ops.md R133): `same` says that the command names one register for both operands. `Y3` is
computed on the extended path of R145. -/
def add (p : Nat) (pt q : Point) (same : Bool) : Point :=
  if pt.isInfinity then q
  else if q.isInfinity then pt
  else if same then twice p pt
  else
    let x1 := pt.xCoord
    let y1 := pt.yCoord
    let z1 := pt.zEff
    let x2 := q.xCoord
    let y2 := q.yCoord
    let z2 := q.zEff
    let z1z1 := fsqr p z1
    let u2 := if z1 = 1 then x2 else fmul p x2 z1z1
    let s2 := if z1 = 1 then y2 else fmul p y2 (fmul p z1z1 z1)
    let z2z2 := fsqr p z2
    let u1 := if z2 = 1 then x1 else fmul p x1 z2z2
    let s1 := if z2 = 1 then y1 else fmul p y1 (fmul p z2z2 z2)
    let h := fsub p u1 u2
    let r := fsub p s1 s2
    if h = 0 ∧ r = 0 then twice p pt
    else if h = 0 then .infinity pt.flag
    else
      let hh := fsqr p h
      let g := fmul p hh h
      let v := fmul p hh u1
      let x3 := fsub p (fadd p (fsqr p r) g) (fdbl p v)
      let y3 := fred p (subx p (mulx (fsub p v x3) r) (mulx s1 g))
      let z3 := if z1 ≠ 1 then fmul p h z1 else h
      .jacobian pt.flag x3 y3 (if z2 ≠ 1 then fmul p z3 z2 else z3)

/-- `negate(P)` (42_point_ops.md R134). -/
def negate (p : Nat) : Point → Point
  | .infinity c => .infinity c
  | .affine c x y => .affine c x (fneg p y)
  | .jacobian c x y z => .jacobian c x (fneg p y) z

/-- `subtract(P, Q)` (42_point_ops.md R135): the third argument of `add` is false even for one register named twice. -/
def subtract (p : Nat) (pt q : Point) : Point :=
  if q.isInfinity then pt else add p pt (negate p q) false

/-- `three_times(P)` (42_point_ops.md R136): the doubled point is the first argument of `add`. -/
def threeTimes (p : Nat) (pt : Point) : Point :=
  if pt.isInfinity then pt
  else if pt.yCoord = 0 then pt
  else add p (twice p pt) pt false

/-- `twice_plus(P, Q, same)` (42_point_ops.md R137), the cases in the spec's order (D19). -/
def twicePlus (p : Nat) (pt q : Point) (same : Bool) : Point :=
  if same then threeTimes p pt
  else if pt.isInfinity then q
  else if q.isInfinity then twice p pt
  else if pt.yCoord = 0 then q
  else add p (twice p pt) q false

end Sys2Proof.Machine
end

