-- ==== Sys2Proof/Machine/PointOps.lean ====
section
/-! DEFINITION. The six commands of the group law (42_point_ops.md R130, R139 to R144). "Same instance" is "same register
index" (R139). -/

namespace Sys2Proof.Machine

/-- PADD (42_point_ops.md R139): `PT[d] <- add(point(PT[s1]), point(PT[s2]), s1 = s2)`. -/
def execPadd (rd rs1 rs2 : Nat) (s : State) : Host.Outcome State Fault Refusal :=
  toPoint s (operandsPPP s rd rs1 rs2) fun (p, x, y) => add p x y (decide (rs1 = rs2))

/-- PDBL (42_point_ops.md R140): `PT[d] <- twice(point(PT[s1]))`. -/
def execPdbl (rd rs1 : Nat) (s : State) : Host.Outcome State Fault Refusal :=
  toPoint s (operandsPP s rd rs1) fun (p, x) => twice p x

/-- PNEG (42_point_ops.md R141): `PT[d] <- negate(point(PT[s1]))`. -/
def execPneg (rd rs1 : Nat) (s : State) : Host.Outcome State Fault Refusal :=
  toPoint s (operandsPP s rd rs1) fun (p, x) => negate p x

/-- PSUB (42_point_ops.md R142): `PT[d] <- subtract(point(PT[s1]), point(PT[s2]))`. -/
def execPsub (rd rs1 rs2 : Nat) (s : State) : Host.Outcome State Fault Refusal :=
  toPoint s (operandsPPP s rd rs1 rs2) fun (p, x, y) => subtract p x y

/-- PTPL (42_point_ops.md R143): `PT[d] <- three_times(point(PT[s1]))`. -/
def execPtpl (rd rs1 : Nat) (s : State) : Host.Outcome State Fault Refusal :=
  toPoint s (operandsPP s rd rs1) fun (p, x) => threeTimes p x

/-- PDBLADD (42_point_ops.md R144): `PT[d] <- twice_plus(point(PT[s1]), point(PT[s2]), s1 = s2)`. -/
def execPdbladd (rd rs1 rs2 : Nat) (s : State) : Host.Outcome State Fault Refusal :=
  toPoint s (operandsPPP s rd rs1 rs2) fun (p, x, y) => twicePlus p x y (decide (rs1 = rs2))

end Sys2Proof.Machine
end

