-- ==== Sys2Proof/Machine/Dispatch.lean ====
section
/-! DEFINITION. What each command does, one arm for each constructor of Instr. -/

namespace Sys2Proof.Machine

/-- The execution of a command in a state whose `CMD` already holds its word (30_encoding.md R72). -/
def exec (i : Instr) (s : State) : Host.Outcome State Fault Refusal :=
  match i with
  | .finv rd rs1 => Sys2Proof.Machine.execFinv rd rs1 s
  | .fmul rd rs1 rs2 => Sys2Proof.Machine.execFmul rd rs1 rs2 s
  | .mmul rd rs1 rs2 => Sys2Proof.Machine.execMmul rd rs1 rs2 s
  | .fsqr rd rs1 => Sys2Proof.Machine.execFsqr rd rs1 s
  | .fred rd rs1 => Sys2Proof.Machine.execFred rd rs1 s
  | .fadd rd rs1 rs2 => Sys2Proof.Machine.execFadd rd rs1 rs2 s
  | .fsub rd rs1 rs2 => Sys2Proof.Machine.execFsub rd rs1 rs2 s
  | .fdbl rd rs1 => Sys2Proof.Machine.execFdbl rd rs1 s
  | .fneg rd rs1 => Sys2Proof.Machine.execFneg rd rs1 s
  | .mulx rd rs1 rs2 => Sys2Proof.Machine.execMulx rd rs1 rs2 s
  | .subx rd rs1 rs2 => Sys2Proof.Machine.execSubx rd rs1 rs2 s
  | .padd rd rs1 rs2 => Sys2Proof.Machine.execPadd rd rs1 rs2 s
  | .pdbl rd rs1 => Sys2Proof.Machine.execPdbl rd rs1 s
  | .pneg rd rs1 => Sys2Proof.Machine.execPneg rd rs1 s
  | .psub rd rs1 rs2 => Sys2Proof.Machine.execPsub rd rs1 rs2 s
  | .ptpl rd rs1 => Sys2Proof.Machine.execPtpl rd rs1 s
  | .pdbladd rd rs1 rs2 => Sys2Proof.Machine.execPdbladd rd rs1 rs2 s

end Sys2Proof.Machine
end

