-- ==== Sys2Proof/Machine/Window.lean ====
section
/-! DEFINITION. The register window: the address map of 20_memory.md R41, reads (R42, R48), writes of data words
(10_state.md R38, R39) and the write of `CTRL` (R30). -/

namespace Sys2Proof.Machine

/-- The size of the window in bytes (20_memory.md R41). -/
abbrev windowSize : Nat := 3072

/-- The offset that an address of the host's address space names, for a window bound at `base` (20_memory.md R43); none
where the address is not in the window. -/
def windowOffset (base addr : Nat) : Option Nat :=
  if base ≤ addr ∧ addr < base + windowSize then some (addr - base) else none

/-- A data word of the block (20_memory.md R41): which array and, from word 0, which word of it. -/
inductive DataWord where
  | p (j : Nat)
  | f (i : Fin 8) (j : Nat)
  | e (i : Fin 4) (j : Nat)
  | tag (i : Fin 4)
  | x (i : Fin 4) (j : Nat)
  | y (i : Fin 4) (j : Nat)
  | z (i : Fin 4) (j : Nat)
  deriving DecidableEq, Repr

/-- What an offset of the window names (20_memory.md R41). -/
inductive Target where
  | cmd
  | status
  | ctrl
  | config
  | fcmd
  | data (w : DataWord)
  deriving DecidableEq, Repr

/-- The word of a slot, if it is inside the array: offsets at `j >= n` are unmapped (20_memory.md R41). -/
def slotWord (n j : Nat) (make : Nat → DataWord) : Option Target := if j < n then some (.data (make j)) else none

/-- The address map of 20_memory.md R41 for a block built with `LEN = len`, on offsets that are multiples of 4. An offset
the map does not give is unmapped. -/
def target (len addr : Nat) : Option Target :=
  if addr = 0x000 then some .cmd
  else if addr = 0x004 then some .status
  else if addr = 0x008 then some .ctrl
  else if addr = 0x00C then some .config
  else if addr = 0x010 then some .fcmd
  else if addr < 0x040 then none
  else if addr < 0x080 then slotWord len ((addr - 0x040) / 4) .p
  else if addr < 0x100 then none
  else if addr < 0x300 then slotWord len ((addr - 0x100) % 0x40 / 4) (.f (Fin.ofNat 8 ((addr - 0x100) / 0x40)))
  else if addr < 0x400 then none
  else if addr < 0x600 then slotWord (2 * len) ((addr - 0x400) % 0x80 / 4) (.e (Fin.ofNat 4 ((addr - 0x400) / 0x80)))
  else if addr < 0x800 then none
  else if addr < 0xC00 then
    let i := Fin.ofNat 4 ((addr - 0x800) / 0x100)
    let r := (addr - 0x800) % 0x100
    if r = 0 then some (.data (.tag i))
    else if r < 0x40 then none
    else if r < 0x80 then slotWord len ((r - 0x40) / 4) (.x i)
    else if r < 0xC0 then slotWord len ((r - 0x80) / 4) (.y i)
    else slotWord len ((r - 0xC0) / 4) (.z i)
  else none

/-- What a transaction reaches: only an aligned access of 4 bytes reaches anything (20_memory.md R42, R45). -/
def access (len addr size : Nat) : Option Target := if size = 4 ∧ addr % 4 = 0 then target len addr else none

/-- What a data word holds; a tag reads with bits 31:3 zero (10_state.md R24). -/
def State.dataWord (s : State) : DataWord → Option Word
  | .p j => s.p[j]?.join
  | .f i j => s.f[i][j]?.join
  | .e i j => s.e[i][j]?.join
  | .tag i => s.pt[i].tag.map (BitVec.setWidth 32)
  | .x i j => s.pt[i].x[j]?.join
  | .y i j => s.pt[i].y[j]?.join
  | .z i j => s.pt[i].z[j]?.join

/-- A host write to one data word (10_state.md R38: "sets that one word to `w`"; R39: `TAG <- w[2:0]`). -/
def State.setDataWord (s : State) (d : DataWord) (w : Word) : State :=
  match d with
  | .p j => { s with p := s.p.set j (some w) }
  | .f i j => { s with f := s.f.set i (s.f[i].set j (some w)) }
  | .e i j => { s with e := s.e.set i (s.e[i].set j (some w)) }
  | .tag i => { s with pt := s.pt.set i { s.pt[i] with tag := some (w.setWidth 3) } }
  | .x i j => { s with pt := s.pt.set i { s.pt[i] with x := s.pt[i].x.set j (some w) } }
  | .y i j => { s with pt := s.pt.set i { s.pt[i] with y := s.pt[i].y.set j (some w) } }
  | .z i j => { s with pt := s.pt.set i { s.pt[i] with z := s.pt[i].z.set j (some w) } }

/-- The bus answers a transaction. -/
def State.reply (s : State) (a : Answer) : State := { s with answers := a :: s.answers }

/-- `MemRead(addr, size)` (20_memory.md R42): a data word that holds none is `ERR` (R48); a read has no side effect
(R46), so this is only an answer. -/
def memRead (s : State) (addr size : Nat) : Answer :=
  match access s.len addr size with
  | none => .err
  | some .cmd => .word s.cmd
  | some .status => .word (statusWord s.status)
  | some .ctrl => .word 0
  | some .config => .word (configWord s.len)
  | some .fcmd => .word s.fcmd
  | some (.data d) =>
    match s.dataWord d with
    | none => .err
    | some w => .word w

/-- A write of `w` to `CTRL` (10_state.md R30): bit 1 `SRST`, bit 0 `CLRF`; "if both bits are 1, `SRST` wins"; a bit
written 0 has no effect and bits 31:2 are ignored. -/
def control (w : Word) (s : State) : State :=
  if w.getLsbD 1 then s.softReset else if w.getLsbD 0 then s.clearFault else s

end Sys2Proof.Machine
end

