-- ==== Sys2Proof/Machine/Command.lean ====
section
/-! DEFINITION. The write of `CMD`, which executes a command (10_state.md R28, 30_encoding.md R72), the two transactions of
a host (20_memory.md R40, R42), and the launch of its program at a base (R43). -/

namespace Sys2Proof.Machine

/-- A write of `w` to `CMD`: dropped while a fault is recorded (60_exceptions.md R176); else `CMD <- w`, then the word is
decoded and executed (30_encoding.md R72). The decoder refuses a word for one of three reasons (30_encoding.md R66), all
of them the one cause `ILLEGAL_CMD`. -/
def takeCommand (w : Word) (s : State) : Host.Outcome State Fault Refusal :=
  if s.status.fault then .next s
  else
    match decode w with
    | .error _ => .next ({ s with cmd := w }.raiseFault .illegalCmd)
    | .ok i => exec i { s with cmd := w }

/-- `MemWrite(addr, size, w)` (20_memory.md R42). A write to `CMD` completes with `OK` whether its command completes,
faults or is dropped (60_exceptions.md R174, R176). -/
def memWrite (addr size : Nat) (w : Word) (s : State) : Host.Outcome State Fault Refusal :=
  match access s.len addr size with
  | none => .next (s.reply .err)
  | some .cmd => takeCommand w (s.reply .ok)
  | some .status => .next (s.reply .err)
  | some .ctrl => .next (control w (s.reply .ok))
  | some .config => .next (s.reply .err)
  | some .fcmd => .next (s.reply .err)
  | some (.data d) => .next ((s.reply .ok).setDataWord d w)

/-- One transaction of the host (20_memory.md R40). -/
def transact (t : Transaction) (s : State) : Host.Outcome State Fault Refusal :=
  match t with
  | .read addr size => .next (s.reply (memRead s addr size))
  | .write addr size w => memWrite addr size w s

/-- One step: the next pending transaction, taken off the list and carried out; with none pending "the block does
nothing" (20_memory.md R55). -/
def nextTransaction (s : State) : Host.Outcome State Fault Refusal :=
  match s.pending with
  | [] => .next s
  | t :: rest => transact t { s with pending := rest }

/-- A transaction of the host at an address of the host's address space, as the block sees it through a window bound at
`base` (20_memory.md R40, R43): at the offset from the base. One whose address is not in the window is not the block's
(log 10). -/
def Transaction.fromHost (base : Nat) : Transaction → Option Transaction
  | .read addr size => (windowOffset base addr).map fun offset => .read offset size
  | .write addr size w => (windowOffset base addr).map fun offset => .write offset size w

/-- The launch of a host's program, its transactions at addresses of the host's address space: "A model binds the window
at a base the launch supplies" (20_memory.md R43). The base "is not state of the block", so only the offsets stay. -/
def State.launch (base : Nat) (program : List Transaction) (s : State) : State :=
  { s with pending := program.filterMap (Transaction.fromHost base) }

/-- The transactions so that the very next step executes the command word: a write of it to `CMD`, before the others. -/
def commandFirst (w : Word) (pending : List Transaction) : List Transaction := .write 0x000 4 w :: pending

end Sys2Proof.Machine
end

