-- ==== Sys2Proof/Machine/Step.lean ====
section
/-! DEFINITION. The step of the machine: "Every step of the machine is a host transaction (and the command it may carry)"
(20_memory.md R55). -/

namespace Sys2Proof.Machine

/-- One step (20_memory.md R55). -/
def step (s : State) : Host.Outcome State Fault Refusal := nextTransaction s

/-- The block fetches nothing (10_state.md R31): a command arrives in a host write to `CMD`. So the command word is put
in front of the pending transactions as that write; a recorded fault, under which the write would be dropped
(60_exceptions.md R176), is cleared as `CTRL.CLRF` clears it (R177). Log 3. -/
def State.withFetchWord (s : State) (nbits w : Nat) : State :=
  let ready := if s.status.fault then s.clearFault else s
  { ready with pending := commandFirst (BitVec.ofNat 32 (w % 2 ^ nbits)) s.pending }

end Sys2Proof.Machine
end

