-- ==== Sys2Proof/Safety.lean ====
section
/-! DEFINITION. What claims are stated in: the invariant of the block's states, a clean run, the operands of a command,
the premise on the modulus, and the order of checks in the words of 60_exceptions.md R173. -/

namespace Sys2Proof

/-! ### The operands of a command, as the encoding has them -/

/-- The register files an operand can be of (30_encoding.md R62). -/
inductive RegFile where
  | F
  | E
  | PT
  deriving DecidableEq, Repr

/-- A register: a file and an index. -/
structure Register where
  file : RegFile
  index : Nat
  deriving DecidableEq, Repr

/-- The register a command writes (30_encoding.md R62, column `rd`). -/
def Instr.destination : Instr → Register
  | .finv d _ => ⟨.F, d⟩
  | .fmul d _ _ => ⟨.F, d⟩
  | .mmul d _ _ => ⟨.F, d⟩
  | .fsqr d _ => ⟨.F, d⟩
  | .fred d _ => ⟨.F, d⟩
  | .fadd d _ _ => ⟨.F, d⟩
  | .fsub d _ _ => ⟨.F, d⟩
  | .fdbl d _ => ⟨.F, d⟩
  | .fneg d _ => ⟨.F, d⟩
  | .mulx d _ _ => ⟨.E, d⟩
  | .subx d _ _ => ⟨.E, d⟩
  | .padd d _ _ => ⟨.PT, d⟩
  | .pdbl d _ => ⟨.PT, d⟩
  | .pneg d _ => ⟨.PT, d⟩
  | .psub d _ _ => ⟨.PT, d⟩
  | .ptpl d _ => ⟨.PT, d⟩
  | .pdbladd d _ _ => ⟨.PT, d⟩

/-- The source operands of a command in order, `rs1` then `rs2` (30_encoding.md R62, 60_exceptions.md R173). -/
def Instr.sources : Instr → List Register
  | .finv _ a => [⟨.F, a⟩]
  | .fmul _ a b => [⟨.F, a⟩, ⟨.F, b⟩]
  | .mmul _ a b => [⟨.F, a⟩, ⟨.F, b⟩]
  | .fsqr _ a => [⟨.F, a⟩]
  | .fred _ a => [⟨.E, a⟩]
  | .fadd _ a b => [⟨.F, a⟩, ⟨.F, b⟩]
  | .fsub _ a b => [⟨.F, a⟩, ⟨.F, b⟩]
  | .fdbl _ a => [⟨.F, a⟩]
  | .fneg _ a => [⟨.F, a⟩]
  | .mulx _ a b => [⟨.F, a⟩, ⟨.F, b⟩]
  | .subx _ a b => [⟨.E, a⟩, ⟨.E, b⟩]
  | .padd _ a b => [⟨.PT, a⟩, ⟨.PT, b⟩]
  | .pdbl _ a => [⟨.PT, a⟩]
  | .pneg _ a => [⟨.PT, a⟩]
  | .psub _ a b => [⟨.PT, a⟩, ⟨.PT, b⟩]
  | .ptpl _ a => [⟨.PT, a⟩]
  | .pdbladd _ a b => [⟨.PT, a⟩, ⟨.PT, b⟩]

/-- The opcode, `match` and `mask` of a command's row, `match` and `mask` as 30_encoding.md R64 prints them. -/
def Instr.row : Instr → Nat × Word × Word
  | .finv _ _ => (0x10, 0x10000000, 0xFF00FFFF)
  | .fmul _ _ _ => (0x20, 0x20000000, 0xFF000FFF)
  | .mmul _ _ _ => (0x21, 0x21000000, 0xFF000FFF)
  | .fsqr _ _ => (0x22, 0x22000000, 0xFF00FFFF)
  | .fred _ _ => (0x23, 0x23000000, 0xFF00FFFF)
  | .fadd _ _ _ => (0x24, 0x24000000, 0xFF000FFF)
  | .fsub _ _ _ => (0x25, 0x25000000, 0xFF000FFF)
  | .fdbl _ _ => (0x26, 0x26000000, 0xFF00FFFF)
  | .fneg _ _ => (0x27, 0x27000000, 0xFF00FFFF)
  | .mulx _ _ _ => (0x28, 0x28000000, 0xFF000FFF)
  | .subx _ _ _ => (0x29, 0x29000000, 0xFF000FFF)
  | .padd _ _ _ => (0x30, 0x30000000, 0xFF000FFF)
  | .pdbl _ _ => (0x31, 0x31000000, 0xFF00FFFF)
  | .pneg _ _ => (0x32, 0x32000000, 0xFF00FFFF)
  | .psub _ _ _ => (0x33, 0x33000000, 0xFF000FFF)
  | .ptpl _ _ => (0x34, 0x34000000, 0xFF00FFFF)
  | .pdbladd _ _ _ => (0x35, 0x35000000, 0xFF000FFF)

/-- The command has the operands `rd`, `rs1`, `rs2` of the word `w` (30_encoding.md R61): bits 23:20, 19:16, 15:12. -/
def Instr.hasOperandsOf (i : Instr) (w : Word) : Prop :=
  i.destination.index = bits w 23 20 ∧
    i.sources.map Register.index = [bits w 19 16, bits w 15 12].take i.sources.length

/-- The same command with another destination. -/
def Instr.withDestination (d : RegIndex) : Instr → Instr
  | .finv _ a => .finv d a
  | .fmul _ a b => .fmul d a b
  | .mmul _ a b => .mmul d a b
  | .fsqr _ a => .fsqr d a
  | .fred _ a => .fred d a
  | .fadd _ a b => .fadd d a b
  | .fsub _ a b => .fsub d a b
  | .fdbl _ a => .fdbl d a
  | .fneg _ a => .fneg d a
  | .mulx _ a b => .mulx d a b
  | .subx _ a b => .subx d a b
  | .padd _ a b => .padd d a b
  | .pdbl _ a => .pdbl d a
  | .pneg _ a => .pneg d a
  | .psub _ a b => .psub d a b
  | .ptpl _ a => .ptpl d a
  | .pdbladd _ a b => .pdbladd d a b

/-! ### Illegal words, in the words of 30_encoding.md R66, without the decoder -/

/-- The number of registers of a file (10_state.md R20): an index is legal when it is below it (30_encoding.md R62). -/
def RegFile.size : RegFile → Nat
  | .F => 8
  | .E => 4
  | .PT => 4

/-- What 30_encoding.md R62 and R64 say of an opcode: the class of `rd` and the classes of the sources; `none` where the
map has no such opcode. A command with two sources is of format R3, one with one source of format R2. -/
def opcodeClasses : Nat → Option (RegFile × List RegFile)
  | 0x10 => some (.F, [.F])
  | 0x20 => some (.F, [.F, .F])
  | 0x21 => some (.F, [.F, .F])
  | 0x22 => some (.F, [.F])
  | 0x23 => some (.F, [.E])
  | 0x24 => some (.F, [.F, .F])
  | 0x25 => some (.F, [.F, .F])
  | 0x26 => some (.F, [.F])
  | 0x27 => some (.F, [.F])
  | 0x28 => some (.E, [.F, .F])
  | 0x29 => some (.E, [.E, .E])
  | 0x30 => some (.PT, [.PT, .PT])
  | 0x31 => some (.PT, [.PT])
  | 0x32 => some (.PT, [.PT])
  | 0x33 => some (.PT, [.PT, .PT])
  | 0x34 => some (.PT, [.PT])
  | 0x35 => some (.PT, [.PT, .PT])
  | _ => none

/-- The word is illegal (30_encoding.md R66): (a) its opcode is not in the map; (b) a bit the format marks zero is 1;
(c) an index is not legal for its file. -/
def illegalWord (w : Word) : Bool :=
  match opcodeClasses (bits w 31 24) with
  | none => true
  | some (rd, sources) =>
    decide (bits w (if sources.length = 2 then 11 else 15) 0 ≠ 0) || decide (rd.size ≤ bits w 23 20) ||
      sources[0]?.any (fun c => decide (c.size ≤ bits w 19 16)) ||
      sources[1]?.any (fun c => decide (c.size ≤ bits w 15 12))

namespace Machine

/-! ### The invariant of the block's states -/

/-- The arrays of a point register have `LEN` words (10_state.md R24). -/
abbrev PointReg.Shaped (len : Nat) (r : PointReg) : Prop := r.x.length = len ∧ r.y.length = len ∧ r.z.length = len

/-- The sizes of R20's table (10_state.md) and the bounds of `LEN` (00_scope.md R7). -/
abbrev State.Shaped (s : State) : Prop :=
  (1 ≤ s.len ∧ s.len ≤ Config.maxLen) ∧ s.p.length = s.len ∧ (∀ i : Fin 8, s.f[i].length = s.len) ∧
    (∀ i : Fin 4, s.e[i].length = 2 * s.len) ∧ ∀ i : Fin 4, s.pt[i].Shaped s.len

/-- The fault record is one that the block can hold: `CAUSE` and `FCMD` are 0 when `FAULT = 0` (10_state.md R29, R30);
when `FAULT = 1`, `DONE = 0`, the cause is one of 1 to 6 (60_exceptions.md R171), and `FCMD` is the word in `CMD`, since
no word is taken after the one that faulted (R174, R176). -/
abbrev State.RecordSound (s : State) : Prop :=
  (s.status.fault = false → s.status.cause = 0 ∧ s.fcmd = 0) ∧
    (s.status.fault = true →
      s.status.done = false ∧ 1 ≤ s.status.cause.toNat ∧ s.status.cause.toNat ≤ 6 ∧ s.fcmd = s.cmd)

/-- The invariant of the block's states. -/
abbrev State.Inv (s : State) : Prop := s.Shaped ∧ s.RecordSound

/-- A run that began with no answers and ended in `s` is clean (70_reset_and_hazards.md R201): no fault recorded at its
end and no transaction of it answered `ERR`. -/
abbrev State.Clean (s : State) : Prop := s.status.fault = false ∧ Answer.err ∉ s.answers

/-! ### The premise of every command -/

/-- Every word of `P` holds a value, and the modulus is the odd prime `p` (00_scope.md R8). -/
abbrev State.ModulusIs (s : State) (p : Nat) : Prop := valueOf s.p = some p ∧ p.Prime ∧ p ≠ 2

/-- The spec says something of a command executed in `s` (00_scope.md R8): `P` does not hold a value that is not an odd
prime. -/
abbrev State.ModulusAllowed (s : State) : Prop := ∀ p, valueOf s.p = some p → p.Prime ∧ p ≠ 2

/-! ### The address map, from the register to the offset -/

/-- The offset of a data word (20_memory.md R41). -/
def DataWord.offset : DataWord → Nat
  | .p j => 0x040 + 4 * j
  | .f i j => 0x100 + 0x40 * i + 4 * j
  | .e i j => 0x400 + 0x80 * i + 4 * j
  | .tag i => 0x800 + 0x100 * i
  | .x i j => 0x840 + 0x100 * i + 4 * j
  | .y i j => 0x880 + 0x100 * i + 4 * j
  | .z i j => 0x8C0 + 0x100 * i + 4 * j

/-- The word is one of the array's (20_memory.md R41, column "index ranges"). -/
abbrev DataWord.Exists (len : Nat) : DataWord → Prop
  | .p j => j < len
  | .f _ j => j < len
  | .e _ j => j < 2 * len
  | .tag _ => True
  | .x _ j => j < len
  | .y _ j => j < len
  | .z _ j => j < len

/-- The offset of everything the window has (20_memory.md R41). -/
def Target.offset : Target → Nat
  | .cmd => 0x000
  | .status => 0x004
  | .ctrl => 0x008
  | .config => 0x00C
  | .fcmd => 0x010
  | .data d => d.offset

/-- What a block built with `LEN = len` has (20_memory.md R41). -/
abbrev Target.Exists (len : Nat) : Target → Prop
  | .cmd => True
  | .status => True
  | .ctrl => True
  | .config => True
  | .fcmd => True
  | .data d => d.Exists len

/-! ### The window in the host's address space -/

/-- The address of a transaction. -/
def Transaction.addr : Transaction → Nat
  | .read addr _ => addr
  | .write addr _ _ => addr

/-- A transaction of the block, at its offset, as a host issues it to a window at `base` (20_memory.md R40, R43). -/
def Transaction.toHost (base : Nat) : Transaction → Transaction
  | .read offset size => .read (base + offset) size
  | .write offset size w => .write (base + offset) size w

/-! ### Registers and data words -/

/-- The register `r` of `s` holds what the register `q` of `t` holds. -/
def State.SameContents (s : State) (r : Register) (t : State) (q : Register) : Prop :=
  match r.file with
  | .F => s.f[r.index]? = t.f[q.index]?
  | .E => s.e[r.index]? = t.e[q.index]?
  | .PT => s.pt[r.index]? = t.pt[q.index]?

/-- The register a data word is part of; the words of `P` are part of no operand. -/
def DataWord.register? : DataWord → Option Register
  | .p _ => none
  | .f i _ => some ⟨.F, i⟩
  | .e i _ => some ⟨.E, i⟩
  | .tag i => some ⟨.PT, i⟩
  | .x i _ => some ⟨.PT, i⟩
  | .y i _ => some ⟨.PT, i⟩
  | .z i _ => some ⟨.PT, i⟩

/-- Word `j` of the array of the integer `v`, by its weight `2^(32*j)` (00_scope.md R9, 20_memory.md R44). -/
abbrev wordOf (v j : Nat) : Word := BitVec.ofNat 32 (v / 2 ^ (32 * j))

/-! ### The checks of 60_exceptions.md R173, in R173's words -/

/-- The coordinate arrays the state of a tag has (60_exceptions.md R173, step 3: "`X`, `Y` (Affine) or `X`, `Y`, `Z`
(Jacobian)"). -/
def PointReg.coordinates (r : PointReg) (state : Nat) : List (List (Option Word)) :=
  if state = 1 then [r.x, r.y] else if state = 2 then [r.x, r.y, r.z] else []

/-- Step 3 of R173 for a point register. -/
def PointReg.unheld (r : PointReg) : Option Cause :=
  match r.tag with
  | none => some .uninit
  | some t =>
    if t.toNat % 4 = 3 then some .badTag
    else if (r.coordinates (t.toNat % 4)).any fun a => (valueOf a).isNone then some .uninit
    else none

/-- Step 4 of R173 for a point register: some coordinate its state has is not `< p`. -/
def PointReg.outOfRange (p : Nat) (r : PointReg) : Bool :=
  match r.tag with
  | none => false
  | some t => (r.coordinates (t.toNat % 4)).any fun a => (valueOf a).any fun v => decide (p ≤ v)

/-- Step 3 of R173 for one source operand. -/
def State.unheld (s : State) (r : Register) : Option Cause :=
  match r.file with
  | .F => if (s.f[r.index]?.bind valueOf).isNone then some .uninit else none
  | .E => if (s.e[r.index]?.bind valueOf).isNone then some .uninit else none
  | .PT => s.pt[r.index]?.bind PointReg.unheld

/-- Step 4 of R173 for one source operand. -/
def State.outOfRange (s : State) (p : Nat) (r : Register) : Bool :=
  match r.file with
  | .F => (s.f[r.index]?.bind valueOf).any fun v => decide (p ≤ v)
  | .E => (s.e[r.index]?.bind valueOf).any fun v => decide (p ^ 2 ≤ v)
  | .PT => s.pt[r.index]?.any (PointReg.outOfRange p)

/-- Step 5 of R173: FINV of a field register that holds 0. -/
def State.invertsZero (s : State) : Instr → Bool
  | .finv _ a => s.f[a]?.bind valueOf = some 0
  | _ => false

/-- The cause the first failing check of steps 2 to 5 of R173 decides for a legal command, if one fails. -/
def State.firstFailedCheck (s : State) (i : Instr) : Option Cause :=
  match valueOf s.p with
  | none => some .uninit
  | some p =>
    match i.sources.findSome? s.unheld with
    | some c => some c
    | none =>
      if i.sources.any (s.outOfRange p) then some .operandRange
      else if s.invertsZero i then some .invZero
      else none

/-- What the fault clause of a command's rule says ("on a fault the destination is unchanged", 41_field_ops.md R100,
42_point_ops.md R130): a check of R173 that fails decides one of the causes named, and fault entry (R174) is all that
happens. -/
abbrev State.FaultsOnlyWith (s : State) (i : Instr) (causes : List Cause) : Prop :=
  s.ModulusAllowed → ∀ c, s.firstFailedCheck i = some c →
    c ∈ causes ∧
      exec i s = .next { s with status := { done := false, fault := true, cause := causeCode c }, fcmd := s.cmd }

/-- A register holds a value that a command may read (00_scope.md R10, R11; 10_state.md R25). -/
def State.HoldsInRange (s : State) (p : Nat) (r : Register) : Prop :=
  match r.file with
  | .F => ∃ v, s.f[r.index]?.bind valueOf = some v ∧ v < p
  | .E => ∃ v, s.e[r.index]?.bind valueOf = some v ∧ v < p ^ 2
  | .PT => ∃ q, s.pt[r.index]?.map logicalPoint = some (.ok q) ∧ q.reduced p = true

/-! ### The working values of the inversion (40_modular_inversion.md R82, R87) -/

/-- The signed value a pair `(t, tc)` stands for (40_modular_inversion.md R82): `val(t) + tc * 2^N`. -/
def signedValue (len t : Nat) (tc : Int) : Int := t + tc * 2 ^ (32 * len)

/-- A correction counter's legal values (40_modular_inversion.md R82, R90). -/
abbrev LegalCounter (tc : Int) : Prop := tc = 0 ∨ tc = -1

/-- R87 at the head of a loop iteration, for the pairs `(u, a)`, `(v, b)` with `A` and `B` the signed values: (i), (ii), (iv)
as R87 has them, and for (iii) the half of its bound, which is what every turn keeps and from which (iii) follows. -/
structure InversionInvariant (len p x u a : Nat) (ac : Int) (v b : Nat) (bc : Int) : Prop where
  /-- All four are `LEN`-word arrays (R82). -/
  words : u < wordsBound len ∧ a < wordsBound len ∧ v < wordsBound len ∧ b < wordsBound len
  /-- (i) `A * x ≡ u` and `B * x ≡ v (mod p)`. -/
  congruences : signedValue len a ac * x ≡ u [ZMOD p] ∧ signedValue len b bc * x ≡ v [ZMOD p]
  /-- (ii) `u` and `v` are odd, so not 0, and coprime. -/
  oddCoprime : u % 2 = 1 ∧ v % 2 = 1 ∧ Nat.Coprime u v
  /-- (iii) `-p < 2A < p` and `-p < 2B < p`. -/
  ranges : (-(p : Int) < 2 * signedValue len a ac ∧ 2 * signedValue len a ac < p) ∧
    -(p : Int) < 2 * signedValue len b bc ∧ 2 * signedValue len b bc < p
  /-- (iv) the counters are 0 or -1. -/
  counters : LegalCounter ac ∧ LegalCounter bc

/-! ### Logical points as residues -/

/-- The point without its compression-preference flag (42_point_ops.md R131). -/
def Point.withFlag (c : Bool) : Point → Point
  | .infinity _ => .infinity c
  | .affine _ x y => .affine c x y
  | .jacobian _ x y z => .jacobian c x y z

/-- `Jacobian(c, X, Y, 1)` for `Affine(c, X, Y)` (42_point_ops.md R146). -/
def Point.withStoredZ : Point → Point
  | .infinity c => .infinity c
  | .affine c x y => .jacobian c x y 1
  | .jacobian c x y z => .jacobian c x y z

/-- Equality of points as group elements (42_point_ops.md R147). -/
def Point.SamePoint (p : Nat) (a b : Point) : Prop :=
  (a.isInfinity = true ∧ b.isInfinity = true) ∨
    (a.isInfinity = false ∧ b.isInfinity = false ∧
      (a.xCoord : ZMod p) * b.zEff ^ 2 = b.xCoord * a.zEff ^ 2 ∧
      (a.yCoord : ZMod p) * b.zEff ^ 3 = b.yCoord * a.zEff ^ 3)

/-- The curve `y^2 = x^3 + b` over the integers modulo `p` (42_point_ops.md R148; 00_scope.md R7: `a = 0`). -/
abbrev curve (p : Nat) (b : ZMod p) : WeierstrassCurve.Affine (ZMod p) :=
  { a₁ := 0, a₂ := 0, a₃ := 0, a₄ := 0, a₆ := b }

/-- The logical point `pt` represents the element `g` of the curve's group: Infinity the identity, any other point the
affine point `(X/Z^2, Y/Z^3)` (00_scope.md section 8, "Jacobian coordinates"), with `Z` not 0. -/
def Point.Represents {p : Nat} {b : ZMod p} (pt : Point) : (curve p b).Point → Prop
  | .zero => pt.isInfinity = true
  | .some x y _ =>
    pt.isInfinity = false ∧ (pt.zEff : ZMod p) ≠ 0 ∧ x * pt.zEff ^ 2 = pt.xCoord ∧ y * pt.zEff ^ 3 = pt.yCoord

end Machine

end Sys2Proof
end

