-- ==== Sys2Proof/Certificates/Slice0/Obligations.lean ====
section
/-! DEFINITION. The statements for the provers, in the order of OBLIGATIONS.json. A docstring names the rule of spec/ the
statement formalises, and the log entry where it rests on one. -/

open Sys2Proof Sys2Proof.Machine

/-! ### Encoding -/

/-- 30_encoding.md R61, R64, R65: no bit of an encoding is dropped. -/
def Obligations.DecodeOfEncodeIsTheCommand : Prop := ∀ i : Instr, i.wf = true → decode (encode i) = .ok i

/-- 30_encoding.md R64: "`match` and `mask` are such that a word `w` is the command exactly when `(w & mask) = match` and
the register indexes are legal". -/
def Obligations.WordIsCommandIffRowMatches : Prop :=
  ∀ (w : Word) (i : Instr),
    (decode w = .ok i ↔ w &&& i.row.2.2 = i.row.2.1 ∧ i.hasOperandsOf w ∧ i.wf = true) ∧
      (w &&& i.row.2.2 = i.row.2.1 → bits w 31 24 = i.row.1)

/-- 30_encoding.md R65, which the spec derives from R61 and R64: how a command word is built, and R65's own examples read by
the decoder. -/
def Obligations.CommandWordIsTheSumOfItsFields : Prop :=
  (∀ i : Instr, encode i =
    BitVec.ofNat 32 (i.row.1 * 2 ^ 24 + i.destination.index * 2 ^ 20 +
      (i.sources.map Register.index)[0]?.getD 0 * 2 ^ 16 + (i.sources.map Register.index)[1]?.getD 0 * 2 ^ 12)) ∧
    decode 0x20201000 = .ok (.fmul 2 0 1) ∧ decode 0x10320000 = .ok (.finv 3 2) ∧
    decode 0x30201000 = .ok (.padd 2 0 1) ∧ decode 0x31100000 = .ok (.pdbl 1 0) ∧
    decode 0x28145000 = .ok (.mulx 1 4 5) ∧ decode 0x23730000 = .ok (.fred 7 3)

/-- 30_encoding.md R66, R67: a word is illegal in R66's three cases and no other, whatever the registers hold; every other
word is one of the 17 commands and is executed. -/
def Obligations.EveryWordIsACommandOrIllegal : Prop :=
  ∀ (s : State) (w : Word) (rest : List Transaction),
    s.pending = .write 0x000 4 w :: rest → s.status.fault = false →
      (illegalWord w = true →
        step s = .next { s with
          pending := rest, answers := .ok :: s.answers, cmd := w, fcmd := w,
          status := { done := false, fault := true, cause := 1 } }) ∧
      (illegalWord w = false →
        ∃ i : Instr, i.wf = true ∧ encode i = w ∧
          step s = exec i { s with pending := rest, answers := .ok :: s.answers, cmd := w })

/-! ### Steps: transactions of the host -/

/-- 10_state.md R28, 30_encoding.md R72: a command word written to `CMD` while no fault is recorded is stored there and
executed before the write completes. -/
def Obligations.StepRunsTheDecodedCommand : Prop :=
  ∀ (s : State) (w : Word) (rest : List Transaction) (i : Instr),
    s.pending = .write 0x000 4 w :: rest → s.status.fault = false → decode w = .ok i →
      step s = exec i { s with pending := rest, answers := .ok :: s.answers, cmd := w }

/-- 20_memory.md R55: with no transaction nothing happens, and every other step is one transaction, which the bus answers
once (R40). -/
def Obligations.EveryStepIsOneTransaction : Prop :=
  ∀ s : State,
    (s.pending = [] → step s = .next s) ∧
      ∀ (tx : Transaction) (rest : List Transaction) (t : State),
        s.pending = tx :: rest → step s = .next t → t.pending = rest ∧ ∃ a, t.answers = a :: s.answers

/-- 20_memory.md R41, R42, R48: the whole map and the outcome of a read and of a write of everything in it, and `ERR` for
every access that is not an aligned 4-byte access to something in the map. A write to `CMD` has the effect of 10_state.md R28,
one to `CTRL` that of R30 (spelt out in `CtrlStrobes`), one to a data word that of R38 and R39 (spelt out in
`DataWordWriteSetsThatWordOnly`). -/
def Obligations.TransactionOutcomes : Prop :=
  ∀ (s : State) (rest : List Transaction), s.len ≤ 16 →
    (∀ tgt : Target, tgt.Exists s.len → s.pending = .read tgt.offset 4 :: rest →
      step s = .next { s with
        pending := rest
        answers :=
          (match tgt with
          | .cmd => .word s.cmd
          | .status => .word (statusWord s.status)
          | .ctrl => .word 0
          | .config => .word (configWord s.len)
          | .fcmd => .word s.fcmd
          | .data d =>
            match s.dataWord d with
            | some v => .word v
            | none => .err) :: s.answers }) ∧
    (∀ (tgt : Target) (w : Word), tgt.Exists s.len → s.pending = .write tgt.offset 4 w :: rest →
      match tgt with
      | .cmd =>
        (∀ t, step s = .next t → t.answers = .ok :: s.answers) ∧
          (s.status.fault = true → step s = .next { s with pending := rest, answers := .ok :: s.answers }) ∧
          (s.status.fault = false → ∀ i, decode w = .ok i →
            step s = exec i { s with pending := rest, answers := .ok :: s.answers, cmd := w }) ∧
          (s.status.fault = false → (∀ i, decode w ≠ .ok i) →
            step s = .next { s with
              pending := rest, answers := .ok :: s.answers, cmd := w, fcmd := w,
              status := { done := false, fault := true, cause := 1 } })
      | .ctrl => step s = .next (Machine.control w { s with pending := rest, answers := .ok :: s.answers })
      | .data d =>
        step s = .next ({ s with pending := rest, answers := .ok :: s.answers }.setDataWord d w) ∧
          (s.Shaped → ({ s with pending := rest, answers := .ok :: s.answers }.setDataWord d w).dataWord d ≠ none)
      | .status => step s = .next { s with pending := rest, answers := .err :: s.answers }
      | .config => step s = .next { s with pending := rest, answers := .err :: s.answers }
      | .fcmd => step s = .next { s with pending := rest, answers := .err :: s.answers }) ∧
    ∀ (addr size : Nat) (w : Word), (∀ tgt : Target, tgt.Exists s.len → ¬(size = 4 ∧ addr = tgt.offset)) →
      s.pending = .read addr size :: rest ∨ s.pending = .write addr size w :: rest →
        step s = .next { s with pending := rest, answers := .err :: s.answers }

/-- 10_state.md R38, R39: a host write to a word of `P`, `F`, `E` or a coordinate sets that one word, a write to a tag stores
its bits 2:0; it then holds a value, nothing is checked, and no other word and no other register changes. -/
def Obligations.DataWordWriteSetsThatWordOnly : Prop :=
  ∀ (s : State) (d : DataWord) (w : Word) (rest : List Transaction),
    s.Shaped → d.Exists s.len → s.pending = .write d.offset 4 w :: rest →
      ∃ t, step s = .next t ∧
        t.dataWord d = some (match d with | .tag _ => w &&& 7 | _ => w) ∧
        (∀ d', d' ≠ d → t.dataWord d' = s.dataWord d') ∧
        t.len = s.len ∧ t.cmd = s.cmd ∧ t.status = s.status ∧ t.fcmd = s.fcmd ∧
        t.pending = rest ∧ t.answers = .ok :: s.answers

/-- 60_exceptions.md R180: a transaction that returns `ERR` changes nothing in the block. -/
def Obligations.ErrChangesNothing : Prop :=
  ∀ (s t : State) (answers : List Answer), step s = .next t → s.pending ≠ [] → t.answers = .err :: answers →
    answers = s.answers ∧ t = { s with pending := s.pending.tail, answers := .err :: s.answers }

/-- 10_state.md R30: the strobes of `CTRL`; `SRST` wins, a bit written 0 has no effect, bits 31:2 are ignored. -/
def Obligations.CtrlStrobes : Prop :=
  ∀ (s : State) (w : Word) (rest : List Transaction), s.pending = .write 0x008 4 w :: rest →
    step s = .next
      (if w.getLsbD 1 then { State.resetFor s.len with pending := rest, answers := .ok :: s.answers }
      else if w.getLsbD 0 then
        { s with
          status := { s.status with fault := false, cause := 0 }, fcmd := 0,
          pending := rest, answers := .ok :: s.answers }
      else { s with pending := rest, answers := .ok :: s.answers })

/-- 10_state.md R35, 70_reset_and_hazards.md R190, R191: after a reset no data word and no tag holds a value, `CMD`, `STATUS`
and `FCMD` are 0 and `CONFIG` is as it was. The three resets are the state the machine begins in, a hardware reset, and a
write of `CTRL` with bit 1 set. -/
def Obligations.ResetsLeaveNoValueHeld : Prop :=
  ∀ (s t : State) (w : Word) (rest : List Transaction),
    t = State.resetFor s.len ∨ t = s.hardReset ∨
        (s.pending = .write 0x008 4 w :: rest ∧ w.getLsbD 1 = true ∧ step s = .next t) →
      (∀ d, t.dataWord d = none) ∧ t.cmd = 0 ∧ t.status = { done := false, fault := false, cause := 0 } ∧
        statusWord t.status = 0 ∧ t.fcmd = 0 ∧ configWord t.len = configWord s.len

/-- 10_state.md R29: the fields of the words a host reads at `STATUS` and at `CONFIG`. -/
def Obligations.StatusAndConfigFields : Prop :=
  (∀ st : Status, bits (statusWord st) 0 0 = st.done.toNat ∧ bits (statusWord st) 1 1 = st.fault.toNat ∧
    bits (statusWord st) 3 2 = 0 ∧ bits (statusWord st) 7 4 = st.cause.toNat ∧ bits (statusWord st) 31 8 = 0) ∧
    ∀ len, len ≤ 16 → bits (configWord len) 7 0 = len ∧ bits (configWord len) 11 8 = 8 ∧
      bits (configWord len) 15 12 = 4 ∧ bits (configWord len) 19 16 = 4 ∧ bits (configWord len) 31 20 = 0

/-! ### Faults -/

/-- 60_exceptions.md R174, R175: a command that faults changes `STATUS` and `FCMD` as fault entry says, and nothing else
besides the `CMD` that already holds its word; the write completes with `OK`. The codes are those of R171. -/
def Obligations.FaultEntryIsExactAndPrecise : Prop :=
  (∀ (s t : State) (w : Word) (rest : List Transaction),
    s.pending = .write 0x000 4 w :: rest → s.status.fault = false → step s = .next t → t.status.fault = true →
      ∃ c, t = { s with
        pending := rest, answers := .ok :: s.answers, cmd := w, fcmd := w,
        status := { done := false, fault := true, cause := causeCode c } }) ∧
    causeCode .illegalCmd = 1 ∧ causeCode .uninit = 2 ∧ causeCode .badTag = 3 ∧ causeCode .operandRange = 4 ∧
    causeCode .invZero = 5 ∧ causeCode .internal = 6

/-- 60_exceptions.md R173, steps 2 to 5: the first check that fails decides the cause, for every command in every state whose
modulus the spec allows. Step 1 is `EveryWordIsACommandOrIllegal`; step 6 is `InternalIsNeverRecorded`. -/
def Obligations.FirstFailedCheckDecidesTheCause : Prop :=
  ∀ (s : State) (i : Instr) (c : Cause), i.wf = true → s.ModulusAllowed → s.firstFailedCheck i = some c →
    exec i s = .next { s with status := { done := false, fault := true, cause := causeCode c }, fcmd := s.cmd }

/-- 30_encoding.md R62, R66 (c), 60_exceptions.md R173, step 1, by the model's choice of log 5: a command as syntax that has
an index its file does not have raises `ILLEGAL_CMD`, before any other check. -/
def Obligations.IllFormedCommandRaisesIllegalCmd : Prop :=
  ∀ (s : State) (i : Instr), i.wf = false →
    exec i s = .next { s with status := { done := false, fault := true, cause := 1 }, fcmd := s.cmd }

/-- 60_exceptions.md R176: while a fault is recorded a write to `CMD` is answered `OK` and changes nothing, the record is kept
by every step but a write to `CTRL` with bit 0 or bit 1 set, and data words, `STATUS`, `FCMD` and `CTRL` are accessed as
usual. -/
def Obligations.FaultRecordIsStickyAndDropsCommands : Prop :=
  ∀ s : State, s.status.fault = true →
    (∀ (w : Word) (rest : List Transaction), s.pending = .write 0x000 4 w :: rest →
      step s = .next { s with pending := rest, answers := .ok :: s.answers }) ∧
    (∀ t, step s = .next t →
      (t.status = s.status ∧ t.fcmd = s.fcmd ∧ t.cmd = s.cmd) ∨
        ∃ w rest, s.pending = .write 0x008 4 w :: rest ∧ (w.getLsbD 0 = true ∨ w.getLsbD 1 = true)) ∧
    (s.len ≤ 16 → ∀ (d : DataWord) (v w : Word) (rest : List Transaction), d.Exists s.len →
      (s.pending = .read d.offset 4 :: rest → s.dataWord d = some v →
        step s = .next { s with pending := rest, answers := .word v :: s.answers }) ∧
      (s.pending = .write d.offset 4 w :: rest →
        step s = .next ({ s with pending := rest, answers := .ok :: s.answers }.setDataWord d w))) ∧
    ∀ rest : List Transaction,
      (s.pending = .read 0x004 4 :: rest →
        step s = .next { s with pending := rest, answers := .word (statusWord s.status) :: s.answers }) ∧
      (s.pending = .read 0x010 4 :: rest →
        step s = .next { s with pending := rest, answers := .word s.fcmd :: s.answers }) ∧
      ∀ w : Word, s.pending = .write 0x008 4 w :: rest →
        step s = .next (Machine.control w { s with pending := rest, answers := .ok :: s.answers })

/-- 60_exceptions.md R177: `CTRL.CLRF` clears the record and leaves `DONE` (which is 0), `CMD` and all data registers; the next
write to `CMD` is executed; a reset clears the record along with everything else; the record that is kept is never
overwritten by a second fault. -/
def Obligations.ClearingTheFaultRecord : Prop :=
  ∀ (s : State) (w c : Word) (rest : List Transaction), s.RecordSound → s.status.fault = true →
    (s.pending = .write 0x008 4 w :: .write 0x000 4 c :: rest → w.getLsbD 0 = true → w.getLsbD 1 = false →
      ∃ t, step s = .next t ∧
        t = { s with
          status := { done := false, fault := false, cause := 0 }, fcmd := 0,
          pending := .write 0x000 4 c :: rest, answers := .ok :: s.answers } ∧
        (∀ i, decode c = .ok i →
          step t = exec i { t with pending := rest, answers := .ok :: t.answers, cmd := c }) ∧
        ((∀ i, decode c ≠ .ok i) →
          step t = .next { t with
            pending := rest, answers := .ok :: t.answers, cmd := c, fcmd := c,
            status := { done := false, fault := true, cause := 1 } })) ∧
    (∀ t, t = s.softReset ∨ t = s.hardReset →
      t.status = { done := false, fault := false, cause := 0 } ∧ t.fcmd = 0 ∧ t.cmd = 0 ∧ ∀ d, t.dataWord d = none) ∧
    (s.pending = .write 0x000 4 c :: rest →
      step s = .next { s with pending := rest, answers := .ok :: s.answers })

/-- 00_scope.md R8, 40_modular_inversion.md R91, by the model's choice of log 4 (U1 of 93_implementation_defined.md: `refuse`):
a legal command is refused exactly when `P` holds a value that is not an odd prime. -/
def Obligations.RefusedExactlyUnderABadModulus : Prop :=
  ∀ (s : State) (i : Instr), i.wf = true →
    ((∃ v, valueOf s.p = some v ∧ ¬(v.Prime ∧ v ≠ 2)) ↔ exec i s = .refused .modulusNotOddPrime) ∧
      ∀ r, exec i s = .refused r → r = .modulusNotOddPrime

/-- 40_modular_inversion.md R88, R90, 60_exceptions.md R183 (which the spec derives from R87), 70_reset_and_hazards.md R200: in
every state of the block whose modulus the spec allows the machine goes on. -/
def Obligations.EveryStepAnswersANextState : Prop := ∀ s : State, s.Shaped → s.ModulusAllowed → ∃ t, step s = .next t

/-- 60_exceptions.md R183, which the spec derives from 40_modular_inversion.md R87: no step records cause 6. -/
def Obligations.InternalIsNeverRecorded : Prop :=
  ∀ s t : State, s.Shaped → step s = .next t → s.status.cause ≠ 6 → t.status.cause ≠ 6

/-! ### Invariants -/

/-- The invariant (10_state.md R20, R29, R30) holds right after reset, for every `LEN` of 00_scope.md R7. -/
def Obligations.ResetMeetsTheInvariant : Prop :=
  State.reset.Inv ∧ ∀ len, 1 ≤ len → len ≤ 16 → (State.resetFor len).Inv

/-- Every step keeps the invariant: the sizes of 10_state.md R20, and of the fault record what R29, R30 and 60_exceptions.md
R171, R174, R176 say of it. -/
def Obligations.EveryStepKeepsTheInvariant : Prop := ∀ s t : State, s.Inv → step s = .next t → t.Inv

/-! ### What a command changes and what it depends on -/

/-- The frame of every command (10_state.md R27, R33; 41_field_ops.md R100; 42_point_ops.md R130): every data word outside the
destination register, `P`, `CMD` and the host's lists stay, every offset of the window reads as before but those of the
destination, `STATUS` and `FCMD`; of `STATUS` and `FCMD` a command that completes changes `DONE` only, and one that faults
changes nothing but them. -/
def Obligations.CommandsChangeTheirDestinationOnly : Prop :=
  ∀ (i : Instr) (s t : State), exec i s = .next t →
    (t.len = s.len ∧ t.p = s.p ∧ t.cmd = s.cmd ∧ t.pending = s.pending ∧ t.answers = s.answers) ∧
    (∀ d, d.register? ≠ some i.destination → t.dataWord d = s.dataWord d) ∧
    (∀ addr size, addr ≠ 0x004 → addr ≠ 0x010 →
      (∀ d, access s.len addr size = some (.data d) → d.register? ≠ some i.destination) →
        memRead t addr size = memRead s addr size) ∧
    ((t.status = { s.status with done := true } ∧ t.fcmd = s.fcmd) ∨
      ∃ c, t = { s with status := { done := false, fault := true, cause := causeCode c }, fcmd := s.cmd })

/-- 10_state.md R20 ("written by"), R21: over all steps, a data word changes only by a host write to it, by a command whose
destination it is part of, or by a soft reset; `CMD`, `STATUS` and `FCMD` only by a write to `CMD` or `CTRL`; `LEN` never. -/
def Obligations.OnlyTheseEventsChangeAWord : Prop :=
  ∀ s t : State, s.Shaped → step s = .next t →
    t.len = s.len ∧
    (∀ d, t.dataWord d ≠ s.dataWord d →
      (∃ w rest i, s.pending = .write 0x000 4 w :: rest ∧ s.status.fault = false ∧ decode w = .ok i ∧
        d.register? = some i.destination) ∨
      (∃ w rest, s.pending = .write d.offset 4 w :: rest ∧ d.Exists s.len) ∨
      ∃ w rest, s.pending = .write 0x008 4 w :: rest ∧ w.getLsbD 1 = true) ∧
    (t.cmd ≠ s.cmd ∨ t.status ≠ s.status ∨ t.fcmd ≠ s.fcmd →
      ∃ addr w rest, s.pending = .write addr 4 w :: rest ∧ (addr = 0x000 ∨ addr = 0x008))

/-- 10_state.md R27: "A command's result depends only on the values its source registers hold when the command is issued and
on `P`" (and on `LEN`, which is fixed): whether it completes, what it leaves in its destination, which may be one of the
sources, and the cause it records. A source that is not the destination stays. -/
def Obligations.ResultDependsOnSourcesAndModulusOnly : Prop :=
  ∀ (i : Instr) (s₁ s₂ t₁ : State), s₁.len = s₂.len → s₁.p = s₂.p →
    (∀ r ∈ i.sources, s₁.SameContents r s₂ r) → exec i s₁ = .next t₁ →
      ∃ t₂, exec i s₂ = .next t₂ ∧ t₂.status.done = t₁.status.done ∧
        (t₁.status.done = true → t₁.SameContents i.destination t₂ i.destination) ∧
        (t₁.status.done = false → t₂.status = t₁.status) ∧
        ∀ r ∈ i.sources, r ≠ i.destination → t₁.SameContents r s₁ r

/-- 70_reset_and_hazards.md R193: a command leaves in its destination what it would leave in any other destination, so also in
one that is a source. -/
def Obligations.DestinationMayBeASource : Prop :=
  ∀ (i : Instr) (s t : State) (d : RegIndex), exec i s = .next t → t.status.done = true →
    (i.withDestination d).wf = true →
      ∃ u, exec (i.withDestination d) s = .next u ∧ u.status.done = true ∧
        t.SameContents i.destination u (i.withDestination d).destination

/-- 00_scope.md R11 (and 10_state.md R22, R23, R25): a command that completes has read reduced operands and has written a
reduced result: a field value and a coordinate `< p`, an extended value `< p^2`. -/
def Obligations.OperandsAndResultsAreReduced : Prop :=
  ∀ (i : Instr) (s t : State) (p : Nat), s.Shaped → s.ModulusIs p → exec i s = .next t → t.status.done = true →
    (∀ r ∈ i.sources, s.HoldsInRange p r) ∧ t.HoldsInRange p i.destination

/-- 41_field_ops.md R100, 42_point_ops.md R130, 70_reset_and_hazards.md R200: a legal command whose checks all pass completes
without a fault, in every state of the block. -/
def Obligations.CheckedCommandCompletes : Prop :=
  ∀ (i : Instr) (s : State) (p : Nat), s.Shaped → s.ModulusIs p → i.wf = true → s.firstFailedCheck i = none →
    ∃ t, exec i s = .next t ∧ t.status = { s.status with done := true } ∧ t.fcmd = s.fcmd

/-! ### The field commands -/

/-- 40_modular_inversion.md R80, R81: FINV writes the unique inverse in `[1, p - 1]`, which is what `invert` answers. How
`invert` reaches it is `InversionStartsAndEndsAsTheRulesSay` and `InversionTurnKeepsTheInvariant`. -/
def Obligations.FinvWritesTheInverse : Prop :=
  ∀ (s : State) (d a : Fin 8),
    encode (.finv d a) = BitVec.ofNat 32 (0x10000000 + d * 2 ^ 20 + a * 2 ^ 16) ∧
    s.FaultsOnlyWith (.finv d a) [.uninit, .operandRange, .invZero] ∧
    ∀ p x, s.Shaped → s.ModulusIs p → valueOf s.f[a] = some x →
      (x = 0 → s.firstFailedCheck (.finv d a) = some .invZero) ∧
      (0 < x → x < p →
        ∃ z, (1 ≤ z ∧ z ≤ p - 1 ∧ z * x % p = 1) ∧
          (∀ z', 1 ≤ z' → z' ≤ p - 1 → z' * x % p = 1 → z' = z) ∧ invert s.len p x = .ok z ∧
          exec (.finv d a) s = .next { s with
            f := s.f.set d (wordsOf s.len z), status := { s.status with done := true } })

/-- 00_scope.md R12 to R16: the contracts of the word-array primitives of the inversion, on the values of the arrays; the words
at index `n` and above are not touched by a shift over the low `n` words. -/
def Obligations.UtilityLayerMeetsItsContracts : Prop :=
  (∀ n x y, x < 2 ^ (32 * n) → y < 2 ^ (32 * n) →
    ((natAdd n x y).1 = (x + y) % 2 ^ (32 * n) ∧ (natAdd n x y).2 = if 2 ^ (32 * n) ≤ x + y then 1 else 0) ∧
    (((natSub n x y).1 : Int) = ((x : Int) - y) % 2 ^ (32 * n) ∧ (natSub n x y).2 = if x < y then -1 else 0) ∧
    (natGte x y = true ↔ y ≤ x) ∧ (natIsZero x = true ↔ x = 0) ∧ (natIsOne x = true ↔ x = 1)) ∧
  (∀ n x,
    natShiftDownWord n x % 2 ^ (32 * n) = x % 2 ^ (32 * n) / 2 ^ 32 ∧
    (∀ j, j + 1 < n → wordAt (natShiftDownWord n x) j = wordAt x (j + 1)) ∧
    (0 < n → wordAt (natShiftDownWord n x) (n - 1) = 0) ∧
    ∀ j, n ≤ j → wordAt (natShiftDownWord n x) j = wordAt x j) ∧
  (∀ n x k, 1 ≤ k → k ≤ 31 →
    natShiftDownBits n x k % 2 ^ (32 * n) = x % 2 ^ (32 * n) / 2 ^ k ∧
    ∀ j, n ≤ j → wordAt (natShiftDownBits n x k) j = wordAt x j) ∧
  ∀ w, 0 < w → w < 2 ^ 32 → ctz32 w ≤ 31 ∧ 2 ^ ctz32 w ∣ w ∧ ¬2 ^ (ctz32 w + 1) ∣ w

/-- 40_modular_inversion.md R82, R83: what `odd_reduce` does to `u` and to the signed value of `(t, tc)`: it makes `u` odd and
halves the value modulo `p` once for each bit shifted, and its counter test never fails on a value between `-p` and `p`. -/
def Obligations.OddReductionHalvesModuloP : Prop :=
  ∀ (len p u uLen t : Nat) (tc : Int), p % 2 = 1 → p < wordsBound len → 0 < u → u < wordsBound uLen →
    t < wordsBound len → LegalCounter tc → -(p : Int) < signedValue len t tc → signedValue len t tc < p →
      ∃ u' t' tc' count, oddReduce len p u uLen t tc = .ok (u', t', tc') ∧ u = u' * 2 ^ count ∧ u' % 2 = 1 ∧
        t' < wordsBound len ∧ LegalCounter tc' ∧
        2 ^ count * signedValue len t' tc' ≡ signedValue len t tc [ZMOD p] ∧
        -(p : Int) < signedValue len t' tc' ∧ signedValue len t' tc' < p

/-- 40_modular_inversion.md R84, R86, R87: the fast path, the initial odd-reduction, which establishes the invariant of R87,
the early test, and the finalisation, which turns the signed value of the side that reached 1 into the inverse. -/
def Obligations.InversionStartsAndEndsAsTheRulesSay : Prop :=
  ∀ len p x : Nat, p.Prime → p ≠ 2 → p < wordsBound len → 0 < x → x < p →
    (x = 1 → invert len p x = .ok 1) ∧
    (x ≠ 1 →
      ∃ u a ac, initialReduction len p x = .ok (u, a, ac) ∧ InversionInvariant len p x u a ac p 0 0 ∧
        (x % 2 = 1 → u = x ∧ a = 1 ∧ ac = 0) ∧
        invert len p x =
          if u = 1 then .ok (finalise len p a ac) else inversionLoop len p (64 * len) u a ac p 0 0 len) ∧
    ∀ (t : Nat) (tc : Int), t < wordsBound len → LegalCounter tc → -(p : Int) < signedValue len t tc →
      signedValue len t tc < p → signedValue len t tc * x ≡ 1 [ZMOD p] →
        (finalise len p t tc : Int) = (if tc < 0 then signedValue len t tc + p else signedValue len t tc) ∧
        1 ≤ finalise len p t tc ∧ finalise len p t tc ≤ p - 1 ∧ finalise len p t tc * x % p = 1

/-- 40_modular_inversion.md R85, R87, R88: a turn of the main loop shrinks the active length without losing a word, replaces
the larger of `u` and `v` by the odd part of their difference and its companion by the tracked difference, keeps the invariant
of R87 (the counter also directly after the subtraction, as (iv) says), makes `u + v` smaller, and finalises from the side that
reached 1. -/
def Obligations.InversionTurnKeepsTheInvariant : Prop :=
  ∀ (len p x u a v b uvLen : Nat) (ac bc : Int), p.Prime → p ≠ 2 → p < wordsBound len →
    InversionInvariant len p x u a ac v b bc → u ≠ 1 → v ≠ 1 → u < wordsBound uvLen → v < wordsBound uvLen →
      (shrink u v uvLen ≤ uvLen ∧ u < wordsBound (shrink u v uvLen) ∧ v < wordsBound (shrink u v uvLen)) ∧
      (v ≤ u →
        LegalCounter (ac + (natSub len a b).2 - bc) ∧
        ∃ u' a' ac', oddReduce len p (u - v) (shrink u v uvLen) (natSub len a b).1 (ac + (natSub len a b).2 - bc) =
            .ok (u', a', ac') ∧
          InversionInvariant len p x u' a' ac' v b bc ∧ u' < u ∧ (∃ count, u - v = u' * 2 ^ count) ∧
          ∀ turns, inversionLoop len p (turns + 1) u a ac v b bc uvLen =
            if u' = 1 then .ok (finalise len p a' ac')
            else inversionLoop len p turns u' a' ac' v b bc (shrink u v uvLen)) ∧
      (u < v →
        LegalCounter (bc + (natSub len b a).2 - ac) ∧
        ∃ v' b' bc', oddReduce len p (v - u) (shrink u v uvLen) (natSub len b a).1 (bc + (natSub len b a).2 - ac) =
            .ok (v', b', bc') ∧
          InversionInvariant len p x u a ac v' b' bc' ∧ v' < v ∧ (∃ count, v - u = v' * 2 ^ count) ∧
          ∀ turns, inversionLoop len p (turns + 1) u a ac v b bc uvLen =
            if v' = 1 then .ok (finalise len p b' bc')
            else inversionLoop len p turns u a ac v' b' bc' (shrink u v uvLen))

/-- 41_field_ops.md R101, R102: FMUL and MMUL write the product, reduced; MMUL is FMUL. -/
def Obligations.FmulAndMmulWriteTheProduct : Prop :=
  ∀ (s : State) (d a b : Fin 8),
    encode (.fmul d a b) = BitVec.ofNat 32 (0x20000000 + d * 2 ^ 20 + a * 2 ^ 16 + b * 2 ^ 12) ∧
    encode (.mmul d a b) = BitVec.ofNat 32 (0x21000000 + d * 2 ^ 20 + a * 2 ^ 16 + b * 2 ^ 12) ∧
    s.FaultsOnlyWith (.fmul d a b) [.uninit, .operandRange] ∧
    s.FaultsOnlyWith (.mmul d a b) [.uninit, .operandRange] ∧
    ∀ p x y, s.ModulusIs p → valueOf s.f[a] = some x → valueOf s.f[b] = some y → x < p → y < p →
      exec (.fmul d a b) s = .next { s with
        f := s.f.set d (wordsOf s.len (x * y % p)), status := { s.status with done := true } } ∧
      exec (.mmul d a b) s = .next { s with
        f := s.f.set d (wordsOf s.len (x * y % p)), status := { s.status with done := true } }

/-- 41_field_ops.md R103, R107, R108: FSQR, FDBL and FNEG, FDBL and FNEG in the rules' own case forms. -/
def Obligations.FsqrFdblFnegWriteTheirResults : Prop :=
  ∀ (s : State) (d a : Fin 8),
    encode (.fsqr d a) = BitVec.ofNat 32 (0x22000000 + d * 2 ^ 20 + a * 2 ^ 16) ∧
    encode (.fdbl d a) = BitVec.ofNat 32 (0x26000000 + d * 2 ^ 20 + a * 2 ^ 16) ∧
    encode (.fneg d a) = BitVec.ofNat 32 (0x27000000 + d * 2 ^ 20 + a * 2 ^ 16) ∧
    s.FaultsOnlyWith (.fsqr d a) [.uninit, .operandRange] ∧
    s.FaultsOnlyWith (.fdbl d a) [.uninit, .operandRange] ∧
    s.FaultsOnlyWith (.fneg d a) [.uninit, .operandRange] ∧
    ∀ p x, s.ModulusIs p → valueOf s.f[a] = some x → x < p →
      exec (.fsqr d a) s = .next { s with
        f := s.f.set d (wordsOf s.len (x * x % p)), status := { s.status with done := true } } ∧
      exec (.fdbl d a) s = .next { s with
        f := s.f.set d (wordsOf s.len (if 2 * x < p then 2 * x else 2 * x - p))
        status := { s.status with done := true } } ∧
      exec (.fneg d a) s = .next { s with
        f := s.f.set d (wordsOf s.len (if x = 0 then 0 else p - x)), status := { s.status with done := true } }

/-- 41_field_ops.md R105, R106: FADD and FSUB, in the rules' own case forms. -/
def Obligations.FaddAndFsubWriteSumAndDifference : Prop :=
  ∀ (s : State) (d a b : Fin 8),
    encode (.fadd d a b) = BitVec.ofNat 32 (0x24000000 + d * 2 ^ 20 + a * 2 ^ 16 + b * 2 ^ 12) ∧
    encode (.fsub d a b) = BitVec.ofNat 32 (0x25000000 + d * 2 ^ 20 + a * 2 ^ 16 + b * 2 ^ 12) ∧
    s.FaultsOnlyWith (.fadd d a b) [.uninit, .operandRange] ∧
    s.FaultsOnlyWith (.fsub d a b) [.uninit, .operandRange] ∧
    ∀ p x y, s.ModulusIs p → valueOf s.f[a] = some x → valueOf s.f[b] = some y → x < p → y < p →
      exec (.fadd d a b) s = .next { s with
        f := s.f.set d (wordsOf s.len (if x + y < p then x + y else x + y - p))
        status := { s.status with done := true } } ∧
      exec (.fsub d a b) s = .next { s with
        f := s.f.set d (wordsOf s.len (if y ≤ x then x - y else x + p - y))
        status := { s.status with done := true } }

/-- 41_field_ops.md R109: MULX writes the whole product, all `2 * LEN` words, "no reduction of any kind". -/
def Obligations.MulxWritesTheUnreducedProduct : Prop :=
  ∀ (s : State) (d : Fin 4) (a b : Fin 8),
    encode (.mulx d a b) = BitVec.ofNat 32 (0x28000000 + d * 2 ^ 20 + a * 2 ^ 16 + b * 2 ^ 12) ∧
    s.FaultsOnlyWith (.mulx d a b) [.uninit, .operandRange] ∧
    ∀ p x y, s.ModulusIs p → valueOf s.f[a] = some x → valueOf s.f[b] = some y → x < p → y < p →
      x * y < p ^ 2 ∧
      exec (.mulx d a b) s = .next { s with
        e := s.e.set d (wordsOf (2 * s.len) (x * y)), status := { s.status with done := true } }

/-- 41_field_ops.md R110: SUBX, `p^2` added on a negative difference. -/
def Obligations.SubxWritesTheExtendedDifference : Prop :=
  ∀ (s : State) (d a b : Fin 4),
    encode (.subx d a b) = BitVec.ofNat 32 (0x29000000 + d * 2 ^ 20 + a * 2 ^ 16 + b * 2 ^ 12) ∧
    s.FaultsOnlyWith (.subx d a b) [.uninit, .operandRange] ∧
    ∀ p x y, s.ModulusIs p → valueOf s.e[a] = some x → valueOf s.e[b] = some y → x < p ^ 2 → y < p ^ 2 →
      exec (.subx d a b) s = .next { s with
        e := s.e.set d (wordsOf (2 * s.len) (if y ≤ x then x - y else x + p ^ 2 - y))
        status := { s.status with done := true } }

/-- 41_field_ops.md R104: FRED reduces an extended value. -/
def Obligations.FredWritesTheResidue : Prop :=
  ∀ (s : State) (d : Fin 8) (a : Fin 4),
    encode (.fred d a) = BitVec.ofNat 32 (0x23000000 + d * 2 ^ 20 + a * 2 ^ 16) ∧
    s.FaultsOnlyWith (.fred d a) [.uninit, .operandRange] ∧
    ∀ p x, s.ModulusIs p → valueOf s.e[a] = some x →
      (p ^ 2 ≤ x → s.firstFailedCheck (.fred d a) = some .operandRange) ∧
      (x < p ^ 2 →
        exec (.fred d a) s = .next { s with
          f := s.f.set d (wordsOf s.len (x % p)), status := { s.status with done := true } })

/-- 41_field_ops.md R111: the nine pure functions, each as the residue it returns and the range it returns it in. -/
def Obligations.FieldFunctionsReturnTheReducedResidue : Prop :=
  ∀ p x y s t : Nat, p.Prime → x < p → y < p → s < p ^ 2 → t < p ^ 2 →
    ((fmul p x y : ZMod p) = x * y ∧ fmul p x y < p) ∧ ((fsqr p x : ZMod p) = x * x ∧ fsqr p x < p) ∧
    ((fadd p x y : ZMod p) = x + y ∧ fadd p x y < p) ∧ ((fsub p x y : ZMod p) = x - y ∧ fsub p x y < p) ∧
    ((fdbl p x : ZMod p) = 2 * x ∧ fdbl p x < p) ∧ ((fneg p x : ZMod p) = -x ∧ fneg p x < p) ∧
    (mulx x y = x * y ∧ mulx x y < p ^ 2) ∧ ((subx p s t : ZMod (p ^ 2)) = s - t ∧ subx p s t < p ^ 2) ∧
    ((fred p s : ZMod p) = s ∧ fred p s < p)

/-- 41_field_ops.md R113, which the spec derives from R111. -/
def Obligations.FieldFunctionIdentities : Prop :=
  ∀ p x y s t : Nat, p.Prime → x < p → y < p → s < p ^ 2 → t < p ^ 2 →
    fred p (mulx x y) = fmul p x y ∧ fsqr p x = fmul p x x ∧ fdbl p x = fadd p x x ∧ fneg p x = fsub p 0 x ∧
      fred p (subx p s t) = fsub p (fred p s) (fred p t)

/-! ### The point commands -/

/-- 42_point_ops.md R139: PADD applies `add`, whose values are `AddComputesTheRulesCases`; "same instance" is "same register
index". -/
def Obligations.PaddWritesTheSum : Prop :=
  ∀ (s : State) (d a b : Fin 4),
    encode (.padd d a b) = BitVec.ofNat 32 (0x30000000 + d * 2 ^ 20 + a * 2 ^ 16 + b * 2 ^ 12) ∧
    s.FaultsOnlyWith (.padd d a b) [.uninit, .badTag, .operandRange] ∧
    ∀ p P Q, s.ModulusIs p → logicalPoint s.pt[a] = .ok P → logicalPoint s.pt[b] = .ok Q →
      P.reduced p = true → Q.reduced p = true →
      exec (.padd d a b) s = .next { s with
        pt := s.pt.set d (pointReg s.len (add p P Q (decide (a = b)))), status := { s.status with done := true } }

/-- 42_point_ops.md R140, R141: PDBL applies `twice`, whose values are `TwiceComputesTheDoubling`, and PNEG applies `negate`,
whose values are `NegateNegatesY`. -/
def Obligations.PdblAndPnegWriteDoubleAndNegative : Prop :=
  ∀ (s : State) (d a : Fin 4),
    encode (.pdbl d a) = BitVec.ofNat 32 (0x31000000 + d * 2 ^ 20 + a * 2 ^ 16) ∧
    encode (.pneg d a) = BitVec.ofNat 32 (0x32000000 + d * 2 ^ 20 + a * 2 ^ 16) ∧
    s.FaultsOnlyWith (.pdbl d a) [.uninit, .badTag, .operandRange] ∧
    s.FaultsOnlyWith (.pneg d a) [.uninit, .badTag, .operandRange] ∧
    ∀ p P, s.ModulusIs p → logicalPoint s.pt[a] = .ok P → P.reduced p = true →
      exec (.pdbl d a) s = .next { s with
        pt := s.pt.set d (pointReg s.len (twice p P)), status := { s.status with done := true } } ∧
      exec (.pneg d a) s = .next { s with
        pt := s.pt.set d (pointReg s.len (negate p P)), status := { s.status with done := true } }

/-- 42_point_ops.md R135, R142: PSUB, with the cases of `subtract`; the third argument of `add` is false even for one register
named twice. -/
def Obligations.PsubWritesTheDifference : Prop :=
  ∀ (s : State) (d a b : Fin 4),
    encode (.psub d a b) = BitVec.ofNat 32 (0x33000000 + d * 2 ^ 20 + a * 2 ^ 16 + b * 2 ^ 12) ∧
    s.FaultsOnlyWith (.psub d a b) [.uninit, .badTag, .operandRange] ∧
    ∀ p P Q, s.ModulusIs p → logicalPoint s.pt[a] = .ok P → logicalPoint s.pt[b] = .ok Q →
      P.reduced p = true → Q.reduced p = true →
      exec (.psub d a b) s = .next { s with
        pt := s.pt.set d (pointReg s.len (if Q.isInfinity then P else add p P (negate p Q) false))
        status := { s.status with done := true } }

/-- 42_point_ops.md R136, R143: PTPL, with the cases of `three_times`; the doubled point is the first argument of `add`. -/
def Obligations.PtplWritesTheTriple : Prop :=
  ∀ (s : State) (d a : Fin 4),
    encode (.ptpl d a) = BitVec.ofNat 32 (0x34000000 + d * 2 ^ 20 + a * 2 ^ 16) ∧
    s.FaultsOnlyWith (.ptpl d a) [.uninit, .badTag, .operandRange] ∧
    ∀ p P, s.ModulusIs p → logicalPoint s.pt[a] = .ok P → P.reduced p = true →
      exec (.ptpl d a) s = .next { s with
        pt := s.pt.set d (pointReg s.len
          (if P.isInfinity then P else if P.yCoord = 0 then P else add p (twice p P) P false))
        status := { s.status with done := true } }

/-- 42_point_ops.md R137, R144: PDBLADD, with the cases of `twice_plus` in the spec's order. -/
def Obligations.PdbladdWritesTwiceTheFirstPlusTheSecond : Prop :=
  ∀ (s : State) (d a b : Fin 4),
    encode (.pdbladd d a b) = BitVec.ofNat 32 (0x35000000 + d * 2 ^ 20 + a * 2 ^ 16 + b * 2 ^ 12) ∧
    s.FaultsOnlyWith (.pdbladd d a b) [.uninit, .badTag, .operandRange] ∧
    ∀ p P Q, s.ModulusIs p → logicalPoint s.pt[a] = .ok P → logicalPoint s.pt[b] = .ok Q →
      P.reduced p = true → Q.reduced p = true →
      exec (.pdbladd d a b) s = .next { s with
        pt := s.pt.set d (pointReg s.len
          (if a = b then threeTimes p P
          else if P.isInfinity then Q
          else if Q.isInfinity then twice p P
          else if P.yCoord = 0 then Q
          else add p (twice p P) Q false))
        status := { s.status with done := true } }

/-- 10_state.md R24, R25, R26: what a command that writes a point leaves, tag and words, and that it is the point a command
reads there; the coordinates its state does not have hold no value. -/
def Obligations.WrittenPointReadsBack : Prop :=
  ∀ (s : State) (d : Fin 4) (p : Nat) (P : Point), s.Shaped → s.ModulusIs p → P.reduced p = true →
    logicalPoint (s.writePoint d P).pt[d] = .ok P ∧
      match P with
      | .infinity c =>
        (s.writePoint d P).dataWord (.tag d) = some (BitVec.ofNat 32 (c.toNat * 4 + 0)) ∧
          ∀ j, (s.writePoint d P).dataWord (.x d j) = none ∧ (s.writePoint d P).dataWord (.y d j) = none ∧
            (s.writePoint d P).dataWord (.z d j) = none
      | .affine c x y =>
        (s.writePoint d P).dataWord (.tag d) = some (BitVec.ofNat 32 (c.toNat * 4 + 1)) ∧
          (∀ j, j < s.len → (s.writePoint d P).dataWord (.x d j) = some (wordOf x j) ∧
            (s.writePoint d P).dataWord (.y d j) = some (wordOf y j)) ∧
          ∀ j, (s.writePoint d P).dataWord (.z d j) = none
      | .jacobian c x y z =>
        (s.writePoint d P).dataWord (.tag d) = some (BitVec.ofNat 32 (c.toNat * 4 + 2)) ∧
          ∀ j, j < s.len → (s.writePoint d P).dataWord (.x d j) = some (wordOf x j) ∧
            (s.writePoint d P).dataWord (.y d j) = some (wordOf y j) ∧
            (s.writePoint d P).dataWord (.z d j) = some (wordOf z j)

/-! ### The group law -/

/-- 42_point_ops.md R132: the cases of `twice`, and its values modulo `p`: "only the values `X3 = M² − 2S`,
`Y3 = M·(S − X3) − 8·T`, `Z3 = 2·Y1·Z1` (all mod `p`) are normative". -/
def Obligations.TwiceComputesTheDoubling : Prop :=
  ∀ (p : Nat) (P : Point), p.Prime → P.reduced p = true →
    (P.isInfinity = true → twice p P = .infinity P.flag) ∧
    (P.isInfinity = false → P.yCoord = 0 → twice p P = .infinity P.flag) ∧
    (P.isInfinity = false → P.yCoord ≠ 0 →
      ∃ x₃ y₃ z₃, twice p P = .jacobian P.flag x₃ y₃ z₃ ∧ x₃ < p ∧ y₃ < p ∧ z₃ < p ∧
        let m : ZMod p := 3 * P.xCoord ^ 2
        let s : ZMod p := 4 * (P.xCoord * P.yCoord ^ 2)
        (x₃ : ZMod p) = m ^ 2 - 2 * s ∧ (y₃ : ZMod p) = m * (s - x₃) - 8 * P.yCoord ^ 4 ∧
          (z₃ : ZMod p) = 2 * P.yCoord * P.zEff)

/-- 42_point_ops.md R133, R145: the cases of `add` and its values modulo `p`, with the source's signs `H = U1 − U2`,
`R_ = S1 − S2`; when both are 0 the first operand is doubled. -/
def Obligations.AddComputesTheRulesCases : Prop :=
  ∀ (p : Nat) (P Q : Point) (same : Bool), p.Prime → P.reduced p = true → Q.reduced p = true →
    (P.isInfinity = true → add p P Q same = Q) ∧
    (P.isInfinity = false → Q.isInfinity = true → add p P Q same = P) ∧
    (P.isInfinity = false → Q.isInfinity = false → same = true → add p P Q same = twice p P) ∧
    (P.isInfinity = false → Q.isInfinity = false → same = false →
      let u₁ : ZMod p := P.xCoord * Q.zEff ^ 2
      let s₁ : ZMod p := P.yCoord * Q.zEff ^ 3
      let h : ZMod p := u₁ - Q.xCoord * P.zEff ^ 2
      let r : ZMod p := s₁ - Q.yCoord * P.zEff ^ 3
      (h = 0 → r = 0 → add p P Q same = twice p P) ∧
      (h = 0 → r ≠ 0 → add p P Q same = .infinity P.flag) ∧
      (h ≠ 0 →
        ∃ x₃ y₃ z₃, add p P Q same = .jacobian P.flag x₃ y₃ z₃ ∧ x₃ < p ∧ y₃ < p ∧ z₃ < p ∧
          (x₃ : ZMod p) = r ^ 2 + h ^ 3 - 2 * (h ^ 2 * u₁) ∧
          (y₃ : ZMod p) = r * (h ^ 2 * u₁ - x₃) - s₁ * h ^ 3 ∧
          (z₃ : ZMod p) = h * P.zEff * Q.zEff))

/-- 42_point_ops.md R134: `negate` keeps the state, the flag, `X` and `Z`, and negates `Y` modulo `p`. -/
def Obligations.NegateNegatesY : Prop :=
  ∀ (p : Nat) (c : Bool) (x y z : Nat), p.Prime → x < p → y < p → z < p →
    negate p (.infinity c) = .infinity c ∧
      ∃ y', y' < p ∧ (y' : ZMod p) = -y ∧ negate p (.affine c x y) = .affine c x y' ∧
        negate p (.jacobian c x y z) = .jacobian c x y' z

/-- 42_point_ops.md R131 (D15): an argument passed through is returned whole, the flag of every result, and that no rule reads
a flag to decide anything. -/
def Obligations.FlagOfAResult : Prop :=
  ∀ (p : Nat) (P Q : Point) (same c₁ c₂ c : Bool),
    ((P.isInfinity = true → add p P Q same = Q ∧ threeTimes p P = P ∧ twicePlus p P Q false = Q) ∧
      (P.isInfinity = false → Q.isInfinity = true → add p P Q same = P) ∧
      (Q.isInfinity = true → subtract p P Q = P) ∧ (P.yCoord = 0 → threeTimes p P = P) ∧
      (P.isInfinity = false → Q.isInfinity = false → P.yCoord = 0 → twicePlus p P Q false = Q)) ∧
    ((twice p P).flag = P.flag ∧ (negate p P).flag = P.flag ∧ (threeTimes p P).flag = P.flag ∧
      (add p P Q same).flag = (if P.isInfinity then Q.flag else P.flag) ∧
      (subtract p P Q).flag = (if P.isInfinity && !Q.isInfinity then Q.flag else P.flag) ∧
      (twicePlus p P Q false).flag =
        (if P.isInfinity || (!Q.isInfinity && decide (P.yCoord = 0)) then Q.flag else P.flag) ∧
      (twicePlus p P P true).flag = P.flag) ∧
    (twice p (P.withFlag c₁)).withFlag c = (twice p P).withFlag c ∧
    (negate p (P.withFlag c₁)).withFlag c = (negate p P).withFlag c ∧
    (threeTimes p (P.withFlag c₁)).withFlag c = (threeTimes p P).withFlag c ∧
    (add p (P.withFlag c₁) (Q.withFlag c₂) same).withFlag c = (add p P Q same).withFlag c ∧
    (subtract p (P.withFlag c₁) (Q.withFlag c₂)).withFlag c = (subtract p P Q).withFlag c ∧
    (twicePlus p (P.withFlag c₁) (Q.withFlag c₂) same).withFlag c = (twicePlus p P Q same).withFlag c

/-- 42_point_ops.md R146, which the spec derives from R111: an Affine operand and the Jacobian one with `Z = 1` stored give
bit-identical results wherever coordinates are computed. -/
def Obligations.StoredUnitZGivesIdenticalResults : Prop :=
  ∀ (p : Nat) (P Q : Point) (same : Bool), P.isInfinity = false → Q.isInfinity = false → P.yCoord ≠ 0 →
    ∀ P' ∈ [P, P.withStoredZ], ∀ Q' ∈ [Q, Q.withStoredZ],
      twice p P' = twice p P ∧ add p P' Q' same = add p P Q same ∧ subtract p P' Q' = subtract p P Q ∧
        threeTimes p P' = threeTimes p P ∧ twicePlus p P' Q' same = twicePlus p P Q same

/-- 42_point_ops.md R147, which the spec derives from R132 to R137: `add` is commutative as group elements; the words may
differ. -/
def Obligations.AddIsCommutativeAsPoints : Prop :=
  ∀ (p : Nat) (P Q : Point), p.Prime → P.reduced p = true → Q.reduced p = true →
    (P.isInfinity = false → (P.zEff : ZMod p) ≠ 0) → (Q.isInfinity = false → (Q.zEff : ZMod p) ≠ 0) →
      (add p P Q false).SamePoint p (add p Q P false)

/-- 42_point_ops.md R147, which the spec derives from R132 to R137: the source's other testable properties. -/
def Obligations.SourcesTestableProperties : Prop :=
  ∀ (p : Nat) (P Q : Point) (c same : Bool), p.Prime → p ≠ 2 → P.reduced p = true → Q.reduced p = true →
    (P.isInfinity = false → (P.zEff : ZMod p) ≠ 0) → (Q.isInfinity = false → (Q.zEff : ZMod p) ≠ 0) →
      (add p P (.infinity c) same).SamePoint p P ∧ (add p P (negate p P) false).isInfinity = true ∧
        twice p P = add p P P same ∧ threeTimes p P = add p (twice p P) P false ∧
        (twicePlus p P Q false).SamePoint p (add p (twice p P) Q false)

/-- 42_point_ops.md R148 with the premise it names (the operands are points of one curve, with `Z != 0`), and 00_scope.md
section 8: the six functions are the group law of the curve `y^2 = x^3 + b`, as Mathlib defines that group. -/
def Obligations.PointFunctionsAreTheGroupLaw : Prop :=
  ∀ (p : Nat) [Fact p.Prime] (b : ZMod p) (g h : (curve p b).Point) (P Q : Point),
    p ≠ 2 → P.reduced p = true → Q.reduced p = true → P.Represents g → Q.Represents h →
      (twice p P).Represents (g + g) ∧ (add p P Q false).Represents (g + h) ∧ (add p P P true).Represents (g + g) ∧
        (negate p P).Represents (-g) ∧ (subtract p P Q).Represents (g - h) ∧
        (threeTimes p P).Represents (g + g + g) ∧ (twicePlus p P Q false).Represents (g + g + h) ∧
        (twicePlus p P P true).Represents (g + g + g)

/-! ### The window in the host's address space -/

/-- 20_memory.md R40, R43: the window is bound at the base the launch supplies. A host's transactions at the base plus their
offsets are the block's at those offsets, so moving a program with its window changes nothing; all the block has is in the
window; only the pending transactions come from the launch. That a transaction outside the window never reaches the block
is the model's choice, log 10. -/
def Obligations.WindowIsBoundAtTheLaunchsBase : Prop :=
  ∀ (s : State) (base : Nat) (before program after : List Transaction),
    (∀ tx ∈ program, tx.addr < 3072) → (∀ tx ∈ before ++ after, tx.addr < base ∨ base + 3072 ≤ tx.addr) →
      s.launch base (before ++ program.map (Transaction.toHost base) ++ after) = { s with pending := program } ∧
      ∀ tgt : Target, s.len ≤ 16 → tgt.Exists s.len → tgt.offset < 3072

/-! ### The words of values and the tags of points -/

/-- 00_scope.md R9: the value of an array of held words is the sum of the words by their weights, word 0 the least significant,
and `words_n` is the inverse; an array with a word that holds no value has none. -/
def Obligations.WordZeroIsTheLeastSignificant : Prop :=
  (∀ ws : List Word, valueOf (ws.map some) = some (∑ j : Fin ws.length, ws[j].toNat * 2 ^ (32 * (j : Nat)))) ∧
    (∀ a : List (Option Word), valueOf a = none ↔ none ∈ a) ∧
    ∀ n v, v < 2 ^ (32 * n) →
      (wordsOf n v).length = n ∧ valueOf (wordsOf n v) = some v ∧
        ∀ j, j < n → (wordsOf n v)[j]? = some (some (wordOf v j))

/-- 20_memory.md R44: a host reads word `j` of a value, of weight `2^(32*j)`, at its slot's base plus `4*j`, in every state and
of every register; and so of a result that a command has just written. -/
def Obligations.HostReadsValuesLittleEndian : Prop :=
  ∀ (s : State) (v j : Nat), s.Shaped →
    (valueOf s.p = some v → j < s.len → memRead s (0x040 + 4 * j) 4 = .word (wordOf v j)) ∧
    (∀ i : Fin 8, j < s.len →
      (valueOf s.f[i] = some v → memRead s (0x100 + 0x40 * i + 4 * j) 4 = .word (wordOf v j)) ∧
        memRead (s.writeField i v) (0x100 + 0x40 * i + 4 * j) 4 = .word (wordOf v j)) ∧
    (∀ i : Fin 4, j < 2 * s.len →
      (valueOf s.e[i] = some v → memRead s (0x400 + 0x80 * i + 4 * j) 4 = .word (wordOf v j)) ∧
        memRead (s.writeExt i v) (0x400 + 0x80 * i + 4 * j) 4 = .word (wordOf v j)) ∧
    ∀ i : Fin 4, j < s.len →
      (valueOf s.pt[i].x = some v → memRead s (0x840 + 0x100 * i + 4 * j) 4 = .word (wordOf v j)) ∧
        (valueOf s.pt[i].y = some v → memRead s (0x880 + 0x100 * i + 4 * j) 4 = .word (wordOf v j)) ∧
        (valueOf s.pt[i].z = some v → memRead s (0x8C0 + 0x100 * i + 4 * j) 4 = .word (wordOf v j))

/-- 10_state.md R24, R25: what a command reads in a point register, by the word a host reads at its `TAG`: bits 1:0 the state,
bit 2 the flag, the bits above 0; the coordinates that the state has, and no other. -/
def Obligations.PointRegisterReadsAsItsTagSays : Prop :=
  ∀ (s : State) (i : Fin 4),
    (s.dataWord (.tag i) = none → heldPoint s i = .error (.raise .uninit)) ∧
    ∀ w, s.dataWord (.tag i) = some w →
      bits w 31 3 = 0 ∧
      (bits w 1 0 = 3 → heldPoint s i = .error (.raise .badTag)) ∧
      (bits w 1 0 = 0 → heldPoint s i = .ok (.infinity (w.getLsbD 2))) ∧
      (bits w 1 0 = 1 →
        (valueOf s.pt[i].x = none ∨ valueOf s.pt[i].y = none → heldPoint s i = .error (.raise .uninit)) ∧
          ∀ x y, valueOf s.pt[i].x = some x → valueOf s.pt[i].y = some y →
            heldPoint s i = .ok (.affine (w.getLsbD 2) x y)) ∧
      (bits w 1 0 = 2 →
        (valueOf s.pt[i].x = none ∨ valueOf s.pt[i].y = none ∨ valueOf s.pt[i].z = none →
          heldPoint s i = .error (.raise .uninit)) ∧
          ∀ x y z, valueOf s.pt[i].x = some x → valueOf s.pt[i].y = some y → valueOf s.pt[i].z = some z →
            heldPoint s i = .ok (.jacobian (w.getLsbD 2) x y z))
end

