-- ==== Sys2Proof/Laws/Primality.lean ====
section
/-! SUPPORT. `oddPrime` is exact: it answers true on the odd primes and on nothing else (00_scope.md R8, log 4). The listed
moduli are proved prime by Pocklington's criterion, from certificates that the kernel checks. -/

namespace Sys2Proof.Laws

open Sys2Proof.Machine

theorem powMod_eq (m : Nat) : ∀ fuel a e : Nat, e < 2 ^ fuel → powMod m fuel a e = a ^ e % m := by
  intro fuel
  induction fuel with
  | zero => intro a e h; obtain rfl : e = 0 := by simpa using h
            simp [powMod]
  | succ fuel ih =>
    intro a e h
    have half : e / 2 < 2 ^ fuel := by omega
    have square : (a * a % m) ^ (e / 2) % m = a ^ (2 * (e / 2)) % m := by
      rw [pow_mul, ← sq, Nat.pow_mod (a ^ 2 % m), Nat.mod_mod, ← Nat.pow_mod]
    rw [powMod, ih _ _ half, square]
    split
    · rw [Nat.mul_mod_mod, ← pow_succ', show 2 * (e / 2) + 1 = e by omega]
    · rw [show 2 * (e / 2) = e by omega]

theorem powMod_log2 (m a e : Nat) (h : e ≤ m) : powMod m (m.log2 + 1) a e = a ^ e % m :=
  powMod_eq m _ a e (lt_of_le_of_lt h Nat.lt_log2_self)

/-! ### Trial division -/

/-- What trial division has found out when it has got to the odd number `d`. -/
def NoOddDivisorBelow (d n : Nat) : Prop := ∀ k, 3 ≤ k → k % 2 = 1 → k < d → ¬ k ∣ n

theorem prime_of_noOddDivisor {n : Nat} (hn : 2 < n) (odd : n % 2 = 1) :
    ∀ fuel d, 3 ≤ d → d % 2 = 1 → NoOddDivisorBelow d n → noOddDivisor fuel d n = true → n.Prime := by
  intro fuel
  induction fuel with
  | zero => intro d _ _ _ h; simp [noOddDivisor] at h
  | succ fuel ih =>
    intro d h3 hd below h
    rw [noOddDivisor] at h
    split at h
    · rename_i big
      by_contra composite
      have small : n.minFac ^ 2 ≤ n := Nat.minFac_sq_le_self (by omega) composite
      have least : n.minFac.Prime := Nat.minFac_prime (by omega)
      have divides := Nat.minFac_dvd n
      have oddFactor : n.minFac % 2 = 1 := by
        rcases least.eq_two_or_odd with two | h
        · rw [two] at divides; omega
        · exact h
      have : 3 ≤ n.minFac := by have := least.two_le; omega
      exact below _ this oddFactor (by nlinarith) divides
    · split at h
      · simp at h
      · rename_i no
        refine ih (d + 2) (by omega) (by omega) ?_ h
        intro k k3 kodd kd
        rcases Nat.lt_or_ge k d with lt | ge
        · exact below k k3 kodd lt
        · obtain rfl : k = d := by omega
          exact fun dvd => no (Nat.mod_eq_zero_of_dvd dvd)

theorem noOddDivisor_of_prime {n : Nat} (hp : n.Prime) :
    ∀ fuel d, 3 ≤ d → n < d + 2 * fuel → noOddDivisor (fuel + 1) d n = true := by
  intro fuel
  induction fuel with
  | zero => intro d h3 h; rw [noOddDivisor, if_pos (by nlinarith)]
  | succ fuel ih =>
    intro d h3 h
    rw [noOddDivisor]
    split
    · rfl
    · rename_i small
      have ndvd : ¬ n % d = 0 := by
        intro h0
        rcases (Nat.dvd_prime hp).1 (Nat.dvd_of_mod_eq_zero h0) with h1 | h1
        · omega
        · subst h1; exact small (by nlinarith)
      rw [if_neg ndvd]
      exact ih (d + 2) (by omega) (by omega)

/-! ### Pocklington's criterion -/

/-- If the part `F` of `n - 1` that is a product of the primes `fs` has `n < F^2`, and `a` has an order modulo every
prime factor of `n` that `F` divides, then `n` is prime. -/
theorem prime_of_pocklington {n a f : Nat} {fs : List Nat} (hn : 1 < n) (part : f ∣ n - 1) (big : n < f ^ 2)
    (factors : ∀ q, q.Prime → q ∣ f → q ∈ fs) (fermat : a ^ (n - 1) % n = 1)
    (order : ∀ q ∈ fs, Nat.gcd (a ^ ((n - 1) / q) % n + (n - 1)) n = 1) : n.Prime := by
  by_contra composite
  obtain ⟨r, hr⟩ : ∃ r, r = n.minFac := ⟨_, rfl⟩
  have rp : r.Prime := hr ▸ Nat.minFac_prime (by omega)
  have rn : r ∣ n := hr ▸ Nat.minFac_dvd n
  have small : r ^ 2 ≤ n := hr ▸ Nat.minFac_sq_le_self (by omega) composite
  have : Fact r.Prime := ⟨rp⟩
  have cast : ∀ k, ((a ^ k % n : Nat) : ZMod r) = (a : ZMod r) ^ k := by
    intro k
    have : a ^ k % n ≡ a ^ k [MOD r] := (Nat.mod_modEq _ _).of_dvd rn
    simpa using (ZMod.natCast_eq_natCast_iff _ _ _).2 this
  have one : (a : ZMod r) ^ (n - 1) = 1 := by rw [← cast, fermat]; simp
  have nonzero : (a : ZMod r) ≠ 0 := by
    intro h; rw [h, zero_pow (by omega)] at one; exact zero_ne_one one
  obtain ⟨k, hk⟩ := orderOf_dvd_of_pow_eq_one one
  have coprime : Nat.Coprime f k := by
    refine Nat.coprime_of_dvd fun q hq qf qk => ?_
    obtain ⟨k', rfl⟩ := qk
    have quotient : (n - 1) / q = orderOf (a : ZMod r) * k' := by
      rw [hk]; exact Nat.div_eq_of_eq_mul_right hq.pos (by ring)
    have power : (a : ZMod r) ^ ((n - 1) / q) = 1 := by rw [quotient, pow_mul, pow_orderOf_eq_one, one_pow]
    have : r ∣ Nat.gcd (a ^ ((n - 1) / q) % n + (n - 1)) n := by
      refine Nat.dvd_gcd ?_ rn
      rw [← ZMod.natCast_eq_zero_iff, Nat.cast_add, cast, power, Nat.cast_sub (by omega),
        (ZMod.natCast_eq_zero_iff _ _).2 rn]
      simp
    rw [order q (factors q hq qf)] at this
    exact rp.one_lt.ne' (Nat.dvd_one.1 this)
  have fd : f ∣ orderOf (a : ZMod r) := coprime.dvd_of_dvd_mul_right (hk ▸ part)
  have dr : orderOf (a : ZMod r) ∣ r - 1 := ZMod.orderOf_dvd_card_sub_one nonzero
  have : f ≤ r - 1 := Nat.le_of_dvd (by have := rp.two_le; omega) (fd.trans dr)
  have : f < r := by have := rp.two_le; omega
  nlinarith

/-- A certificate that `n` is prime: `a` and the prime powers `(q, e)` of a large enough part of `n - 1`. -/
structure Certificate where
  n : Nat
  a : Nat
  fs : List (Nat × Nat)

/-- The product of the prime powers of a certificate. -/
def product : List (Nat × Nat) → Nat
  | [] => 1
  | (q, e) :: fs => q ^ e * product fs

/-- A number trial division can find prime in a thousand turns. -/
def smallPrime (q : Nat) : Bool :=
  decide (q = 2) || (decide (2 < q) && decide (q % 2 = 1) && noOddDivisor 1000 3 q)

/-- The certificate proves its number prime, if the numbers `known` are primes. -/
def Certificate.ok (known : List Nat) (c : Certificate) : Bool :=
  decide (1 < c.n) && decide ((c.n - 1) % product c.fs = 0) && decide (c.n < product c.fs ^ 2) &&
    decide (powMod c.n (c.n.log2 + 1) c.a (c.n - 1) = 1) &&
    c.fs.all fun qe =>
      (known.contains qe.1 || smallPrime qe.1) &&
        decide (Nat.gcd (powMod c.n (c.n.log2 + 1) c.a ((c.n - 1) / qe.1) + (c.n - 1)) c.n = 1)

/-- Each certificate may use the numbers of those before it. -/
def certificatesOk : List Nat → List Certificate → Bool
  | _, [] => true
  | known, c :: cs => c.ok known && certificatesOk (c.n :: known) cs

theorem prime_of_smallPrime {q : Nat} (h : smallPrime q = true) : q.Prime := by
  simp only [smallPrime, Bool.or_eq_true, Bool.and_eq_true, decide_eq_true_eq] at h
  rcases h with rfl | ⟨⟨h2, odd⟩, h⟩
  · exact Nat.prime_two
  · exact prime_of_noOddDivisor h2 odd 1000 3 le_rfl rfl (fun k k3 _ lt => by omega) h

theorem mem_of_dvd_product {q : Nat} (hq : q.Prime) :
    ∀ {fs : List (Nat × Nat)}, (∀ qe ∈ fs, qe.1.Prime) → q ∣ product fs → q ∈ fs.map Prod.fst := by
  intro fs
  induction fs with
  | nil => intro _ h; exact absurd (Nat.dvd_one.1 h) hq.one_lt.ne'
  | cons qe fs ih =>
    intro primes h
    rcases (Nat.Prime.dvd_mul hq).1 h with h | h
    · simp [(Nat.prime_dvd_prime_iff_eq hq (primes qe (by simp))).1 (hq.dvd_of_dvd_pow h)]
    · simp [List.mem_map.1 (ih (fun x hx => primes x (by simp [hx])) h)]

theorem Certificate.prime {known : List Nat} {c : Certificate} (primes : ∀ q ∈ known, q.Prime)
    (h : c.ok known = true) : c.n.Prime := by
  simp only [Certificate.ok, Bool.and_eq_true, decide_eq_true_eq, List.all_eq_true, Bool.or_eq_true,
    List.contains_eq_mem] at h
  obtain ⟨⟨⟨⟨hn, part⟩, big⟩, fermat⟩, factors⟩ := h
  rw [powMod_log2 _ _ _ (by omega)] at fermat
  have prime : ∀ qe ∈ c.fs, qe.1.Prime := fun qe hqe =>
    (factors qe hqe).1.elim (fun h => primes _ h) prime_of_smallPrime
  refine prime_of_pocklington (fs := c.fs.map Prod.fst) hn (Nat.dvd_of_mod_eq_zero part) big
    (fun q hq hd => mem_of_dvd_product hq prime hd) fermat ?_
  simp only [List.mem_map]
  rintro q ⟨qe, hqe, rfl⟩
  have := (factors qe hqe).2
  rwa [powMod_log2 _ _ _ ((Nat.div_le_self _ _).trans (by omega))] at this

theorem primes_of_certificates : ∀ (cs : List Certificate) (known : List Nat), (∀ q ∈ known, q.Prime) →
    certificatesOk known cs = true → ∀ c ∈ cs, c.n.Prime := by
  intro cs
  induction cs with
  | nil => intro _ _ _ c hc; simp at hc
  | cons c cs ih =>
    intro known primes h
    rw [certificatesOk, Bool.and_eq_true] at h
    have first : c.n.Prime := Certificate.prime primes h.1
    intro c' hc'
    rcases List.mem_cons.1 hc' with rfl | hc'
    · exact first
    · refine ih (c.n :: known) ?_ h.2 c' hc'
      simpa [first] using primes

/-- Certificates, part 1. -/
def certificates1 : List Certificate :=
  [⟨4516015619173, 2, [(2, 2), (3, 1), (19, 1), (233, 1), (541, 1)]⟩,
   ⟨222431055585633101740979, 2, [(4516015619173, 1)]⟩,
   ⟨2700653704464143955832110573370478657, 2, [(222431055585633101740979, 1)]⟩,
   ⟨340282366762482138434845932244680310783, 2, [(2700653704464143955832110573370478657, 1)]⟩,
   ⟨13227736279, 7, [(2, 1), (3, 1), (17, 1), (6491, 1)]⟩,
   ⟨7900291948105309, 2, [(13227736279, 1)]⟩,
   ⟨9064563121, 7, [(2, 4), (3, 3), (5, 1), (23, 2)]⟩,
   ⟨61588775277324185343602394973294691093621473, 2, [(9064563121, 1), (7900291948105309, 1)]⟩,
   ⟨1461501637330902918203684832716283019651637554291, 2, [(61588775277324185343602394973294691093621473, 1)]⟩,
   ⟨1519826521, 7, [(2, 3), (3, 1), (5, 1), (17, 1), (745013, 1)]⟩,
   ⟨3799566302501, 2, [(1519826521, 1)]⟩,
   ⟨9281531860908577342183, 2, [(3799566302501, 1)]⟩]

/-- Certificates, part 2. -/
def certificates2 : List Certificate :=
  [⟨176070659401435712181211511, 2, [(9281531860908577342183, 1)]⟩,
   ⟨1461501637330902918203684832716283019653785059327, 2, [(176070659401435712181211511, 1)]⟩,
   ⟨8473813, 2, [(2, 2), (3, 1), (706151, 1)]⟩,
   ⟨138580737803, 2, [(8473813, 1)]⟩,
   ⟨16189543961, 6, [(2, 3), (5, 1), (61, 1), (2473, 1)]⟩,
   ⟨10489845818524887021689201254173392444641, 2, [(16189543961, 1), (138580737803, 1)]⟩,
   ⟨6277101735386680763835789423207666416102355444459739541047, 2, [(10489845818524887021689201254173392444641, 1)]⟩,
   ⟨8413201, 29, [(2, 4), (3, 3), (5, 2)]⟩,
   ⟨252396031, 2, [(8413201, 1)]⟩,
   ⟨455827231987, 2, [(252396031, 1)]⟩,
   ⟨5933177618131140283, 2, [(455827231987, 1)]⟩,
   ⟨288626509448065367648032903, 2, [(5933177618131140283, 1)]⟩]

/-- Certificates, part 3. -/
def certificates3 : List Certificate :=
  [⟨108341181769254293, 2, [(2, 2), (17, 1), (43, 1), (2477, 1), (54251, 1)]⟩,
   ⟨6277101735386680763835789423207666416083908700390324961279, 2, [(108341181769254293, 1), (288626509448065367648032903, 1)]⟩,
   ⟨31670999344427766303479, 7, [(2, 1), (29, 1), (419, 1), (1471, 1), (1601, 1), (3001, 1)]⟩,
   ⟨30974237358850355444802463, 2, [(31670999344427766303479, 1)]⟩,
   ⟨9743875111334057846550285755748171501325144788037, 2, [(30974237358850355444802463, 1)]⟩,
   ⟨26959946667150639794667015087019630673637144422540572481099315275117, 2, [(9743875111334057846550285755748171501325144788037, 1)]⟩,
   ⟨26959946667150639794667015087019630673557916260026308143510066298881, 22, [(2, 96), (3, 1), (5, 1), (17, 1), (257, 1), (641, 1)]⟩,
   ⟨255515944373312847190720520512484175977, 3, [(2, 3), (7, 2), (11, 1), (1627, 1), (2657, 1), (4423, 1), (41201, 1), (96557, 1)]⟩,
   ⟨205115282021455665897114700593932402728804164701536103180137503955397371, 2, [(255515944373312847190720520512484175977, 1)]⟩,
   ⟨115792089237316195423570985008687907853269984665640564039457584007908834671663, 2, [(205115282021455665897114700593932402728804164701536103180137503955397371, 1)]⟩,
   ⟨46076956964474543, 5, [(2, 1), (23, 1), (18169, 1), (78283, 1)]⟩,
   ⟨66417393611, 6, [(2, 1), (5, 1), (53, 1), (173, 1), (197, 1)]⟩]

/-- Certificates, part 4. -/
def certificates4 : List Certificate :=
  [⟨11290956913871, 2, [(66417393611, 1)]⟩,
   ⟨774023187263532362759620327192479577272145303, 2, [(11290956913871, 1), (46076956964474543, 1)]⟩,
   ⟨835945042244614951780389953367877943453916927241, 2, [(774023187263532362759620327192479577272145303, 1)]⟩,
   ⟨115792089210356248762697446949407573530086143415290314195533631308867097853951, 2, [(835945042244614951780389953367877943453916927241, 1)]⟩,
   ⟨532247449, 7, [(2, 3), (3, 1), (61, 1), (363557, 1)]⟩,
   ⟨44925942675193, 2, [(532247449, 1)]⟩,
   ⟨35581458644053887931343, 2, [(44925942675193, 1)]⟩,
   ⟨23964610537191310276190549303, 2, [(35581458644053887931343, 1)]⟩,
   ⟨862725979338887169942859774909, 2, [(23964610537191310276190549303, 1)]⟩,
   ⟨20705423504133292078628634597817, 2, [(862725979338887169942859774909, 1)]⟩,
   ⟨413244619895455989650825325680172591660047, 2, [(20705423504133292078628634597817, 1)]⟩,
   ⟨12397338596863679689524759770405177749801411, 2, [(413244619895455989650825325680172591660047, 1)]⟩]

/-- Certificates, part 5. -/
def certificates5 : List Certificate :=
  [⟨246608641, 19, [(2, 8), (3, 2), (5, 1), (21407, 1)]⟩,
   ⟨105957871, 3, [(2, 1), (3, 1), (5, 1), (19, 1), (211, 1)]⟩,
   ⟨529709925838459440593, 2, [(105957871, 1), (246608641, 1)]⟩,
   ⟨19173790298027098165721053155794528970226934547887232785722672956982046098136719667167519737147526097, 2, [(529709925838459440593, 1), (12397338596863679689524759770405177749801411, 1)]⟩,
   ⟨39402006196394479212279040100143613805079739270465446667948293404245721771496870329047266088258938001861606973112319, 2, [(19173790298027098165721053155794528970226934547887232785722672956982046098136719667167519737147526097, 1)]⟩,
   ⟨1919519569386763, 2, [(2, 1), (3, 1), (7, 1), (19, 1), (47, 2), (127, 1)]⟩,
   ⟨2773320623, 5, [(2, 1), (2437, 1), (569003, 1)]⟩,
   ⟨72106336199, 2, [(2773320623, 1)]⟩,
   ⟨75445702479781427272750846543864801, 2, [(72106336199, 1), (1919519569386763, 1)]⟩,
   ⟨31757755568855353, 10, [(2, 3), (3, 1), (31, 1), (107, 1), (223, 1), (4153, 1)]⟩,
   ⟨74058212732561358302231226437062788676166966415465897661863160754340907, 2, [(31757755568855353, 1), (75445702479781427272750846543864801, 1)]⟩,
   ⟨57896044618658097711785492504343953926634992332820282019728792003956564819949, 2, [(74058212732561358302231226437062788676166966415465897661863160754340907, 1)]⟩]

/-- Certificates, part 6. -/
def certificates6 : List Certificate :=
  [⟨1335912079, 6, [(2, 1), (3, 1), (19, 1), (31, 1), (61, 1)]⟩,
   ⟨32061889897, 2, [(1335912079, 1)]⟩,
   ⟨25136521679249, 2, [(32061889897, 1)]⟩,
   ⟨1255525949, 2, [(2, 2), (2683, 1), (116989, 1)]⟩,
   ⟨37414057161322375957408148834323969, 3, [(1255525949, 1), (25136521679249, 1)]⟩,
   ⟨1764234391, 3, [(2, 1), (3, 1), (5, 1), (271, 1), (217003, 1)]⟩,
   ⟨34741861125639557, 2, [(1764234391, 1)]⟩,
   ⟨36131535570665139281, 2, [(34741861125639557, 1)]⟩,
   ⟨596242599987116128415063, 3, [(36131535570665139281, 1)]⟩,
   ⟨97859369123353, 5, [(2, 3), (3, 2), (67, 1), (197, 1), (271, 1)]⟩,
   ⟨167773885276849215533569, 3, [(97859369123353, 1)]⟩,
   ⟨726838724295606890549323807888004534353641360687318060281490199180612328166730772686396383698676545930088884461843637361053498018365439, 2, [(167773885276849215533569, 1), (596242599987116128415063, 1), (37414057161322375957408148834323969, 1)]⟩]

/-- Certificates, part 7. -/
def certificates7 : List Certificate :=
  [⟨4773264379806847, 3, [(2, 1), (3, 1), (7, 1), (11, 1), (823, 1), (34511, 1)]⟩,
   ⟨3079049, 3, [(2, 3), (7, 1), (54983, 1)]⟩,
   ⟨6158099, 2, [(3079049, 1)]⟩,
   ⟨66013261729388519804782124120027, 2, [(6158099, 1), (4773264379806847, 1)]⟩,
   ⟨417514796639753, 3, [(2, 3), (7, 1), (367, 1), (2473, 1)]⟩,
   ⟨115792089210356248756420345214020892766250353991924191454421193933289684991999, 2, [(417514796639753, 1), (66013261729388519804782124120027, 1)]⟩,
   ⟨1263766531, 10, [(2, 1), (3, 1), (5, 1), (13, 1), (911, 1)]⟩,
   ⟨35385462869, 2, [(1263766531, 1)]⟩,
   ⟨2480874801745591, 2, [(35385462869, 1)]⟩,
   ⟨173171039, 13, [(2, 1), (73, 1), (89, 1), (13327, 1)]⟩,
   ⟨13427688667394608761327070753331941386769, 2, [(173171039, 1), (2480874801745591, 1)]⟩,
   ⟨21888242871839275222246405745257275088696311157297823662689037894645226208583, 2, [(13427688667394608761327070753331941386769, 1)]⟩]

/-- Certificates, part 8. -/
def certificates8 : List Certificate :=
  [⟨3819663927398918131021, 6, [(2, 2), (3, 2), (5, 1), (19, 1), (113, 1), (755057, 1)]⟩,
   ⟨1125266252156850182658904441386709967, 2, [(3819663927398918131021, 1)]⟩,
   ⟨15778400344354997994418419698270088123916926905054652752758194827714659, 2, [(1125266252156850182658904441386709967, 1)]⟩,
   ⟨4002409555221667393417789825735904156556882819939007885332058136124031650490837864442687629129015664037894272559787, 2, [(15778400344354997994418419698270088123916926905054652752758194827714659, 1)]⟩,
   ⟨18446744069414584321, 7, [(2, 32)]⟩,
   ⟨2147483647, 7, [(2, 1), (3, 2), (7, 1), (11, 1), (31, 1), (151, 1)]⟩,
   ⟨2305843009213693951, 29, [(2, 1), (3, 2), (5, 2), (7, 1), (11, 1), (13, 1), (31, 1), (41, 1), (61, 1)]⟩,
   ⟨618970019642690137449562111, 3, [(2, 1), (3, 1), (5, 1), (17, 1), (23, 1), (89, 1), (353, 1), (397, 1), (683, 1)]⟩,
   ⟨67254877, 2, [(2, 2), (3, 2), (13, 1), (131, 1)]⟩,
   ⟨28059810762433, 3, [(67254877, 1)]⟩,
   ⟨20394401, 3, [(2, 5), (5, 2), (13, 1)]⟩,
   ⟨162259276829213363391578010288127, 3, [(20394401, 1), (28059810762433, 1)]⟩]

/-- Certificates, part 9. -/
def certificates9 : List Certificate :=
  [⟨170141183460469231731687303715884105727, 43, [(2, 1), (3, 3), (7, 2), (19, 1), (43, 1), (73, 1), (127, 1), (337, 1), (5419, 1), (92737, 1)]⟩,
   ⟨22605091, 11, [(2, 1), (3, 1), (5, 1), (23, 1), (181, 1)]⟩,
   ⟨4294967291, 2, [(22605091, 1)]⟩,
   ⟨5594472617641, 13, [(2, 3), (3, 1), (5, 1), (1427, 1), (2131, 1)]⟩,
   ⟨18446744073709551557, 2, [(5594472617641, 1)]⟩,
   ⟨62826870453001, 11, [(2, 3), (3, 1), (5, 3), (73, 1), (13147, 1)]⟩,
   ⟨340282366920938463463374607431768211297, 2, [(10253, 1), (29333, 1), (62826870453001, 1)]⟩,
   ⟨198591845047, 3, [(2, 1), (3, 1), (7, 1), (17, 2), (941, 1)]⟩,
   ⟨269400181, 6, [(2, 2), (3, 1), (5, 1), (7, 1), (229, 1)]⟩,
   ⟨5926803983, 2, [(269400181, 1)]⟩,
   ⟨379959277835395773058806460021, 2, [(5926803983, 1), (198591845047, 1)]⟩,
   ⟨1461501637330902918203684832716283019655932542929, 2, [(379959277835395773058806460021, 1)]⟩]

/-- Certificates, part 10. -/
def certificates10 : List Certificate :=
  [⟨17209333, 17, [(2, 2), (3, 2), (7, 1), (47, 1)]⟩,
   ⟨98678315423, 2, [(17209333, 1)]⟩,
   ⟨30635543695337469407, 2, [(98678315423, 1)]⟩,
   ⟨2109115271266996243743892358039663, 2, [(30635543695337469407, 1)]⟩,
   ⟨187964352975314705242455686948494766561, 2, [(2109115271266996243743892358039663, 1)]⟩,
   ⟨6277101735386680763835789423207666416102355444464034512659, 2, [(187964352975314705242455686948494766561, 1)]⟩,
   ⟨33268033, 5, [(2, 6), (3, 2), (7, 1), (37, 1)]⟩,
   ⟨5112697847507, 2, [(33268033, 1)]⟩,
   ⟨2077756847362348863128179, 3, [(5112697847507, 1)]⟩,
   ⟨88736771, 2, [(2, 1), (5, 1), (17, 1), (521981, 1)]⟩,
   ⟨5895671065241, 2, [(88736771, 1)]⟩,
   ⟨11791342130483, 2, [(5895671065241, 1)]⟩]

/-- Certificates, part 11. -/
def certificates11 : List Certificate :=
  [⟨16910977804748891839, 2, [(11791342130483, 1)]⟩,
   ⟨870035986098720987332873, 3, [(16910977804748891839, 1)]⟩,
   ⟨26959946667150639794667015087019630673637144422540572481103610249153, 2, [(870035986098720987332873, 1), (2077756847362348863128179, 1)]⟩,
   ⟨14220365526706201077871, 6, [(2, 1), (3, 2), (5, 1), (23, 1), (2221, 1), (36151, 1)]⟩,
   ⟨10262543633, 3, [(2, 4), (11, 1), (83, 1), (702529, 1)]⟩,
   ⟨246301047193, 2, [(10262543633, 1)]⟩,
   ⟨68964293214041, 2, [(246301047193, 1)]⟩,
   ⟨23236691026952546459, 2, [(68964293214041, 1)]⟩,
   ⟨440208639276132997491800604758226661590679912188273141493, 2, [(23236691026952546459, 1), (14220365526706201077871, 1)]⟩,
   ⟨115792089237316195423570985008687907853269984665640564039457584007913129639747, 2, [(440208639276132997491800604758226661590679912188273141493, 1)]⟩,
   ⟨28269077, 2, [(2, 2), (11, 1), (71, 1), (9049, 1)]⟩,
   ⟨1014371, 7, [(2, 1), (5, 1), (7, 1), (43, 1)]⟩]

/-- Certificates, part 12. -/
def certificates12 : List Certificate :=
  [⟨122443667236771091, 2, [(1014371, 1), (28269077, 1)]⟩,
   ⟨134447799485329655219459, 2, [(122443667236771091, 1)]⟩,
   ⟨13074689, 3, [(2, 8), (11, 1), (4643, 1)]⟩,
   ⟨26993582833513264323154344231914253569669986507, 2, [(13074689, 1), (134447799485329655219459, 1)]⟩,
   ⟨2080245395128545419440348524823604333332152003141105330979475931803069461, 2, [(26993582833513264323154344231914253569669986507, 1)]⟩,
   ⟨39402006196394479212279040100143613805079739270465446667948293404245721771497210611414266254884915640806627990306499, 2, [(2080245395128545419440348524823604333332152003141105330979475931803069461, 1)]⟩]

/-- Certificates of the listed moduli and of the primes they rest on, each after those it uses. -/
def certificates : List Certificate :=
  certificates1 ++ certificates2 ++ certificates3 ++ certificates4 ++ certificates5 ++ certificates6 ++ certificates7 ++ certificates8 ++ certificates9 ++ certificates10 ++ certificates11 ++ certificates12

theorem certificates_ok : certificatesOk [] certificates = true := by decide +kernel

theorem provedPrimes_certified :
    (provedPrimes.all fun p => (certificates.map Certificate.n).contains p && decide (p ≠ 2)) = true := by
  decide +kernel

/-- The listed moduli are odd primes. -/
theorem provedPrimes_prime {p : Nat} (h : p ∈ provedPrimes) : p.Prime ∧ p ≠ 2 := by
  have certified := List.all_eq_true.1 provedPrimes_certified p h
  simp only [Bool.and_eq_true, List.contains_eq_mem, decide_eq_true_eq, List.mem_map] at certified
  obtain ⟨⟨c, hc, rfl⟩, h2⟩ := certified
  exact ⟨primes_of_certificates certificates [] (by simp) certificates_ok c hc, h2⟩

/-! ### The premise on the modulus -/

/-- Fermat's test to the base 2 finds no odd prime composite. -/
theorem fermat_of_prime {n : Nat} (hp : n.Prime) (h2 : n ≠ 2) : 2 ^ (n - 1) % n = 1 := by
  have : Fact n.Prime := ⟨hp⟩
  have coprime : Nat.Coprime 2 n := (Nat.coprime_primes Nat.prime_two hp).2 h2.symm
  have := Nat.ModEq.pow_totient coprime
  rw [Nat.totient_prime hp] at this
  rw [this, Nat.mod_eq_of_lt hp.one_lt]

/-- `oddPrime` decides the premise of 00_scope.md R8 exactly. -/
theorem oddPrime_iff (n : Nat) : oddPrime n = true ↔ n.Prime ∧ n ≠ 2 := by
  constructor
  · intro h
    simp only [oddPrime, Bool.or_eq_true, Bool.and_eq_true, decide_eq_true_eq, List.contains_eq_mem] at h
    rcases h with listed | ⟨⟨⟨h2, odd⟩, -⟩, h⟩
    · exact provedPrimes_prime listed
    · exact ⟨prime_of_noOddDivisor h2 odd n 3 le_rfl rfl (fun k k3 _ lt => by omega) h, by omega⟩
  · rintro ⟨hp, h2⟩
    have two := hp.two_le
    have odd : n % 2 = 1 := hp.eq_two_or_odd.resolve_left h2
    have trial : noOddDivisor n 3 n = true := by
      obtain ⟨m, rfl⟩ : ∃ m, n = m + 1 := ⟨n - 1, by omega⟩
      exact noOddDivisor_of_prime hp m 3 le_rfl (by omega)
    have fermat : powMod n (n.log2 + 1) 2 (n - 1) = 1 := by
      rw [powMod_log2 _ _ _ (by omega), fermat_of_prime hp h2]
    have big : 2 < n := by omega
    simp [oddPrime, big, odd, fermat, trial]

theorem oddPrime_of_prime {n : Nat} (hp : n.Prime) (h2 : n ≠ 2) : oddPrime n = true := (oddPrime_iff n).2 ⟨hp, h2⟩

end Sys2Proof.Laws
end

