-- ==== Sys2Proof/Laws/Operands.lean ====
section
/-! SUPPORT. What each operand form answers: one lemma for each that says when it succeeds and with what, so that a
command's proof need not unfold the checks of 60_exceptions.md R173. -/

namespace Sys2Proof.Laws

open Sys2Proof.Machine

/-! ### The single checks -/

@[simp] theorem fieldIndex_fin (i : Fin 8) : fieldIndex i = .ok i := by simp [fieldIndex]

@[simp] theorem extIndex_fin (i : Fin 4) : extIndex i = .ok i := by simp [extIndex]

@[simp] theorem pointIndex_fin (i : Fin 4) : pointIndex i = .ok i := by simp [pointIndex]

theorem fieldIndex_ok {i : Nat} {j : Fin 8} : fieldIndex i = .ok j ↔ i = j := by
  unfold fieldIndex
  split
  · simp [Fin.ext_iff]
  · simp; omega

theorem extIndex_ok {i : Nat} {j : Fin 4} : extIndex i = .ok j ↔ i = j := by
  unfold extIndex
  split
  · simp [Fin.ext_iff]
  · simp; omega

theorem pointIndex_ok {i : Nat} {j : Fin 4} : pointIndex i = .ok j ↔ i = j := by
  unfold pointIndex
  split
  · simp [Fin.ext_iff]
  · simp; omega

/-- The modulus check passes exactly under the premise of 00_scope.md R8. -/
theorem modulus_ok {s : State} {p : Nat} : modulus s = .ok p ↔ valueOf s.p = some p ∧ p.Prime ∧ p ≠ 2 := by
  unfold modulus
  split
  · simp_all
  · rename_i v hv
    split
    · rename_i h
      have := (oddPrime_iff v).1 h
      constructor
      · rintro ⟨⟩; exact ⟨hv, this⟩
      · rintro ⟨h', -⟩; rw [hv] at h'; simpa using h'
    · rename_i h
      constructor
      · intro h'; simp at h'
      · rintro ⟨h', hp, h2⟩
        rw [hv, Option.some.injEq] at h'
        exact absurd (oddPrime_of_prime hp h2) (h' ▸ h)

theorem modulus_uninit {s : State} (h : valueOf s.p = none) : modulus s = .error (.raise .uninit) := by
  simp [modulus, h]

theorem modulus_refuse {s : State} {p : Nat} (h : valueOf s.p = some p) (bad : ¬ (p.Prime ∧ p ≠ 2)) :
    modulus s = .error (.refuse .modulusNotOddPrime) := by
  have : oddPrime p = false := by
    rw [← Bool.not_eq_true, oddPrime_iff]; exact bad
  simp [modulus, h, this]

theorem held_ok {a : List (Option Word)} {v : Nat} : held a = .ok v ↔ valueOf a = some v := by
  unfold held
  split <;> simp_all

theorem held_error {a : List (Option Word)} {e : Stop} :
    held a = .error e ↔ valueOf a = none ∧ e = .raise .uninit := by
  unfold held
  split <;> rename_i h <;> simp [h, eq_comm]

theorem below_ok {b v : Nat} : below b v = .ok () ↔ v < b := by
  unfold below
  split <;> simp_all

theorem pointInRange_ok {p : Nat} {q : Point} : pointInRange p q = .ok () ↔ q.reduced p = true := by
  unfold pointInRange
  split <;> simp_all

/-! ### The operand lists, where every check passes -/

variable {s : State} {p x y : Nat}

theorem operandsFF_of (d a : Fin 8) (hp : valueOf s.p = some p ∧ p.Prime ∧ p ≠ 2)
    (hx : valueOf s.f[a] = some x) (lx : x < p) : operandsFF s d a = .ok (d, p, x) := by
  have hm := modulus_ok.2 hp
  have h1 : heldField s a = .ok x := held_ok.2 hx
  have h2 := below_ok.2 lx
  simp [operandsFF, hm, h1, h2, bind, Except.bind, pure, Except.pure]

theorem operandsFFF_of (d a b : Fin 8) (hp : valueOf s.p = some p ∧ p.Prime ∧ p ≠ 2)
    (hx : valueOf s.f[a] = some x) (hy : valueOf s.f[b] = some y) (lx : x < p) (ly : y < p) :
    operandsFFF s d a b = .ok (d, p, x, y) := by
  have hm := modulus_ok.2 hp
  have h1 : heldField s a = .ok x := held_ok.2 hx
  have h2 : heldField s b = .ok y := held_ok.2 hy
  have h3 := below_ok.2 lx
  have h4 := below_ok.2 ly
  simp [operandsFFF, hm, h1, h2, h3, h4, bind, Except.bind, pure, Except.pure]

theorem operandsFE_of (d : Fin 8) (a : Fin 4) (hp : valueOf s.p = some p ∧ p.Prime ∧ p ≠ 2)
    (hx : valueOf s.e[a] = some x) (lx : x < p ^ 2) : operandsFE s d a = .ok (d, p, x) := by
  have hm := modulus_ok.2 hp
  have h1 : heldExt s a = .ok x := held_ok.2 hx
  have h2 := below_ok.2 lx
  simp [operandsFE, hm, h1, h2, bind, Except.bind, pure, Except.pure]

theorem operandsEFF_of (d : Fin 4) (a b : Fin 8) (hp : valueOf s.p = some p ∧ p.Prime ∧ p ≠ 2)
    (hx : valueOf s.f[a] = some x) (hy : valueOf s.f[b] = some y) (lx : x < p) (ly : y < p) :
    operandsEFF s d a b = .ok (d, p, x, y) := by
  have hm := modulus_ok.2 hp
  have h1 : heldField s a = .ok x := held_ok.2 hx
  have h2 : heldField s b = .ok y := held_ok.2 hy
  have h3 := below_ok.2 lx
  have h4 := below_ok.2 ly
  simp [operandsEFF, hm, h1, h2, h3, h4, bind, Except.bind, pure, Except.pure]

theorem operandsEEE_of (d a b : Fin 4) (hp : valueOf s.p = some p ∧ p.Prime ∧ p ≠ 2)
    (hx : valueOf s.e[a] = some x) (hy : valueOf s.e[b] = some y) (lx : x < p ^ 2) (ly : y < p ^ 2) :
    operandsEEE s d a b = .ok (d, p, x, y) := by
  have hm := modulus_ok.2 hp
  have h1 : heldExt s a = .ok x := held_ok.2 hx
  have h2 : heldExt s b = .ok y := held_ok.2 hy
  have h3 := below_ok.2 lx
  have h4 := below_ok.2 ly
  simp [operandsEEE, hm, h1, h2, h3, h4, bind, Except.bind, pure, Except.pure]

theorem operandsPP_of {q : Point} (d a : Fin 4) (hp : valueOf s.p = some p ∧ p.Prime ∧ p ≠ 2)
    (hq : logicalPoint s.pt[a] = .ok q) (lq : q.reduced p = true) : operandsPP s d a = .ok (d, p, q) := by
  have hm := modulus_ok.2 hp
  have h1 : heldPoint s a = .ok q := hq
  have h2 := pointInRange_ok.2 lq
  simp [operandsPP, hm, h1, h2, bind, Except.bind, pure, Except.pure]

theorem operandsPPP_of {q r : Point} (d a b : Fin 4) (hp : valueOf s.p = some p ∧ p.Prime ∧ p ≠ 2)
    (hq : logicalPoint s.pt[a] = .ok q) (hr : logicalPoint s.pt[b] = .ok r) (lq : q.reduced p = true)
    (lr : r.reduced p = true) : operandsPPP s d a b = .ok (d, p, q, r) := by
  have hm := modulus_ok.2 hp
  have h1 : heldPoint s a = .ok q := hq
  have h2 : heldPoint s b = .ok r := hr
  have h3 := pointInRange_ok.2 lq
  have h4 := pointInRange_ok.2 lr
  simp [operandsPPP, hm, h1, h2, h3, h4, bind, Except.bind, pure, Except.pure]

end Sys2Proof.Laws
end

