-- ==== Sys2Proof/Laws/Checks.lean ====
section
/-! SUPPORT. The operand lists beside the checks of 60_exceptions.md R173 as Sys2Proof/Safety.lean words them: which check
fails, or that all pass. -/

namespace Sys2Proof.Laws

open Sys2Proof.Machine

/-! ### One register -/

theorem logicalPoint_checked (r : PointReg) :
    (∃ q, logicalPoint r = .ok q ∧ r.unheld = none ∧ ∀ p, r.outOfRange p = !q.reduced p) ∨
      ∃ c, logicalPoint r = .error (.raise c) ∧ r.unheld = some c := by
  unfold logicalPoint PointReg.unheld PointReg.outOfRange
  cases r.tag with
  | none => exact .inr ⟨_, rfl, rfl⟩
  | some t =>
    have ht : t.toNat % 4 < 4 := Nat.mod_lt _ (by norm_num)
    simp only [tagState]
    generalize t.toNat % 4 = k at ht ⊢
    interval_cases k
    · exact .inl ⟨_, rfl, by simp [PointReg.coordinates], by simp [PointReg.coordinates, Point.reduced]⟩
    · cases hx : valueOf r.x <;> cases hy : valueOf r.y <;>
        simp [held, hx, hy, PointReg.coordinates, bind, Except.bind, pure, Except.pure, Point.reduced, ← decide_not]
    · cases hx : valueOf r.x <;> cases hy : valueOf r.y <;> cases hz : valueOf r.z <;>
        simp [held, hx, hy, hz, PointReg.coordinates, bind, Except.bind, pure, Except.pure, Point.reduced, ← decide_not,
          Bool.or_assoc]
    · exact .inr ⟨_, rfl, rfl⟩

theorem heldField_checked (s : State) (a : Fin 8) :
    (∃ v, heldField s a = .ok v ∧ s.unheld ⟨.F, a⟩ = none ∧ ∀ p, s.outOfRange p ⟨.F, a⟩ = decide (p ≤ v)) ∨
      (heldField s a = .error (.raise .uninit) ∧ s.unheld ⟨.F, a⟩ = some .uninit) := by
  cases h : valueOf s.f[a] <;> simp_all [heldField, held, State.unheld, State.outOfRange]

theorem heldExt_checked (s : State) (a : Fin 4) :
    (∃ v, heldExt s a = .ok v ∧ s.unheld ⟨.E, a⟩ = none ∧ ∀ p, s.outOfRange p ⟨.E, a⟩ = decide (p ^ 2 ≤ v)) ∨
      (heldExt s a = .error (.raise .uninit) ∧ s.unheld ⟨.E, a⟩ = some .uninit) := by
  cases h : valueOf s.e[a] <;> simp_all [heldExt, held, State.unheld, State.outOfRange]

theorem heldPoint_checked (s : State) (a : Fin 4) :
    (∃ q, heldPoint s a = .ok q ∧ s.unheld ⟨.PT, a⟩ = none ∧ ∀ p, s.outOfRange p ⟨.PT, a⟩ = !q.reduced p) ∨
      ∃ c, heldPoint s a = .error (.raise c) ∧ s.unheld ⟨.PT, a⟩ = some c := by
  simpa [heldPoint, State.unheld, State.outOfRange] using logicalPoint_checked s.pt[a]

/-! ### An operand list -/

variable {α : Type}

/-- What steps 3 and 4 of R173 make of an operand list `x` of a command with these sources, under the modulus `p`. -/
def SourcesChecked (s : State) (sources : List Register) (p : Nat) (x : Except Stop α) : Prop :=
  (∃ c, sources.findSome? s.unheld = some c ∧ x = .error (.raise c)) ∨
    (sources.findSome? s.unheld = none ∧ sources.any (s.outOfRange p) = true ∧ x = .error (.raise .operandRange)) ∨
    (sources.findSome? s.unheld = none ∧ sources.any (s.outOfRange p) = false ∧ ∃ v, x = .ok v)

/-- What steps 2 to 4 of R173 make of an operand list `x` of a command with these sources: a fault, the model's refusal, or
success. -/
def Checked (s : State) (sources : List Register) (x : Except Stop α) : Prop :=
  (valueOf s.p = none ∧ x = .error (.raise .uninit)) ∨
    ∃ p, valueOf s.p = some p ∧
      ((¬(p.Prime ∧ p ≠ 2) ∧ x = .error (.refuse .modulusNotOddPrime)) ∨
        (p.Prime ∧ p ≠ 2) ∧ SourcesChecked s sources p x)

theorem modulus_checked {s : State} {sources : List Register} {k : Nat → Except Stop α}
    (h : ∀ p, SourcesChecked s sources p (k p)) : Checked s sources (modulus s >>= k) := by
  cases hp : valueOf s.p with
  | none => exact .inl ⟨hp, by rw [modulus_uninit hp]; rfl⟩
  | some p =>
    refine .inr ⟨p, hp, ?_⟩
    by_cases h2 : p.Prime ∧ p ≠ 2
    · exact .inr ⟨h2, by rw [modulus_ok.2 ⟨hp, h2⟩]; exact h p⟩
    · exact .inl ⟨h2, by rw [modulus_refuse hp h2]; rfl⟩

theorem operandsFF_checked (s : State) (d a : Fin 8) : Checked s [⟨.F, a⟩] (operandsFF s d a) := by
  simp only [operandsFF, fieldIndex_fin]
  refine modulus_checked fun p => ?_
  rcases heldField_checked s a with ⟨v, h1, h2, h3⟩ | ⟨h1, h2⟩
  · by_cases hv : p ≤ v <;>
      simp [SourcesChecked, h1, h2, h3, hv, bind, Except.bind, below, Nat.not_lt.2, Nat.lt_of_not_le, pure, Except.pure]
  · simp [SourcesChecked, h1, h2, bind, Except.bind]

theorem operandsFE_checked (s : State) (d : Fin 8) (a : Fin 4) : Checked s [⟨.E, a⟩] (operandsFE s d a) := by
  simp only [operandsFE, fieldIndex_fin, extIndex_fin]
  refine modulus_checked fun p => ?_
  rcases heldExt_checked s a with ⟨v, h1, h2, h3⟩ | ⟨h1, h2⟩
  · by_cases hv : p ^ 2 ≤ v <;>
      simp [SourcesChecked, h1, h2, h3, hv, bind, Except.bind, below, Nat.not_lt.2, Nat.lt_of_not_le, pure, Except.pure]
  · simp [SourcesChecked, h1, h2, bind, Except.bind]

theorem operandsPP_checked (s : State) (d a : Fin 4) : Checked s [⟨.PT, a⟩] (operandsPP s d a) := by
  simp only [operandsPP, pointIndex_fin]
  refine modulus_checked fun p => ?_
  rcases heldPoint_checked s a with ⟨v, h1, h2, h3⟩ | ⟨c, h1, h2⟩
  · cases hv : v.reduced p <;>
      simp [SourcesChecked, h1, h2, h3, hv, bind, Except.bind, pointInRange, pure, Except.pure]
  · simp [SourcesChecked, h1, h2, bind, Except.bind]

theorem operandsFFF_checked (s : State) (d a b : Fin 8) : Checked s [⟨.F, a⟩, ⟨.F, b⟩] (operandsFFF s d a b) := by
  simp only [operandsFFF, fieldIndex_fin]
  refine modulus_checked fun p => ?_
  rcases heldField_checked s a with ⟨v, h1, h2, h3⟩ | ⟨h1, h2⟩ <;>
    rcases heldField_checked s b with ⟨u, g1, g2, g3⟩ | ⟨g1, g2⟩
  · by_cases hv : p ≤ v <;> by_cases hu : p ≤ u <;>
      simp [SourcesChecked, h1, h2, h3, hv, g1, g2, g3, hu, bind, Except.bind, below, Nat.not_lt.2, Nat.lt_of_not_le, pure,
        Except.pure]
  all_goals simp [SourcesChecked, h1, h2, g1, g2, bind, Except.bind]

theorem operandsEFF_checked (s : State) (d : Fin 4) (a b : Fin 8) :
    Checked s [⟨.F, a⟩, ⟨.F, b⟩] (operandsEFF s d a b) := by
  simp only [operandsEFF, fieldIndex_fin, extIndex_fin]
  refine modulus_checked fun p => ?_
  rcases heldField_checked s a with ⟨v, h1, h2, h3⟩ | ⟨h1, h2⟩ <;>
    rcases heldField_checked s b with ⟨u, g1, g2, g3⟩ | ⟨g1, g2⟩
  · by_cases hv : p ≤ v <;> by_cases hu : p ≤ u <;>
      simp [SourcesChecked, h1, h2, h3, hv, g1, g2, g3, hu, bind, Except.bind, below, Nat.not_lt.2, Nat.lt_of_not_le, pure,
        Except.pure]
  all_goals simp [SourcesChecked, h1, h2, g1, g2, bind, Except.bind]

theorem operandsEEE_checked (s : State) (d a b : Fin 4) : Checked s [⟨.E, a⟩, ⟨.E, b⟩] (operandsEEE s d a b) := by
  simp only [operandsEEE, extIndex_fin]
  refine modulus_checked fun p => ?_
  rcases heldExt_checked s a with ⟨v, h1, h2, h3⟩ | ⟨h1, h2⟩ <;>
    rcases heldExt_checked s b with ⟨u, g1, g2, g3⟩ | ⟨g1, g2⟩
  · by_cases hv : p ^ 2 ≤ v <;> by_cases hu : p ^ 2 ≤ u <;>
      simp [SourcesChecked, h1, h2, h3, hv, g1, g2, g3, hu, bind, Except.bind, below, Nat.not_lt.2, Nat.lt_of_not_le, pure,
        Except.pure]
  all_goals simp [SourcesChecked, h1, h2, g1, g2, bind, Except.bind]

theorem operandsPPP_checked (s : State) (d a b : Fin 4) : Checked s [⟨.PT, a⟩, ⟨.PT, b⟩] (operandsPPP s d a b) := by
  simp only [operandsPPP, pointIndex_fin]
  refine modulus_checked fun p => ?_
  rcases heldPoint_checked s a with ⟨v, h1, h2, h3⟩ | ⟨c, h1, h2⟩ <;>
    rcases heldPoint_checked s b with ⟨u, g1, g2, g3⟩ | ⟨c', g1, g2⟩
  · cases hv : v.reduced p <;> cases hu : u.reduced p <;>
      simp [SourcesChecked, h1, h2, h3, hv, g1, g2, g3, hu, bind, Except.bind, pointInRange, pure, Except.pure]
  all_goals simp [SourcesChecked, h1, h2, g1, g2, bind, Except.bind]

end Sys2Proof.Laws
end

