-- ==== Sys2Proof/Laws/Encoding.lean ====
section
/-! SUPPORT. The fields of a command word: what `encodeR3` and `encodeR2` put where, and what the masks of the opcode map
test. -/

namespace Sys2Proof.Laws

/-! ### Legal indexes (30_encoding.md R62) -/

@[simp] theorem legalField_iff {i : RegIndex} : legalField i = true ↔ i < 8 := decide_eq_true_iff

@[simp] theorem legalExt_iff {i : RegIndex} : legalExt i = true ↔ i < 4 := decide_eq_true_iff

@[simp] theorem legalPoint_iff {i : RegIndex} : legalPoint i = true ↔ i < 4 := decide_eq_true_iff

/-! ### The fields of an encoded word (30_encoding.md R61, R65) -/

theorem encodeR3_toNat {op d a b : Nat} (hop : op < 256) (hd : d < 16) (ha : a < 16) (hb : b < 16) :
    (encodeR3 op d a b).toNat = op * 2 ^ 24 + d * 2 ^ 20 + a * 2 ^ 16 + b * 2 ^ 12 := by
  rw [encodeR3, BitVec.toNat_ofNat, Nat.mod_eq_of_lt (by omega)]

theorem bits_encodeR3 {op d a b : Nat} (hop : op < 256) (hd : d < 16) (ha : a < 16) (hb : b < 16) :
    bits (encodeR3 op d a b) 31 24 = op ∧ bits (encodeR3 op d a b) 23 20 = d ∧ bits (encodeR3 op d a b) 19 16 = a ∧
      bits (encodeR3 op d a b) 15 12 = b ∧ bits (encodeR3 op d a b) 11 0 = 0 := by
  simp only [bits, encodeR3_toNat hop hd ha hb]
  omega

theorem bits_encodeR2 {op d a : Nat} (hop : op < 256) (hd : d < 16) (ha : a < 16) :
    bits (encodeR2 op d a) 31 24 = op ∧ bits (encodeR2 op d a) 23 20 = d ∧ bits (encodeR2 op d a) 19 16 = a ∧
      bits (encodeR2 op d a) 15 0 = 0 := by
  simp only [encodeR2, bits, encodeR3_toNat hop hd ha (by norm_num : 0 < 16)]
  omega

/-- A word whose bits 11:0 are 0 is made of its other fields. -/
theorem eq_encodeR3 {w : Word} (low : bits w 11 0 = 0) :
    w = encodeR3 (bits w 31 24) (bits w 23 20) (bits w 19 16) (bits w 15 12) := by
  have := w.isLt
  apply BitVec.eq_of_toNat_eq
  simp only [bits] at low ⊢
  rw [encodeR3_toNat (by omega) (by omega) (by omega) (by omega)]
  omega

/-- A word whose bits 15:0 are 0 is made of its other fields. -/
theorem eq_encodeR2 {w : Word} (low : bits w 15 0 = 0) :
    w = encodeR2 (bits w 31 24) (bits w 23 20) (bits w 19 16) := by
  have := w.isLt
  apply BitVec.eq_of_toNat_eq
  simp only [bits] at low ⊢
  rw [encodeR2, encodeR3_toNat (by omega) (by omega) (by omega) (by norm_num)]
  omega

theorem bits_lt (w : Word) (hi lo : Nat) : bits w hi lo < 2 ^ (hi + 1 - lo) := Nat.mod_lt _ (by positivity)

/-! ### The masks (30_encoding.md R64) -/

/-- A mask that keeps the bits from 24 up and the bits below `n`. -/
theorem and_mask {w : Word} {n : Nat} {mask : Word} (hn : n ≤ 24)
    (hmask : mask.toNat = 2 ^ 24 * 255 + (2 ^ n - 1)) : (w &&& mask).toNat = 2 ^ 24 * bits w 31 24 + w.toNat % 2 ^ n := by
  have low {x : Nat} (h : x < 2 ^ n) : x < 2 ^ 24 := lt_of_lt_of_le h (Nat.pow_le_pow_right (by norm_num) hn)
  rw [BitVec.toNat_and, hmask]
  apply Nat.eq_of_testBit_eq
  intro i
  rw [Nat.testBit_and, Nat.testBit_two_pow_mul_add _ (low (Nat.mod_lt _ (by positivity))),
    Nat.testBit_two_pow_mul_add _ (low (Nat.sub_lt (by positivity) (by norm_num)))]
  by_cases h : i < 24
  · simp only [h, if_true, Nat.testBit_mod_two_pow, Nat.testBit_two_pow_sub_one]
    rw [Bool.and_comm]
  · have high : bits w 31 24 = w.toNat / 2 ^ 24 := by
      have := w.isLt
      simp only [bits]; omega
    have shift : w.toNat.testBit i = (w.toNat / 2 ^ 24).testBit (i - 24) := by
      rw [Nat.testBit_div_two_pow]; congr 1; omega
    simp only [h, if_false, high, ← shift]
    by_cases h' : i - 24 < 8
    · rw [show (255 : Nat) = 2 ^ 8 - 1 from rfl, Nat.testBit_two_pow_sub_one]
      simp [h']
    · have : w.toNat.testBit i = false :=
        Nat.testBit_lt_two_pow (lt_of_lt_of_le w.isLt (Nat.pow_le_pow_right (by norm_num) (by omega)))
      simp [this]

/-- The mask of format R3 tests the opcode and bits 11:0. -/
theorem maskR3_iff {w : Word} {op : Nat} {code : Word} (hcode : code.toNat = 2 ^ 24 * op) :
    w &&& 0xFF000FFF = code ↔ bits w 31 24 = op ∧ bits w 11 0 = 0 := by
  have := and_mask (w := w) (n := 12) (mask := 0xFF000FFF) (by norm_num) rfl
  rw [← BitVec.toNat_inj, this, hcode]
  simp only [bits]
  omega

/-- The mask of format R2 tests the opcode and bits 15:0. -/
theorem maskR2_iff {w : Word} {op : Nat} {code : Word} (hcode : code.toNat = 2 ^ 24 * op) :
    w &&& 0xFF00FFFF = code ↔ bits w 31 24 = op ∧ bits w 15 0 = 0 := by
  have := and_mask (w := w) (n := 16) (mask := 0xFF00FFFF) (by norm_num) rfl
  rw [← BitVec.toNat_inj, this, hcode]
  simp only [bits]
  omega

/-! ### The formats of the decoder -/

theorem checkIndexes_ok {i j : Instr} : checkIndexes i = .ok j ↔ j = i ∧ j.wf = true := by
  unfold checkIndexes
  split
  · rename_i h
    constructor
    · intro e; cases e; exact ⟨rfl, h⟩
    · rintro ⟨rfl, -⟩; rfl
  · rename_i h
    constructor
    · intro e; cases e
    · rintro ⟨rfl, h'⟩; exact absurd h' h

theorem decodeR3_ok {make : RegIndex → RegIndex → RegIndex → Instr} {w : Word} {i : Instr} :
    decodeR3 make w = .ok i ↔
      bits w 11 0 = 0 ∧ i = make (bits w 23 20) (bits w 19 16) (bits w 15 12) ∧ i.wf = true := by
  unfold decodeR3
  split <;> simp [*, checkIndexes_ok]

theorem decodeR2_ok {make : RegIndex → RegIndex → Instr} {w : Word} {i : Instr} :
    decodeR2 make w = .ok i ↔ bits w 15 0 = 0 ∧ i = make (bits w 23 20) (bits w 19 16) ∧ i.wf = true := by
  unfold decodeR2
  split <;> simp [*, checkIndexes_ok]

end Sys2Proof.Laws
end

