-- ==== Sys2Proof/Laws/State.lean ====
section
/-! SUPPORT. What each named operation on the state does to each field, so that no proof unfolds a record update. -/

namespace Sys2Proof.Laws

open Sys2Proof.Machine

/-! ### STATUS.DONE <- 1 -/

@[simp] theorem complete_len (s : State) : s.complete.len = s.len := rfl
@[simp] theorem complete_p (s : State) : s.complete.p = s.p := rfl
@[simp] theorem complete_f (s : State) : s.complete.f = s.f := rfl
@[simp] theorem complete_e (s : State) : s.complete.e = s.e := rfl
@[simp] theorem complete_pt (s : State) : s.complete.pt = s.pt := rfl
@[simp] theorem complete_cmd (s : State) : s.complete.cmd = s.cmd := rfl
@[simp] theorem complete_status (s : State) : s.complete.status = { s.status with done := true } := rfl
@[simp] theorem complete_fcmd (s : State) : s.complete.fcmd = s.fcmd := rfl
@[simp] theorem complete_pending (s : State) : s.complete.pending = s.pending := rfl
@[simp] theorem complete_answers (s : State) : s.complete.answers = s.answers := rfl

/-! ### Fault entry -/

@[simp] theorem raiseFault_len (c : Cause) (s : State) : (s.raiseFault c).len = s.len := rfl
@[simp] theorem raiseFault_p (c : Cause) (s : State) : (s.raiseFault c).p = s.p := rfl
@[simp] theorem raiseFault_f (c : Cause) (s : State) : (s.raiseFault c).f = s.f := rfl
@[simp] theorem raiseFault_e (c : Cause) (s : State) : (s.raiseFault c).e = s.e := rfl
@[simp] theorem raiseFault_pt (c : Cause) (s : State) : (s.raiseFault c).pt = s.pt := rfl
@[simp] theorem raiseFault_cmd (c : Cause) (s : State) : (s.raiseFault c).cmd = s.cmd := rfl
@[simp] theorem raiseFault_status (c : Cause) (s : State) :
    (s.raiseFault c).status = { done := false, fault := true, cause := causeCode c } := rfl
@[simp] theorem raiseFault_fcmd (c : Cause) (s : State) : (s.raiseFault c).fcmd = s.cmd := rfl
@[simp] theorem raiseFault_pending (c : Cause) (s : State) : (s.raiseFault c).pending = s.pending := rfl
@[simp] theorem raiseFault_answers (c : Cause) (s : State) : (s.raiseFault c).answers = s.answers := rfl

/-! ### Clearing the fault record -/

@[simp] theorem clearFault_len (s : State) : s.clearFault.len = s.len := rfl
@[simp] theorem clearFault_p (s : State) : s.clearFault.p = s.p := rfl
@[simp] theorem clearFault_f (s : State) : s.clearFault.f = s.f := rfl
@[simp] theorem clearFault_e (s : State) : s.clearFault.e = s.e := rfl
@[simp] theorem clearFault_pt (s : State) : s.clearFault.pt = s.pt := rfl
@[simp] theorem clearFault_cmd (s : State) : s.clearFault.cmd = s.cmd := rfl
@[simp] theorem clearFault_status (s : State) :
    s.clearFault.status = { s.status with fault := false, cause := 0 } := rfl
@[simp] theorem clearFault_fcmd (s : State) : s.clearFault.fcmd = 0 := rfl
@[simp] theorem clearFault_pending (s : State) : s.clearFault.pending = s.pending := rfl
@[simp] theorem clearFault_answers (s : State) : s.clearFault.answers = s.answers := rfl

/-! ### Writing results -/

@[simp] theorem writeField_len (s : State) (i : Fin 8) (v : Nat) : (s.writeField i v).len = s.len := rfl
@[simp] theorem writeField_p (s : State) (i : Fin 8) (v : Nat) : (s.writeField i v).p = s.p := rfl
@[simp] theorem writeField_f (s : State) (i : Fin 8) (v : Nat) :
    (s.writeField i v).f = s.f.set i (wordsOf s.len v) := rfl
@[simp] theorem writeField_e (s : State) (i : Fin 8) (v : Nat) : (s.writeField i v).e = s.e := rfl
@[simp] theorem writeField_pt (s : State) (i : Fin 8) (v : Nat) : (s.writeField i v).pt = s.pt := rfl
@[simp] theorem writeField_cmd (s : State) (i : Fin 8) (v : Nat) : (s.writeField i v).cmd = s.cmd := rfl
@[simp] theorem writeField_status (s : State) (i : Fin 8) (v : Nat) : (s.writeField i v).status = s.status := rfl
@[simp] theorem writeField_fcmd (s : State) (i : Fin 8) (v : Nat) : (s.writeField i v).fcmd = s.fcmd := rfl
@[simp] theorem writeField_pending (s : State) (i : Fin 8) (v : Nat) : (s.writeField i v).pending = s.pending := rfl
@[simp] theorem writeField_answers (s : State) (i : Fin 8) (v : Nat) : (s.writeField i v).answers = s.answers := rfl

@[simp] theorem writeExt_len (s : State) (i : Fin 4) (v : Nat) : (s.writeExt i v).len = s.len := rfl
@[simp] theorem writeExt_p (s : State) (i : Fin 4) (v : Nat) : (s.writeExt i v).p = s.p := rfl
@[simp] theorem writeExt_f (s : State) (i : Fin 4) (v : Nat) : (s.writeExt i v).f = s.f := rfl
@[simp] theorem writeExt_e (s : State) (i : Fin 4) (v : Nat) :
    (s.writeExt i v).e = s.e.set i (wordsOf (2 * s.len) v) := rfl
@[simp] theorem writeExt_pt (s : State) (i : Fin 4) (v : Nat) : (s.writeExt i v).pt = s.pt := rfl
@[simp] theorem writeExt_cmd (s : State) (i : Fin 4) (v : Nat) : (s.writeExt i v).cmd = s.cmd := rfl
@[simp] theorem writeExt_status (s : State) (i : Fin 4) (v : Nat) : (s.writeExt i v).status = s.status := rfl
@[simp] theorem writeExt_fcmd (s : State) (i : Fin 4) (v : Nat) : (s.writeExt i v).fcmd = s.fcmd := rfl
@[simp] theorem writeExt_pending (s : State) (i : Fin 4) (v : Nat) : (s.writeExt i v).pending = s.pending := rfl
@[simp] theorem writeExt_answers (s : State) (i : Fin 4) (v : Nat) : (s.writeExt i v).answers = s.answers := rfl

@[simp] theorem writePoint_len (s : State) (i : Fin 4) (r : Point) : (s.writePoint i r).len = s.len := rfl
@[simp] theorem writePoint_p (s : State) (i : Fin 4) (r : Point) : (s.writePoint i r).p = s.p := rfl
@[simp] theorem writePoint_f (s : State) (i : Fin 4) (r : Point) : (s.writePoint i r).f = s.f := rfl
@[simp] theorem writePoint_e (s : State) (i : Fin 4) (r : Point) : (s.writePoint i r).e = s.e := rfl
@[simp] theorem writePoint_pt (s : State) (i : Fin 4) (r : Point) :
    (s.writePoint i r).pt = s.pt.set i (pointReg s.len r) := rfl
@[simp] theorem writePoint_cmd (s : State) (i : Fin 4) (r : Point) : (s.writePoint i r).cmd = s.cmd := rfl
@[simp] theorem writePoint_status (s : State) (i : Fin 4) (r : Point) : (s.writePoint i r).status = s.status := rfl
@[simp] theorem writePoint_fcmd (s : State) (i : Fin 4) (r : Point) : (s.writePoint i r).fcmd = s.fcmd := rfl
@[simp] theorem writePoint_pending (s : State) (i : Fin 4) (r : Point) : (s.writePoint i r).pending = s.pending := rfl
@[simp] theorem writePoint_answers (s : State) (i : Fin 4) (r : Point) : (s.writePoint i r).answers = s.answers := rfl

/-! ### Resets -/

@[simp] theorem softReset_len (s : State) : s.softReset.len = s.len := rfl
@[simp] theorem softReset_p (s : State) : s.softReset.p = noWords s.len := rfl
@[simp] theorem softReset_f (s : State) : s.softReset.f = Vector.replicate 8 (noWords s.len) := rfl
@[simp] theorem softReset_e (s : State) : s.softReset.e = Vector.replicate 4 (noWords (2 * s.len)) := rfl
@[simp] theorem softReset_pt (s : State) : s.softReset.pt = Vector.replicate 4 (PointReg.unwritten s.len) := rfl
@[simp] theorem softReset_cmd (s : State) : s.softReset.cmd = 0 := rfl
@[simp] theorem softReset_status (s : State) :
    s.softReset.status = { done := false, fault := false, cause := 0 } := rfl
@[simp] theorem softReset_fcmd (s : State) : s.softReset.fcmd = 0 := rfl
@[simp] theorem softReset_pending (s : State) : s.softReset.pending = s.pending := rfl
@[simp] theorem softReset_answers (s : State) : s.softReset.answers = s.answers := rfl

/-! ### Answers -/

@[simp] theorem reply_len (s : State) (a : Answer) : (s.reply a).len = s.len := rfl
@[simp] theorem reply_p (s : State) (a : Answer) : (s.reply a).p = s.p := rfl
@[simp] theorem reply_f (s : State) (a : Answer) : (s.reply a).f = s.f := rfl
@[simp] theorem reply_e (s : State) (a : Answer) : (s.reply a).e = s.e := rfl
@[simp] theorem reply_pt (s : State) (a : Answer) : (s.reply a).pt = s.pt := rfl
@[simp] theorem reply_cmd (s : State) (a : Answer) : (s.reply a).cmd = s.cmd := rfl
@[simp] theorem reply_status (s : State) (a : Answer) : (s.reply a).status = s.status := rfl
@[simp] theorem reply_fcmd (s : State) (a : Answer) : (s.reply a).fcmd = s.fcmd := rfl
@[simp] theorem reply_pending (s : State) (a : Answer) : (s.reply a).pending = s.pending := rfl
@[simp] theorem reply_answers (s : State) (a : Answer) : (s.reply a).answers = a :: s.answers := rfl

/-! ### The launch of a program -/

@[simp] theorem launch_len (s : State) (b : Nat) (l : List Transaction) : (s.launch b l).len = s.len := rfl
@[simp] theorem launch_p (s : State) (b : Nat) (l : List Transaction) : (s.launch b l).p = s.p := rfl
@[simp] theorem launch_f (s : State) (b : Nat) (l : List Transaction) : (s.launch b l).f = s.f := rfl
@[simp] theorem launch_e (s : State) (b : Nat) (l : List Transaction) : (s.launch b l).e = s.e := rfl
@[simp] theorem launch_pt (s : State) (b : Nat) (l : List Transaction) : (s.launch b l).pt = s.pt := rfl
@[simp] theorem launch_cmd (s : State) (b : Nat) (l : List Transaction) : (s.launch b l).cmd = s.cmd := rfl
@[simp] theorem launch_status (s : State) (b : Nat) (l : List Transaction) : (s.launch b l).status = s.status := rfl
@[simp] theorem launch_fcmd (s : State) (b : Nat) (l : List Transaction) : (s.launch b l).fcmd = s.fcmd := rfl
@[simp] theorem launch_pending (s : State) (b : Nat) (l : List Transaction) :
    (s.launch b l).pending = l.filterMap (Transaction.fromHost b) := rfl
@[simp] theorem launch_answers (s : State) (b : Nat) (l : List Transaction) : (s.launch b l).answers = s.answers := rfl

/-! ### Host writes of data words change data registers only -/

@[simp] theorem setDataWord_len (s : State) (d : DataWord) (w : Word) : (s.setDataWord d w).len = s.len := by
  cases d <;> rfl
@[simp] theorem setDataWord_cmd (s : State) (d : DataWord) (w : Word) : (s.setDataWord d w).cmd = s.cmd := by
  cases d <;> rfl
@[simp] theorem setDataWord_status (s : State) (d : DataWord) (w : Word) : (s.setDataWord d w).status = s.status := by
  cases d <;> rfl
@[simp] theorem setDataWord_fcmd (s : State) (d : DataWord) (w : Word) : (s.setDataWord d w).fcmd = s.fcmd := by
  cases d <;> rfl
@[simp] theorem setDataWord_pending (s : State) (d : DataWord) (w : Word) :
    (s.setDataWord d w).pending = s.pending := by
  cases d <;> rfl
@[simp] theorem setDataWord_answers (s : State) (d : DataWord) (w : Word) :
    (s.setDataWord d w).answers = s.answers := by
  cases d <;> rfl

end Sys2Proof.Laws
end

