-- ==== Sys2Proof/Laws/Exec.lean ====
section
/-! SUPPORT. What a command can do, said once: the inversion lemmas of `conclude` and of `exec`. -/

namespace Sys2Proof.Laws

open Sys2Proof.Machine

/-- A command ends in a next state only by completing or by recording a fault in the state it began in. -/
theorem conclude_next {s t : State} {r : Except Stop State} (h : conclude s r = .next t) :
    (∃ u, r = .ok u ∧ t = u.complete) ∨ ∃ c, r = .error (.raise c) ∧ t = s.raiseFault c := by
  unfold conclude at h
  split at h
  · exact .inl ⟨_, rfl, by simpa using h.symm⟩
  · exact .inr ⟨_, rfl, by simpa using h.symm⟩
  · simp at h
  · simp at h

theorem conclude_ok {s u : State} {r : Except Stop State} (h : r = .ok u) : conclude s r = .next u.complete := by
  rw [h]; rfl

theorem conclude_raise {s : State} {c : Cause} {r : Except Stop State} (h : r = .error (.raise c)) :
    conclude s r = .next (s.raiseFault c) := by
  rw [h]; rfl

/-- Sequencing of checks: a success comes from a success of each part. -/
theorem bind_ok {α β : Type} {x : Except Stop α} {f : α → Except Stop β} {b : β} (h : (x >>= f) = .ok b) :
    ∃ a, x = .ok a ∧ f a = .ok b := by
  cases x with
  | ok a => exact ⟨a, rfl, h⟩
  | error e => simp [bind, Except.bind] at h

/-- A result `t` is `s` with the register `r` written and nothing else changed. -/
def WritesOnly (s : State) (r : Register) (t : State) : Prop :=
  (∃ d v, r = ⟨.F, (d : Fin 8)⟩ ∧ t = s.writeField d v) ∨ (∃ d v, r = ⟨.E, (d : Fin 4)⟩ ∧ t = s.writeExt d v) ∨
    ∃ d q, r = ⟨.PT, (d : Fin 4)⟩ ∧ t = s.writePoint d q

theorem operandsFF_destination {s : State} {i j : Nat} {d : Fin 8} {p x : Nat}
    (h : operandsFF s i j = .ok (d, p, x)) : i = d := by
  obtain ⟨d', h0, h⟩ := bind_ok h
  obtain ⟨_, -, h⟩ := bind_ok h
  obtain ⟨_, -, h⟩ := bind_ok h
  obtain ⟨_, -, h⟩ := bind_ok h
  obtain ⟨_, -, h⟩ := bind_ok h
  simp only [pure, Except.pure, Except.ok.injEq, Prod.mk.injEq] at h
  unfold fieldIndex at h0
  split at h0
  · rw [← h.1]; exact congrArg Fin.val (Except.ok.inj h0)
  · cases h0

theorem operandsFE_destination {s : State} {i j : Nat} {d : Fin 8} {p x : Nat}
    (h : operandsFE s i j = .ok (d, p, x)) : i = d := by
  obtain ⟨d', h0, h⟩ := bind_ok h
  obtain ⟨_, -, h⟩ := bind_ok h
  obtain ⟨_, -, h⟩ := bind_ok h
  obtain ⟨_, -, h⟩ := bind_ok h
  obtain ⟨_, -, h⟩ := bind_ok h
  simp only [pure, Except.pure, Except.ok.injEq, Prod.mk.injEq] at h
  unfold fieldIndex at h0
  split at h0
  · rw [← h.1]; exact congrArg Fin.val (Except.ok.inj h0)
  · cases h0

theorem operandsFFF_destination {s : State} {i j k : Nat} {d : Fin 8} {p x y : Nat}
    (h : operandsFFF s i j k = .ok (d, p, x, y)) : i = d := by
  obtain ⟨d', h0, h⟩ := bind_ok h
  obtain ⟨_, -, h⟩ := bind_ok h
  obtain ⟨_, -, h⟩ := bind_ok h
  obtain ⟨_, -, h⟩ := bind_ok h
  obtain ⟨_, -, h⟩ := bind_ok h
  obtain ⟨_, -, h⟩ := bind_ok h
  obtain ⟨_, -, h⟩ := bind_ok h
  obtain ⟨_, -, h⟩ := bind_ok h
  simp only [pure, Except.pure, Except.ok.injEq, Prod.mk.injEq] at h
  unfold fieldIndex at h0
  split at h0
  · rw [← h.1]; exact congrArg Fin.val (Except.ok.inj h0)
  · cases h0

theorem operandsEFF_destination {s : State} {i j k : Nat} {d : Fin 4} {p x y : Nat}
    (h : operandsEFF s i j k = .ok (d, p, x, y)) : i = d := by
  obtain ⟨d', h0, h⟩ := bind_ok h
  obtain ⟨_, -, h⟩ := bind_ok h
  obtain ⟨_, -, h⟩ := bind_ok h
  obtain ⟨_, -, h⟩ := bind_ok h
  obtain ⟨_, -, h⟩ := bind_ok h
  obtain ⟨_, -, h⟩ := bind_ok h
  obtain ⟨_, -, h⟩ := bind_ok h
  obtain ⟨_, -, h⟩ := bind_ok h
  simp only [pure, Except.pure, Except.ok.injEq, Prod.mk.injEq] at h
  unfold extIndex at h0
  split at h0
  · rw [← h.1]; exact congrArg Fin.val (Except.ok.inj h0)
  · cases h0

theorem operandsEEE_destination {s : State} {i j k : Nat} {d : Fin 4} {p x y : Nat}
    (h : operandsEEE s i j k = .ok (d, p, x, y)) : i = d := by
  obtain ⟨d', h0, h⟩ := bind_ok h
  obtain ⟨_, -, h⟩ := bind_ok h
  obtain ⟨_, -, h⟩ := bind_ok h
  obtain ⟨_, -, h⟩ := bind_ok h
  obtain ⟨_, -, h⟩ := bind_ok h
  obtain ⟨_, -, h⟩ := bind_ok h
  obtain ⟨_, -, h⟩ := bind_ok h
  obtain ⟨_, -, h⟩ := bind_ok h
  simp only [pure, Except.pure, Except.ok.injEq, Prod.mk.injEq] at h
  unfold extIndex at h0
  split at h0
  · rw [← h.1]; exact congrArg Fin.val (Except.ok.inj h0)
  · cases h0

theorem operandsPP_destination {s : State} {i j : Nat} {d : Fin 4} {p : Nat} {q : Point}
    (h : operandsPP s i j = .ok (d, p, q)) : i = d := by
  obtain ⟨d', h0, h⟩ := bind_ok h
  obtain ⟨_, -, h⟩ := bind_ok h
  obtain ⟨_, -, h⟩ := bind_ok h
  obtain ⟨_, -, h⟩ := bind_ok h
  obtain ⟨_, -, h⟩ := bind_ok h
  simp only [pure, Except.pure, Except.ok.injEq, Prod.mk.injEq] at h
  unfold pointIndex at h0
  split at h0
  · rw [← h.1]; exact congrArg Fin.val (Except.ok.inj h0)
  · cases h0

theorem operandsPPP_destination {s : State} {i j k : Nat} {d : Fin 4} {p : Nat} {q r : Point}
    (h : operandsPPP s i j k = .ok (d, p, q, r)) : i = d := by
  obtain ⟨d', h0, h⟩ := bind_ok h
  obtain ⟨_, -, h⟩ := bind_ok h
  obtain ⟨_, -, h⟩ := bind_ok h
  obtain ⟨_, -, h⟩ := bind_ok h
  obtain ⟨_, -, h⟩ := bind_ok h
  obtain ⟨_, -, h⟩ := bind_ok h
  obtain ⟨_, -, h⟩ := bind_ok h
  obtain ⟨_, -, h⟩ := bind_ok h
  simp only [pure, Except.pure, Except.ok.injEq, Prod.mk.injEq] at h
  unfold pointIndex at h0
  split at h0
  · rw [← h.1]; exact congrArg Fin.val (Except.ok.inj h0)
  · cases h0

variable {s t : State} {rd : Nat}

/-- What a command that writes a field register can do. -/
theorem toField_next {α : Type} {x : Except Stop (Fin 8 × α)} {v : α → Except Stop Nat}
    (destination : ∀ d a, x = .ok (d, a) → rd = d) (h : toField s x v = .next t) :
    (∃ u, WritesOnly s ⟨.F, rd⟩ u ∧ t = u.complete) ∨ ∃ c, t = s.raiseFault c := by
  rcases conclude_next h with ⟨u, hu, rfl⟩ | ⟨c, -, rfl⟩
  · obtain ⟨⟨d, a⟩, hx, hu⟩ := bind_ok hu
    obtain ⟨z, -, hu⟩ := bind_ok hu
    exact .inl ⟨u, .inl ⟨d, z, by rw [destination d a hx], (Except.ok.inj hu).symm⟩, rfl⟩
  · exact .inr ⟨c, rfl⟩

/-- What a command that writes an extended register can do. -/
theorem toExt_next {α : Type} {x : Except Stop (Fin 4 × α)} {v : α → Nat}
    (destination : ∀ d a, x = .ok (d, a) → rd = d) (h : toExt s x v = .next t) :
    (∃ u, WritesOnly s ⟨.E, rd⟩ u ∧ t = u.complete) ∨ ∃ c, t = s.raiseFault c := by
  rcases conclude_next h with ⟨u, hu, rfl⟩ | ⟨c, -, rfl⟩
  · obtain ⟨⟨d, a⟩, hx, hu⟩ := bind_ok hu
    exact .inl ⟨u, .inr (.inl ⟨d, _, by rw [destination d a hx], (Except.ok.inj hu).symm⟩), rfl⟩
  · exact .inr ⟨c, rfl⟩

/-- What a command that writes a point register can do. -/
theorem toPoint_next {α : Type} {x : Except Stop (Fin 4 × α)} {v : α → Point}
    (destination : ∀ d a, x = .ok (d, a) → rd = d) (h : toPoint s x v = .next t) :
    (∃ u, WritesOnly s ⟨.PT, rd⟩ u ∧ t = u.complete) ∨ ∃ c, t = s.raiseFault c := by
  rcases conclude_next h with ⟨u, hu, rfl⟩ | ⟨c, -, rfl⟩
  · obtain ⟨⟨d, a⟩, hx, hu⟩ := bind_ok hu
    exact .inl ⟨u, .inr (.inr ⟨d, _, by rw [destination d a hx], (Except.ok.inj hu).symm⟩), rfl⟩
  · exact .inr ⟨c, rfl⟩

theorem toField_of {α : Type} {x : Except Stop (Fin 8 × α)} {v : α → Except Stop Nat} {d : Fin 8} {a : α} {z : Nat}
    (hx : x = .ok (d, a)) (hz : v a = .ok z) : toField s x v = .next (s.writeField d z).complete := by
  subst hx; simp [toField, hz, conclude, bind, Except.bind, pure, Except.pure]

theorem toExt_of {α : Type} {x : Except Stop (Fin 4 × α)} {v : α → Nat} {d : Fin 4} {a : α}
    (hx : x = .ok (d, a)) : toExt s x v = .next (s.writeExt d (v a)).complete := by
  subst hx; rfl

theorem toPoint_of {α : Type} {x : Except Stop (Fin 4 × α)} {v : α → Point} {d : Fin 4} {a : α}
    (hx : x = .ok (d, a)) : toPoint s x v = .next (s.writePoint d (v a)).complete := by
  subst hx; rfl

/-- Everything a command can do when it answers a next state: it writes its destination register and sets `DONE`, or it
records one fault; no command does anything else (10_state.md R27, 60_exceptions.md R174, R175). -/
theorem exec_next {i : Instr} (h : exec i s = .next t) :
    (∃ u, WritesOnly s i.destination u ∧ t = u.complete) ∨ ∃ c, t = s.raiseFault c := by
  cases i with
  | finv d a => unfold exec execFinv at h; exact toField_next (fun _ _ h => operandsFF_destination h) h
  | fmul d a b => unfold exec execFmul at h; exact toField_next (fun _ _ h => operandsFFF_destination h) h
  | mmul d a b => unfold exec execMmul at h; exact toField_next (fun _ _ h => operandsFFF_destination h) h
  | fsqr d a => unfold exec execFsqr at h; exact toField_next (fun _ _ h => operandsFF_destination h) h
  | fred d a => unfold exec execFred at h; exact toField_next (fun _ _ h => operandsFE_destination h) h
  | fadd d a b => unfold exec execFadd at h; exact toField_next (fun _ _ h => operandsFFF_destination h) h
  | fsub d a b => unfold exec execFsub at h; exact toField_next (fun _ _ h => operandsFFF_destination h) h
  | fdbl d a => unfold exec execFdbl at h; exact toField_next (fun _ _ h => operandsFF_destination h) h
  | fneg d a => unfold exec execFneg at h; exact toField_next (fun _ _ h => operandsFF_destination h) h
  | mulx d a b => unfold exec execMulx at h; exact toExt_next (fun _ _ h => operandsEFF_destination h) h
  | subx d a b => unfold exec execSubx at h; exact toExt_next (fun _ _ h => operandsEEE_destination h) h
  | padd d a b => unfold exec execPadd at h; exact toPoint_next (fun _ _ h => operandsPPP_destination h) h
  | pdbl d a => unfold exec execPdbl at h; exact toPoint_next (fun _ _ h => operandsPP_destination h) h
  | pneg d a => unfold exec execPneg at h; exact toPoint_next (fun _ _ h => operandsPP_destination h) h
  | psub d a b => unfold exec execPsub at h; exact toPoint_next (fun _ _ h => operandsPPP_destination h) h
  | ptpl d a => unfold exec execPtpl at h; exact toPoint_next (fun _ _ h => operandsPP_destination h) h
  | pdbladd d a b => unfold exec execPdbladd at h; exact toPoint_next (fun _ _ h => operandsPPP_destination h) h

end Sys2Proof.Laws
end

