-- ==== Sys2Proof/Laws/Inversion.lean ====
section
/-! SUPPORT. What FINV's algorithm computes: one lemma for each of its parts (40_modular_inversion.md R83 to R86), and from
them that `invert` ends, raises no internal fault and answers the inverse. The spec observes this by runs (R87); here it
is proved. -/

namespace Sys2Proof.Laws

open Sys2Proof.Machine

/-! ### Tracked quantities (40_modular_inversion.md R82) -/

/-- The pair `(t, tc)` stands for the integer `T = t + tc * 2^N`, with `tc` a legal correction counter. -/
structure Tracks (len t : Nat) (tc T : Int) : Prop where
  low : t < wordsBound len
  counter : tc = 0 ∨ tc = -1
  eq : T = t + tc * wordsBound len

/-- A pair with a legal counter stands for its signed value, the form the statements use. -/
theorem tracks_signedValue {len t : Nat} {tc : Int} (low : t < wordsBound len) (counter : LegalCounter tc) :
    Tracks len t tc (signedValue len t tc) :=
  ⟨low, counter, by simp [signedValue, wordsBound]⟩

theorem Tracks.signedValue_eq {len t : Nat} {tc T : Int} (h : Tracks len t tc T) : signedValue len t tc = T := by
  rw [h.eq]; simp [signedValue, wordsBound]

/-- A counter is legal where the integer it stands for is between `-2^N` and `2^N`. -/
theorem tracks_of_range {len t : Nat} {tc T : Int} (low : t < wordsBound len) (eq : T = t + tc * wordsBound len)
    (lower : -(wordsBound len : Int) < T) (upper : T < wordsBound len) : Tracks len t tc T := by
  refine ⟨low, ?_, eq⟩
  have low' : (t : Int) < wordsBound len := by exact_mod_cast low
  have : -2 < tc := by
    by_contra h
    have : tc ≤ -2 := by omega
    nlinarith
  have : tc < 1 := by
    by_contra h
    have : 1 ≤ tc := by omega
    nlinarith
  omega

theorem Tracks.sign {len t : Nat} {tc T : Int} (h : Tracks len t tc T) : tc = -1 ↔ T < 0 := by
  have low : (t : Int) < wordsBound len := by exact_mod_cast h.low
  rcases h.counter with rfl | rfl <;> have := h.eq <;> constructor <;> intro <;> omega

/-- `nat_add` on the word of a tracked quantity (00_scope.md R12). -/
theorem natAdd_eq {len x y : Nat} (hx : x < wordsBound len) (hy : y < wordsBound len) :
    (natAdd len x y).1 < wordsBound len ∧
      ((natAdd len x y).1 : Int) + (natAdd len x y).2 * wordsBound len = x + y := by
  have pos : 0 < wordsBound len := by positivity
  refine ⟨Nat.mod_lt _ pos, ?_⟩
  simp only [natAdd]
  split
  · rename_i h
    rw [Nat.mod_eq_sub_mod h, Nat.mod_eq_of_lt (by omega), Nat.cast_sub h]
    push_cast; ring
  · rename_i h
    rw [Nat.mod_eq_of_lt (by omega)]
    push_cast; ring

/-- `nat_sub` on the word of a tracked quantity (00_scope.md R13). -/
theorem natSub_eq {len x y : Nat} (hx : x < wordsBound len) (hy : y < wordsBound len) :
    (natSub len x y).1 < wordsBound len ∧
      ((natSub len x y).1 : Int) + (natSub len x y).2 * wordsBound len = (x : Int) - y := by
  have pos : (0 : Int) < wordsBound len := by positivity
  have hx' : (x : Int) < wordsBound len := by exact_mod_cast hx
  have hy' : (y : Int) < wordsBound len := by exact_mod_cast hy
  have nonneg := Int.emod_nonneg ((x : Int) - y) pos.ne'
  have lt := Int.emod_lt_of_pos ((x : Int) - y) pos
  simp only [natSub]
  refine ⟨by omega, ?_⟩
  rw [Int.toNat_of_nonneg nonneg]
  split
  · rw [← Int.add_emod_right, Int.emod_eq_of_lt (by omega) (by omega)]; ring
  · rw [Int.emod_eq_of_lt (by omega) (by omega)]; ring

/-! ### `odd_reduce` (40_modular_inversion.md R83) -/

/-- The first loop ends, having divided `u` by a power of two until its low word is not 0. -/
theorem shiftWords_ok {uLen : Nat} : ∀ {turns u count : Nat}, 0 < u → u < wordsBound turns → u < wordsBound uLen →
    ∃ u' k, shiftWords uLen turns u count = .ok (u', count + k) ∧ u = u' * 2 ^ k ∧ u' % 2 ^ 32 ≠ 0
  | 0, u, _, pos, lt, _ => by simp [wordsBound] at lt; omega
  | turns + 1, u, count, pos, lt, bound => by
    have word : wordAt u 0 = u % 2 ^ 32 := by simp [wordAt, wordsBound]
    simp only [shiftWords, word]
    split
    · rename_i low
      have down : natShiftDownWord uLen u = u / 2 ^ 32 := by
        simp [natShiftDownWord, Nat.div_eq_of_lt bound, Nat.mod_eq_of_lt bound]
      have split : u = u / 2 ^ 32 * 2 ^ 32 := by omega
      have lt' : u / 2 ^ 32 < wordsBound turns := by
        rw [Nat.div_lt_iff_lt_mul (by norm_num), wordsBound, ← pow_add]
        exact lt
      obtain ⟨u', k, eq, prod, odd⟩ :=
        shiftWords_ok (count := count + 32) (by omega) lt' (lt_of_le_of_lt (Nat.div_le_self _ _) bound)
      refine ⟨u', 32 + k, ?_, ?_, odd⟩
      · rw [down, eq, Nat.add_assoc]
      · rw [split, prod, pow_add]; ring
    · rename_i low
      exact ⟨u, 0, rfl, by simp, low⟩

/-- `ctz32` counts the trailing zero bits (00_scope.md R16). -/
theorem trailingZeros_spec : ∀ {fuel w : Nat}, 0 < w → w < 2 ^ fuel →
    ∃ m, w = m * 2 ^ trailingZeros fuel w ∧ m % 2 = 1
  | 0, w, pos, lt => by simp at lt; omega
  | fuel + 1, w, pos, lt => by
    simp only [trailingZeros]
    split
    · rename_i odd
      exact ⟨w, by simp, odd⟩
    · obtain ⟨m, prod, odd⟩ := trailingZeros_spec (fuel := fuel) (w := w / 2) (by omega) (by omega)
      refine ⟨m, ?_, odd⟩
      have : w = w / 2 * 2 := by omega
      rw [pow_add, pow_one, ← mul_left_comm, ← prod]
      omega

theorem trailingZeros_lt : ∀ {fuel w : Nat}, 0 < w → w < 2 ^ fuel → trailingZeros fuel w < fuel
  | 0, w, pos, lt => by simp at lt; omega
  | fuel + 1, w, pos, lt => by
    simp only [trailingZeros]
    split
    · omega
    · have := trailingZeros_lt (fuel := fuel) (w := w / 2) (by omega) (by omega)
      omega

variable {len p : Nat}

/-- One halving keeps the counter legal, halves modulo `p`, and leaves a value below `p / 2` in size. -/
theorem halve_ok {t : Nat} {tc T : Int} (len_pos : 0 < len) (odd : p % 2 = 1) (bound : p < wordsBound len)
    (h : Tracks len t tc T) (lower : -(p : Int) < T) (upper : T < p) :
    ∃ t' tc' T', halve len p t tc = .ok (t', tc') ∧ Tracks len t' tc' T' ∧ 2 * T' ≡ T [ZMOD p] ∧
      -(p : Int) < 2 * T' ∧ 2 * T' < p := by
  obtain ⟨half, hhalf⟩ : ∃ half, wordsBound len = 2 * half := by
    refine ⟨2 ^ (32 * len - 1), ?_⟩
    rw [wordsBound, ← pow_succ']
    congr 1; omega
  have hpow : 2 ^ (32 * len - 1) = half := by
    have : wordsBound len = 2 * 2 ^ (32 * len - 1) := by
      rw [wordsBound, ← pow_succ']
      congr 1; omega
    omega
  have bound' : (p : Int) < wordsBound len := by exact_mod_cast bound
  -- the value after it is made even
  obtain ⟨e, ec, E, heq, tracks, cong, even, lo, hi⟩ : ∃ (e : Nat) (ec E : Int),
      (if t % 2 = 1 then
        if tc < 0 then ((natAdd len t p).1, tc + (natAdd len t p).2)
        else ((natSub len t p).1, tc + (natSub len t p).2)
      else (t, tc)) = (e, ec) ∧ Tracks len e ec E ∧ E ≡ T [ZMOD p] ∧ E % 2 = 0 ∧ -(p : Int) < E ∧ E < p := by
    have parity : T % 2 = (t : Int) % 2 := by
      have := h.eq
      rw [hhalf] at this
      push_cast at this
      rcases h.counter with rfl | rfl <;> omega
    have sign := h.sign
    split
    · rename_i todd
      have Todd : T % 2 = 1 := by omega
      split
      · rename_i neg
        obtain ⟨low, eq⟩ := natAdd_eq h.low bound
        have value : T + p = (natAdd len t p).1 + (tc + (natAdd len t p).2) * wordsBound len := by
          rw [h.eq]; linarith
        have T_neg : T < 0 := by rcases h.counter with rfl | rfl <;> omega
        exact ⟨_, _, T + p, rfl, tracks_of_range low value (by omega) (by omega), by simp [Int.ModEq], by omega,
          by omega, by omega⟩
      · rename_i nonneg
        obtain ⟨low, eq⟩ := natSub_eq h.low bound
        have value : T - p = (natSub len t p).1 + (tc + (natSub len t p).2) * wordsBound len := by
          rw [h.eq]; linarith
        have T_nonneg : 0 ≤ T := by rcases h.counter with rfl | rfl <;> omega
        exact ⟨_, _, T - p, rfl, tracks_of_range low value (by omega) (by omega), by simp [Int.ModEq], by omega,
          by omega, by omega⟩
    · exact ⟨t, tc, T, rfl, h, rfl, by omega, lower, upper⟩
  have low : (e : Int) < wordsBound len := by exact_mod_cast tracks.low
  have value := tracks.eq
  simp only [halve, heq, hpow]
  rw [hhalf] at value low
  push_cast at value low
  rcases tracks.counter with rfl | rfl
  · refine ⟨_, _, E / 2, rfl, ⟨?_, .inl rfl, ?_⟩, ?_, by omega, by omega⟩
    · rw [hhalf]; simp; omega
    · simp; omega
    · rwa [Int.mul_ediv_cancel' (by omega)]
  · refine ⟨_, _, E / 2, rfl, ⟨?_, .inr rfl, ?_⟩, ?_, by omega, by omega⟩
    · rw [hhalf]; simp; omega
    · rw [hhalf]; simp; omega
    · rwa [Int.mul_ediv_cancel' (by omega)]

/-- `count` halvings divide by `2^count` modulo `p`; with at least one, the value is below `p / 2` in size. -/
theorem halveTimes_ok (len_pos : 0 < len) (odd : p % 2 = 1) (bound : p < wordsBound len) :
    ∀ {count t : Nat} {tc T : Int}, Tracks len t tc T → -(p : Int) < T → T < p →
      ∃ t' tc' T', halveTimes len p count t tc = .ok (t', tc') ∧ Tracks len t' tc' T' ∧
        2 ^ count * T' ≡ T [ZMOD p] ∧ -(p : Int) < T' ∧ T' < p ∧ (0 < count → -(p : Int) < 2 * T' ∧ 2 * T' < p)
  | 0, t, tc, T, h, lower, upper => ⟨t, tc, T, rfl, h, by simp [Int.ModEq.refl], lower, upper, by omega⟩
  | count + 1, t, tc, T, h, lower, upper => by
    obtain ⟨t₁, tc₁, T₁, eq₁, h₁, cong₁, lo₁, hi₁⟩ := halve_ok len_pos odd bound h lower upper
    obtain ⟨t₂, tc₂, T₂, eq₂, h₂, cong₂, lo₂, hi₂, tight⟩ :=
      halveTimes_ok len_pos odd bound (count := count) h₁ (by omega) (by omega)
    refine ⟨t₂, tc₂, T₂, ?_, h₂, ?_, lo₂, hi₂, fun _ => ?_⟩
    · simp only [halveTimes, eq₁]
      exact eq₂
    · calc (2 : Int) ^ (count + 1) * T₂ = 2 * (2 ^ count * T₂) := by ring
        _ ≡ 2 * T₁ [ZMOD p] := cong₂.mul_left 2
        _ ≡ T [ZMOD p] := cong₁
    · rcases Nat.eq_zero_or_pos count with rfl | pos
      · simp only [halveTimes, Except.ok.injEq, Prod.mk.injEq] at eq₂
        have := h₁.eq; have := h₂.eq
        obtain ⟨rfl, rfl⟩ := eq₂
        omega
      · exact tight pos

/-- `odd_reduce` divides `u` by the power of two in it, and the tracked value by the same power modulo `p`. -/
theorem oddReduce_ok {u uLen t : Nat} {tc T : Int} (len_pos : 0 < len) (odd : p % 2 = 1) (bound : p < wordsBound len)
    (pos : 0 < u) (lt : u < wordsBound uLen) (h : Tracks len t tc T) (lower : -(p : Int) < T) (upper : T < p) :
    ∃ u' t' tc' T' c, oddReduce len p u uLen t tc = .ok (u', t', tc') ∧ u = u' * 2 ^ c ∧ u' % 2 = 1 ∧
      Tracks len t' tc' T' ∧ 2 ^ c * T' ≡ T [ZMOD p] ∧ -(p : Int) < T' ∧ T' < p ∧
      (u % 2 = 0 → -(p : Int) < 2 * T' ∧ 2 * T' < p) := by
  have lt' : u < wordsBound (uLen + 1) :=
    lt_of_lt_of_le lt (Nat.pow_le_pow_right (by norm_num) (by omega))
  obtain ⟨u₁, k, eq, prod, low⟩ := shiftWords_ok (count := 0) pos lt' lt
  have word : wordAt u₁ 0 = u₁ % 2 ^ 32 := by simp [wordAt, wordsBound]
  have word_pos : 0 < u₁ % 2 ^ 32 := by omega
  have word_lt : u₁ % 2 ^ 32 < 2 ^ 32 := Nat.mod_lt _ (by norm_num)
  obtain ⟨m, hm, m_odd⟩ := trailingZeros_spec word_pos word_lt
  have zeros := trailingZeros_lt word_pos word_lt
  obtain ⟨z, hz⟩ : ∃ z, trailingZeros 32 (u₁ % 2 ^ 32) = z := ⟨_, rfl⟩
  rw [hz] at hm zeros
  obtain ⟨u₂, hu₂, u₂_odd⟩ : ∃ u₂, u₁ = u₂ * 2 ^ z ∧ u₂ % 2 = 1 := by
    refine ⟨u₁ / 2 ^ 32 * 2 ^ (32 - z) + m, ?_, ?_⟩
    · have : 2 ^ 32 = 2 ^ (32 - z) * 2 ^ z := by rw [← pow_add]; congr 1; omega
      calc u₁ = u₁ / 2 ^ 32 * 2 ^ 32 + u₁ % 2 ^ 32 := by omega
        _ = u₁ / 2 ^ 32 * (2 ^ (32 - z) * 2 ^ z) + m * 2 ^ z := by rw [← this, hm]
        _ = _ := by ring
    · have : 2 ^ (32 - z) = 2 * 2 ^ (31 - z) := by rw [← pow_succ']; congr 1; omega
      rw [this, ← mul_left_comm]; omega
  have u₁_lt : u₁ < wordsBound uLen := by
    refine lt_of_le_of_lt ?_ lt
    rw [prod]; exact Nat.le_mul_of_pos_right _ (by positivity)
  have down : (if 0 < z then natShiftDownBits uLen u₁ z else u₁) = u₂ := by
    split
    · rw [natShiftDownBits, Nat.div_eq_of_lt u₁_lt, Nat.mod_eq_of_lt u₁_lt, hu₂]
      simp
    · have : z = 0 := by omega
      rw [hu₂, this]; simp
  obtain ⟨t', tc', T', eq', h', cong, lo, hi, tight⟩ :=
    halveTimes_ok len_pos odd bound (count := 0 + k + z) h lower upper
  refine ⟨u₂, t', tc', T', 0 + k + z, ?_, ?_, u₂_odd, h', cong, lo, hi, fun even => tight ?_⟩
  · unfold oddReduce
    rw [eq]
    simp only [bind, Except.bind, word, ctz32, hz, down, eq']
    rfl
  · rw [prod, hu₂, pow_add, pow_add]; ring
  · by_contra none
    have : k = 0 ∧ z = 0 := by omega
    rw [prod, hu₂, this.1, this.2] at even
    simp at even
    omega

/-! ### The main loop and the whole algorithm (40_modular_inversion.md R84 to R86) -/

/-- A word array whose top word is 0 fits in one word fewer. -/
theorem top_word_zero {w n : Nat} (hw : w < wordsBound (n + 1)) (zero : wordAt w n = 0) : w < wordsBound n := by
  have pos : 0 < wordsBound n := by positivity
  have top : w / wordsBound n < 2 ^ 32 := by
    rw [Nat.div_lt_iff_lt_mul pos, ← pow_add]
    exact lt_of_lt_of_eq hw (congrArg (2 ^ ·) (by ring))
  rw [wordAt, Nat.mod_eq_of_lt top, Nat.div_eq_zero_iff] at zero
  omega

/-- Shrinking the active length loses no word of `u` or `v`. -/
theorem shrink_keeps {u v n : Nat} (hu : u < wordsBound n) (hv : v < wordsBound n) :
    u < wordsBound (shrink u v n) ∧ v < wordsBound (shrink u v n) := by
  induction n with
  | zero => rw [shrink]; exact ⟨hu, hv⟩
  | succ n ih =>
    cases n with
    | zero => rw [shrink]; exact ⟨hu, hv⟩
    | succ n =>
      rw [shrink]
      split
      · rename_i zero
        exact ih (top_word_zero hu zero.1) (top_word_zero hv zero.2)
      · exact ⟨hu, hv⟩

/-- Finalisation of a tracked inverse answers its representative in `[1, p - 1]`. -/
theorem finalise_spec {x t : Nat} {tc T : Int} (one : 1 < p) (bound : p < wordsBound len) (h : Tracks len t tc T)
    (lower : -(p : Int) < T) (upper : T < p) (cong : T * x ≡ 1 [ZMOD p]) :
    1 ≤ finalise len p t tc ∧ finalise len p t tc < p ∧ finalise len p t tc * x % p = 1 := by
  have bound' : (p : Int) < wordsBound len := by exact_mod_cast bound
  obtain ⟨z, hz, z_cong, nonneg, lt⟩ : ∃ z : Int, (finalise len p t tc : Int) = z ∧ z ≡ T [ZMOD p] ∧ 0 ≤ z ∧ z < p := by
    have sign := h.sign
    unfold finalise
    split
    · have : tc = -1 := by rcases h.counter with rfl | rfl <;> omega
      subst this
      obtain ⟨low, eq⟩ := natAdd_eq h.low bound
      have T_neg := sign.1 rfl
      have value := h.eq
      have tracks := tracks_of_range (tc := -1 + (natAdd len t p).2) (T := T + p) low (by rw [value]; linarith)
        (by omega) (by omega)
      have counter : -1 + (natAdd len t p).2 = 0 := by
        have := tracks.sign
        rcases tracks.counter with h | h <;> omega
      have eq' := tracks.eq
      rw [counter] at eq'
      refine ⟨T + p, by omega, by simp [Int.ModEq], by omega, by omega⟩
    · have : tc = 0 := by rcases h.counter with rfl | rfl <;> omega
      subst this
      have value := h.eq
      exact ⟨T, by omega, rfl, by omega, upper⟩
  have prod : ((finalise len p t tc * x : Nat) : Int) ≡ 1 [ZMOD p] := by
    push_cast
    rw [hz]
    exact (z_cong.mul_right _).trans cong
  have last : finalise len p t tc * x % p = 1 := by
    have : (finalise len p t tc * x) ≡ 1 [MOD p] := (Int.natCast_modEq_iff).1 (by exact_mod_cast prod)
    rw [this, Nat.mod_eq_of_lt one]
  refine ⟨?_, by omega, last⟩
  by_contra zero
  have : finalise len p t tc = 0 := by omega
  rw [this] at last
  simp at last

/-- Half the odd part: what a power of two can be cancelled from modulo an odd `p`. -/
theorem cancel_pow_two {a b : Int} {c : Nat} (odd : p % 2 = 1) (h : 2 ^ c * a ≡ 2 ^ c * b [ZMOD p]) :
    a ≡ b [ZMOD p] := by
  have cop : IsCoprime (p : Int) (2 ^ c) := by
    refine IsCoprime.pow_right ?_
    have : IsCoprime (p : Int) ((2 : Nat) : Int) := Nat.isCoprime_iff_coprime.2 ?_
    · exact_mod_cast this
    exact (Nat.coprime_two_right).2 (Nat.odd_iff.2 odd)
  rw [Int.modEq_iff_dvd, ← mul_sub] at h
  exact Int.modEq_iff_dvd.2 (cop.dvd_of_dvd_mul_left h)

/-- One side of a turn of the main loop: `u - v` odd-reduced, with the tracked difference of the companions. -/
theorem turn_ok {x u v a b uLen : Nat} {ac A bc B : Int} (len_pos : 0 < len) (odd : p % 2 = 1)
    (bound : p < wordsBound len) (less : v < u) (v_pos : 0 < v) (u_odd : u % 2 = 1) (v_odd : v % 2 = 1)
    (hu : u < wordsBound len) (active : u < wordsBound uLen) (cop : Nat.Coprime u v)
    (ha : Tracks len a ac A) (hb : Tracks len b bc B) (A_tight : -(p : Int) < 2 * A ∧ 2 * A < p)
    (B_tight : -(p : Int) < 2 * B ∧ 2 * B < p) (Ax : A * x ≡ u [ZMOD p]) (Bx : B * x ≡ v [ZMOD p]) :
    ∃ u' a' ac' A', oddReduce len p (natSub len u v).1 uLen (natSub len a b).1 (ac + (natSub len a b).2 - bc) =
        .ok (u', a', ac') ∧
      u' % 2 = 1 ∧ 2 * u' < u ∧ Nat.Coprime u' v ∧ Tracks len a' ac' A' ∧ (-(p : Int) < 2 * A' ∧ 2 * A' < p) ∧
      A' * x ≡ u' [ZMOD p] := by
  have bound' : (p : Int) < wordsBound len := by exact_mod_cast bound
  have diff : (natSub len u v).1 = u - v := by
    have : ((u : Int) - v) % wordsBound len = (u - v : Nat) := by
      have hu' : (u : Int) < wordsBound len := by exact_mod_cast hu
      rw [Nat.cast_sub less.le]
      exact Int.emod_eq_of_lt (by omega) (by omega)
    simp only [natSub, this, Int.toNat_natCast]
  obtain ⟨low, eq⟩ := natSub_eq ha.low hb.low
  have tracks : Tracks len (natSub len a b).1 (ac + (natSub len a b).2 - bc) (A - B) := by
    have := ha.eq; have := hb.eq
    exact tracks_of_range low (by rw [ha.eq, hb.eq]; linarith) (by omega) (by omega)
  obtain ⟨u', a', ac', A', c, red, prod, odd', tracks', cong, -, -, tight⟩ :=
    oddReduce_ok (u := u - v) (uLen := uLen) len_pos odd bound (by omega) (by omega) tracks (by omega) (by omega)
  have c_pos : 0 < c := by
    by_contra zero
    have : c = 0 := by omega
    subst this
    simp at prod
    omega
  refine ⟨u', a', ac', A', by rw [diff]; exact red, odd', ?_, ?_, tracks', tight (by omega), ?_⟩
  · obtain ⟨c', rfl⟩ : ∃ c', c = c' + 1 := ⟨c - 1, by omega⟩
    have : u' ≤ u' * 2 ^ c' := Nat.le_mul_of_pos_right _ (by positivity)
    rw [pow_succ, ← mul_assoc] at prod
    omega
  · have : Nat.Coprime (u - v) v := (Nat.coprime_sub_self_left less.le).2 cop
    exact Nat.Coprime.coprime_dvd_left ⟨2 ^ c, prod⟩ this
  · apply cancel_pow_two (c := c) odd
    calc (2 : Int) ^ c * (A' * x) = 2 ^ c * A' * x := by ring
      _ ≡ (A - B) * x [ZMOD p] := cong.mul_right _
      _ = A * x - B * x := by ring
      _ ≡ u - v [ZMOD p] := Ax.sub Bx
      _ = ((u - v : Nat) : Int) := by rw [Nat.cast_sub less.le]
      _ = 2 ^ c * (u' : Int) := by rw [prod]; push_cast; ring

/-- The main loop ends in the inverse, where the two sides are coprime and neither is 1 yet. -/
theorem inversionLoop_ok {x : Nat} (len_pos : 0 < len) (odd : p % 2 = 1) (one : 1 < p) (bound : p < wordsBound len) :
    ∀ {turns u a v b uvLen : Nat} {ac A bc B : Int}, u * v < 2 ^ turns → u ≠ 1 → v ≠ 1 → u % 2 = 1 → v % 2 = 1 →
      u < wordsBound len → v < wordsBound len → u < wordsBound uvLen → v < wordsBound uvLen → Nat.Coprime u v →
      Tracks len a ac A → Tracks len b bc B → (-(p : Int) < 2 * A ∧ 2 * A < p) → (-(p : Int) < 2 * B ∧ 2 * B < p) →
      A * x ≡ u [ZMOD p] → B * x ≡ v [ZMOD p] →
        ∃ z, inversionLoop len p turns u a ac v b bc uvLen = .ok z ∧ 1 ≤ z ∧ z < p ∧ z * x % p = 1
  | 0, u, a, v, b, uvLen, ac, A, bc, B, small, _, _, u_odd, v_odd, _, _, _, _, _, _, _, _, _, _, _ => by
    have : 0 < u * v := Nat.mul_pos (by omega) (by omega)
    simp at small
    omega
  | turns + 1, u, a, v, b, uvLen, ac, A, bc, B, small, u_ne, v_ne, u_odd, v_odd, hu, hv, u_act, v_act, cop, ha, hb,
      A_tight, B_tight, Ax, Bx => by
    obtain ⟨u_act', v_act'⟩ := shrink_keeps u_act v_act
    have ne : u ≠ v := by
      rintro rfl
      exact u_ne ((Nat.coprime_self u).1 cop)
    simp only [inversionLoop]
    by_cases ge : v ≤ u
    · simp only [natGte, ge, decide_true, if_true]
      obtain ⟨u', a', ac', A', red, odd', smaller, cop', ha', A_tight', Ax'⟩ :=
        turn_ok (x := x) (uLen := shrink u v uvLen) len_pos odd bound (by omega) (by omega) u_odd v_odd hu u_act' cop
          ha hb A_tight B_tight Ax Bx
      rw [red]
      simp only [bind, Except.bind, natIsOne]
      by_cases last : u' = 1
      · subst last
        have := finalise_spec (x := x) one bound ha' (by omega) (by omega) (by simpa using Ax')
        exact ⟨_, by simp [pure, Except.pure], this⟩
      · simp only [last, decide_false, Bool.false_eq_true, if_false]
        refine inversionLoop_ok len_pos odd one bound ?_ last v_ne odd' v_odd (by omega) hv (by omega) v_act' cop' ha' hb
          A_tight' B_tight Ax' Bx
        rw [pow_succ] at small
        nlinarith
    · simp only [natGte, ge, decide_false, Bool.false_eq_true, if_false]
      obtain ⟨v', b', bc', B', red, odd', smaller, cop', hb', B_tight', Bx'⟩ :=
        turn_ok (x := x) (uLen := shrink u v uvLen) len_pos odd bound (by omega) (by omega) v_odd u_odd hv v_act' cop.symm
          hb ha B_tight A_tight Bx Ax
      rw [red]
      simp only [bind, Except.bind, natIsOne]
      by_cases last : v' = 1
      · subst last
        have := finalise_spec (x := x) one bound hb' (by omega) (by omega) (by simpa using Bx')
        exact ⟨_, by simp [pure, Except.pure], this⟩
      · simp only [last, decide_false, Bool.false_eq_true, if_false]
        refine inversionLoop_ok len_pos odd one bound ?_ u_ne last u_odd odd' hu (by omega) u_act' (by omega) cop'.symm ha hb'
          A_tight B_tight' Ax Bx'
        rw [pow_succ] at small
        nlinarith

/-- `invert` answers the inverse (40_modular_inversion.md R81), for an odd modulus and an `x` coprime to it: it ends, and it
raises nothing. -/
theorem invert_ok {x : Nat} (odd : p % 2 = 1) (one : 1 < p) (bound : p < wordsBound len) (pos : 0 < x) (lt : x < p)
    (cop : Nat.Coprime x p) : ∃ z, invert len p x = .ok z ∧ 1 ≤ z ∧ z < p ∧ z * x % p = 1 := by
  have len_pos : 0 < len := by
    by_contra zero
    have : len = 0 := by omega
    subst this
    simp [wordsBound] at bound
    omega
  have bound' : (p : Int) < wordsBound len := by exact_mod_cast bound
  have x_lt : x < wordsBound len := by omega
  unfold invert
  split
  · rename_i is_one
    subst is_one
    exact ⟨1, rfl, le_refl _, one, by simpa using Nat.mod_eq_of_lt one⟩
  · rename_i x_ne
    have start : Tracks len 1 0 1 := ⟨by omega, .inl rfl, by simp⟩
    obtain ⟨u, a, ac, A, red, u_odd, u_le, cop', ha, tight, Ax⟩ : ∃ u a ac A,
        initialReduction len p x = .ok (u, a, ac) ∧ u % 2 = 1 ∧ u ≤ x ∧ Nat.Coprime u p ∧ Tracks len a ac A ∧
          (-(p : Int) < 2 * A ∧ 2 * A < p) ∧ A * x ≡ u [ZMOD p] := by
      unfold initialReduction
      split
      · rename_i even
        obtain ⟨u, a, ac, A, c, red, prod, u_odd, ha, cong, -, -, tight⟩ :=
          oddReduce_ok (uLen := len) len_pos odd bound pos x_lt start (by omega) (by omega)
        refine ⟨u, a, ac, A, red, u_odd, ?_, Nat.Coprime.coprime_dvd_left ⟨_, prod⟩ cop, ha, tight even, ?_⟩
        · rw [prod]; exact Nat.le_mul_of_pos_right _ (by positivity)
        · apply cancel_pow_two (c := c) odd
          calc (2 : Int) ^ c * (A * x) = 2 ^ c * A * x := by ring
            _ ≡ 1 * x [ZMOD p] := cong.mul_right _
            _ = 2 ^ c * (u : Int) := by rw [prod]; push_cast; ring
      · exact ⟨x, 1, 0, 1, rfl, by omega, le_refl _, cop, start, by omega, by simp [Int.ModEq.refl]⟩
    rw [red]
    simp only [bind, Except.bind, natIsOne]
    by_cases last : u = 1
    · subst last
      exact ⟨_, by simp [pure, Except.pure], finalise_spec one bound ha (by omega) (by omega) (by simpa using Ax)⟩
    · simp only [last, decide_false, Bool.false_eq_true, if_false]
      refine inversionLoop_ok (A := A) (B := 0) len_pos odd one bound ?_ last (by omega) u_odd odd (by omega) bound
        (by omega) bound cop' ha ⟨by positivity, .inl rfl, by simp⟩ tight (by omega) Ax ?_
      · have : 2 ^ (64 * len) = wordsBound len * wordsBound len := by
          rw [wordsBound, ← pow_add]; congr 1; omega
        rw [this]
        exact Nat.mul_lt_mul'' (by omega) bound
      · simp [Int.ModEq]

end Sys2Proof.Laws
end

