-- ==== Sys2Proof/Laws/PerInstr.lean ====
section
/-! SUPPORT. Lemmas made per instruction: the word of a legal command lies in its row of the opcode map (30_encoding.md R64)
and carries its own indexes there. -/

namespace Sys2Proof.Laws.MatchMask

/-- The word of a legal command meets its row's `mask` and `match`, and its index fields are the command's operands. -/
def Statement (i : Instr) : Prop :=
  i.wf = true → encode i &&& i.row.2.2 = i.row.2.1 ∧ i.hasOperandsOf (encode i)

/-- Format R3: the row's match is its opcode in bits 31:24. -/
theorem formatR3 {op d a b : Nat} {code : Word} (hop : op < 256) (hcode : code.toNat = 2 ^ 24 * op) (hd : d < 16)
    (ha : a < 16) (hb : b < 16) :
    encodeR3 op d a b &&& 0xFF000FFF = code ∧ d = bits (encodeR3 op d a b) 23 20 ∧
      [a, b] = [bits (encodeR3 op d a b) 19 16, bits (encodeR3 op d a b) 15 12] := by
  obtain ⟨h1, h2, h3, h4, h5⟩ := bits_encodeR3 hop hd ha hb
  exact ⟨(maskR3_iff hcode).2 ⟨h1, h5⟩, h2.symm, by rw [h3, h4]⟩

/-- Format R2: the row's match is its opcode in bits 31:24. -/
theorem formatR2 {op d a : Nat} {code : Word} (hop : op < 256) (hcode : code.toNat = 2 ^ 24 * op) (hd : d < 16)
    (ha : a < 16) :
    encodeR2 op d a &&& 0xFF00FFFF = code ∧ d = bits (encodeR2 op d a) 23 20 ∧ [a] = [bits (encodeR2 op d a) 19 16] := by
  obtain ⟨h1, h2, h3, h4⟩ := bits_encodeR2 hop hd ha
  exact ⟨(maskR2_iff hcode).2 ⟨h1, h4⟩, h2.symm, by rw [h3]⟩

/-- A legal index fits its four-bit field (30_encoding.md R61, R62). -/
theorem fieldFits {i : RegIndex} (h : legalField i = true) : i < 16 := lt_trans (legalField_iff.1 h) (by norm_num)

theorem extFits {i : RegIndex} (h : legalExt i = true) : i < 16 := lt_trans (legalExt_iff.1 h) (by norm_num)

theorem pointFits {i : RegIndex} (h : legalPoint i = true) : i < 16 := lt_trans (legalPoint_iff.1 h) (by norm_num)


theorem finv (d a : RegIndex) : Statement (.finv d a) := by
  intro h
  simp only [Instr.wf, Bool.and_eq_true] at h
  obtain ⟨hd, ha⟩ := h
  exact formatR2 (by norm_num) rfl (fieldFits hd) (fieldFits ha)

theorem fmul (d a b : RegIndex) : Statement (.fmul d a b) := by
  intro h
  simp only [Instr.wf, Bool.and_eq_true] at h
  obtain ⟨⟨hd, ha⟩, hb⟩ := h
  exact formatR3 (by norm_num) rfl (fieldFits hd) (fieldFits ha) (fieldFits hb)

theorem mmul (d a b : RegIndex) : Statement (.mmul d a b) := by
  intro h
  simp only [Instr.wf, Bool.and_eq_true] at h
  obtain ⟨⟨hd, ha⟩, hb⟩ := h
  exact formatR3 (by norm_num) rfl (fieldFits hd) (fieldFits ha) (fieldFits hb)

theorem fsqr (d a : RegIndex) : Statement (.fsqr d a) := by
  intro h
  simp only [Instr.wf, Bool.and_eq_true] at h
  obtain ⟨hd, ha⟩ := h
  exact formatR2 (by norm_num) rfl (fieldFits hd) (fieldFits ha)

theorem fred (d a : RegIndex) : Statement (.fred d a) := by
  intro h
  simp only [Instr.wf, Bool.and_eq_true] at h
  obtain ⟨hd, ha⟩ := h
  exact formatR2 (by norm_num) rfl (fieldFits hd) (extFits ha)

theorem fadd (d a b : RegIndex) : Statement (.fadd d a b) := by
  intro h
  simp only [Instr.wf, Bool.and_eq_true] at h
  obtain ⟨⟨hd, ha⟩, hb⟩ := h
  exact formatR3 (by norm_num) rfl (fieldFits hd) (fieldFits ha) (fieldFits hb)

theorem fsub (d a b : RegIndex) : Statement (.fsub d a b) := by
  intro h
  simp only [Instr.wf, Bool.and_eq_true] at h
  obtain ⟨⟨hd, ha⟩, hb⟩ := h
  exact formatR3 (by norm_num) rfl (fieldFits hd) (fieldFits ha) (fieldFits hb)

theorem fdbl (d a : RegIndex) : Statement (.fdbl d a) := by
  intro h
  simp only [Instr.wf, Bool.and_eq_true] at h
  obtain ⟨hd, ha⟩ := h
  exact formatR2 (by norm_num) rfl (fieldFits hd) (fieldFits ha)

theorem fneg (d a : RegIndex) : Statement (.fneg d a) := by
  intro h
  simp only [Instr.wf, Bool.and_eq_true] at h
  obtain ⟨hd, ha⟩ := h
  exact formatR2 (by norm_num) rfl (fieldFits hd) (fieldFits ha)

theorem mulx (d a b : RegIndex) : Statement (.mulx d a b) := by
  intro h
  simp only [Instr.wf, Bool.and_eq_true] at h
  obtain ⟨⟨hd, ha⟩, hb⟩ := h
  exact formatR3 (by norm_num) rfl (extFits hd) (fieldFits ha) (fieldFits hb)

theorem subx (d a b : RegIndex) : Statement (.subx d a b) := by
  intro h
  simp only [Instr.wf, Bool.and_eq_true] at h
  obtain ⟨⟨hd, ha⟩, hb⟩ := h
  exact formatR3 (by norm_num) rfl (extFits hd) (extFits ha) (extFits hb)

theorem padd (d a b : RegIndex) : Statement (.padd d a b) := by
  intro h
  simp only [Instr.wf, Bool.and_eq_true] at h
  obtain ⟨⟨hd, ha⟩, hb⟩ := h
  exact formatR3 (by norm_num) rfl (pointFits hd) (pointFits ha) (pointFits hb)

theorem pdbl (d a : RegIndex) : Statement (.pdbl d a) := by
  intro h
  simp only [Instr.wf, Bool.and_eq_true] at h
  obtain ⟨hd, ha⟩ := h
  exact formatR2 (by norm_num) rfl (pointFits hd) (pointFits ha)

theorem pneg (d a : RegIndex) : Statement (.pneg d a) := by
  intro h
  simp only [Instr.wf, Bool.and_eq_true] at h
  obtain ⟨hd, ha⟩ := h
  exact formatR2 (by norm_num) rfl (pointFits hd) (pointFits ha)

theorem psub (d a b : RegIndex) : Statement (.psub d a b) := by
  intro h
  simp only [Instr.wf, Bool.and_eq_true] at h
  obtain ⟨⟨hd, ha⟩, hb⟩ := h
  exact formatR3 (by norm_num) rfl (pointFits hd) (pointFits ha) (pointFits hb)

theorem ptpl (d a : RegIndex) : Statement (.ptpl d a) := by
  intro h
  simp only [Instr.wf, Bool.and_eq_true] at h
  obtain ⟨hd, ha⟩ := h
  exact formatR2 (by norm_num) rfl (pointFits hd) (pointFits ha)

theorem pdbladd (d a b : RegIndex) : Statement (.pdbladd d a b) := by
  intro h
  simp only [Instr.wf, Bool.and_eq_true] at h
  obtain ⟨⟨hd, ha⟩, hb⟩ := h
  exact formatR3 (by norm_num) rfl (pointFits hd) (pointFits ha) (pointFits hb)

end Sys2Proof.Laws.MatchMask
end

