-- ==== Sys2Proof/Laws/Step.lean ====
section
/-! SUPPORT. What a step can do, said once: the inversion lemma of `step`, from which every statement about all steps is a
case analysis. -/

namespace Sys2Proof.Laws

open Sys2Proof.Machine

/-- The state in which the transaction at the head of the list is carried out, with its answer. -/
abbrev taken (s : State) (rest : List Transaction) (a : Answer) : State :=
  { s with pending := rest, answers := a :: s.answers }

/-- The ways a step answers a next state. -/
inductive StepCase (s t : State) : Prop
  /-- No transaction is pending. -/
  | idle (none : s.pending = []) (eq : t = s)
  /-- A read. -/
  | read (addr size : Nat) (rest : List Transaction) (pending : s.pending = .read addr size :: rest)
      (eq : t = taken s rest (memRead s addr size))
  /-- A write that the bus rejects. -/
  | rejected (addr size : Nat) (w : Word) (rest : List Transaction) (pending : s.pending = .write addr size w :: rest)
      (reached : access s.len addr size = none ∨ access s.len addr size = some .status ∨
        access s.len addr size = some .config ∨ access s.len addr size = some .fcmd)
      (eq : t = taken s rest .err)
  /-- A command word, dropped. -/
  | dropped (addr size : Nat) (w : Word) (rest : List Transaction) (pending : s.pending = .write addr size w :: rest)
      (reached : access s.len addr size = some .cmd) (fault : s.status.fault = true) (eq : t = taken s rest .ok)
  /-- A command word that is illegal. -/
  | illegal (addr size : Nat) (w : Word) (rest : List Transaction) (e : DecodeError)
      (pending : s.pending = .write addr size w :: rest) (reached : access s.len addr size = some .cmd)
      (noFault : s.status.fault = false) (decoded : decode w = .error e)
      (eq : t = { taken s rest .ok with cmd := w }.raiseFault .illegalCmd)
  /-- A command. -/
  | command (addr size : Nat) (w : Word) (rest : List Transaction) (i : Instr)
      (pending : s.pending = .write addr size w :: rest) (reached : access s.len addr size = some .cmd)
      (noFault : s.status.fault = false) (decoded : decode w = .ok i)
      (executed : exec i { taken s rest .ok with cmd := w } = .next t)
  /-- A write to `CTRL`. -/
  | control (addr size : Nat) (w : Word) (rest : List Transaction) (pending : s.pending = .write addr size w :: rest)
      (reached : access s.len addr size = some .ctrl) (eq : t = control w (taken s rest .ok))
  /-- A write to a data word. -/
  | data (addr size : Nat) (w : Word) (rest : List Transaction) (d : DataWord)
      (pending : s.pending = .write addr size w :: rest) (reached : access s.len addr size = some (.data d))
      (eq : t = (taken s rest .ok).setDataWord d w)

theorem takeCommand_cases {u t : State} {w : Word} (h : takeCommand w u = .next t) :
    (u.status.fault = true ∧ t = u) ∨
      (u.status.fault = false ∧ ∃ e, decode w = .error e ∧ t = { u with cmd := w }.raiseFault .illegalCmd) ∨
      (u.status.fault = false ∧ ∃ i, decode w = .ok i ∧ exec i { u with cmd := w } = .next t) := by
  unfold takeCommand at h
  cases fault : u.status.fault
  · rw [fault] at h
    simp only [Bool.false_eq_true, if_false] at h
    cases decoded : decode w with
    | error e =>
      rw [decoded] at h
      exact .inr (.inl ⟨rfl, e, rfl, (Host.Outcome.next.inj h).symm⟩)
    | ok i =>
      rw [decoded] at h
      exact .inr (.inr ⟨rfl, i, rfl, h⟩)
  · rw [fault] at h
    exact .inl ⟨rfl, (Host.Outcome.next.inj h).symm⟩

/-- Everything a step can do when it answers a next state (20_memory.md R42, R55). -/
theorem step_cases {s t : State} (h : step s = .next t) : StepCase s t := by
  unfold step nextTransaction at h
  cases pending : s.pending with
  | nil =>
    rw [pending] at h
    exact .idle pending (Host.Outcome.next.inj h).symm
  | cons tx rest =>
    rw [pending] at h
    cases tx with
    | read addr size => exact .read addr size rest pending (Host.Outcome.next.inj h).symm
    | write addr size w =>
      simp only [transact, memWrite] at h
      cases reached : access s.len addr size with
      | none =>
        rw [reached] at h
        exact .rejected addr size w rest pending (.inl reached) (Host.Outcome.next.inj h).symm
      | some tgt =>
        rw [reached] at h
        cases tgt with
        | cmd =>
          rcases takeCommand_cases h with ⟨fault, eq⟩ | ⟨fault, e, decoded, eq⟩ | ⟨fault, i, decoded, executed⟩
          · exact .dropped addr size w rest pending reached fault eq
          · exact .illegal addr size w rest e pending reached fault decoded eq
          · exact .command addr size w rest i pending reached fault decoded executed
        | status =>
          exact .rejected addr size w rest pending (.inr (.inl reached)) (Host.Outcome.next.inj h).symm
        | config =>
          exact .rejected addr size w rest pending (.inr (.inr (.inl reached))) (Host.Outcome.next.inj h).symm
        | fcmd =>
          exact .rejected addr size w rest pending (.inr (.inr (.inr reached))) (Host.Outcome.next.inj h).symm
        | ctrl => exact .control addr size w rest pending reached (Host.Outcome.next.inj h).symm
        | data d => exact .data addr size w rest d pending reached (Host.Outcome.next.inj h).symm

end Sys2Proof.Laws
end

