-- ==== Sys2Proof/Laws/Window.lean ====
section
/-! SUPPORT. The address map both ways, and what a write of one data word does to every data word. -/

namespace Sys2Proof.Laws

open Sys2Proof.Machine

/-! ### The address map (20_memory.md R41) -/

theorem slotWord_some {n j : Nat} {make : Nat → DataWord} (h : j < n) : slotWord n j make = some (.data (make j)) :=
  if_pos h

theorem of_slotWord {n j : Nat} {make : Nat → DataWord} {tgt : Target} (h : slotWord n j make = some tgt) :
    j < n ∧ tgt = .data (make j) := by
  unfold slotWord at h
  by_cases lt : j < n
  · rw [if_pos lt, Option.some.injEq] at h
    exact ⟨lt, h.symm⟩
  · rw [if_neg lt] at h
    exact absurd h (by simp)

theorem of_ite {α : Type} {c : Prop} [Decidable c] {a b : Option α} {v : α} (h : (if c then a else b) = some v) :
    c ∧ a = some v ∨ ¬c ∧ b = some v := by
  by_cases hc : c
  · exact .inl ⟨hc, by rwa [if_pos hc] at h⟩
  · exact .inr ⟨hc, by rwa [if_neg hc] at h⟩

theorem ofNat_eq {n k : Nat} [NeZero n] {i : Fin n} (h : k = i) : Fin.ofNat n k = i := by
  apply Fin.ext
  rw [Fin.val_ofNat, h, Nat.mod_eq_of_lt i.isLt]

/-- What a block has is reached at its own offset. -/
theorem target_offset {len : Nat} (small : len ≤ 16) {tgt : Target} (ex : tgt.Exists len) :
    target len tgt.offset = some tgt := by
  cases tgt with
  | data d =>
    cases d with
    | p j =>
      have : j < len := ex
      dsimp only [Target.offset, DataWord.offset, target]
      repeat rw [if_neg (by omega)]
      rw [if_pos (by omega), show (0x040 + 4 * j - 0x040) / 4 = j by omega, slotWord_some this]
    | f i j =>
      have : j < len := ex
      have := i.isLt
      dsimp only [Target.offset, DataWord.offset, target]
      repeat rw [if_neg (by omega)]
      rw [if_pos (by omega), ofNat_eq (i := i) (by omega), show (_ - _) % 0x40 / 4 = j by omega, slotWord_some ‹_›]
    | e i j =>
      have : j < 2 * len := ex
      have := i.isLt
      dsimp only [Target.offset, DataWord.offset, target]
      repeat rw [if_neg (by omega)]
      rw [if_pos (by omega), ofNat_eq (i := i) (by omega), show (_ - _) % 0x80 / 4 = j by omega, slotWord_some ‹_›]
    | tag i =>
      have := i.isLt
      dsimp only [Target.offset, DataWord.offset, target]
      repeat rw [if_neg (by omega)]
      rw [if_pos (by omega), if_pos (by omega), ofNat_eq (i := i) (by omega)]
    | x i j =>
      have : j < len := ex
      have := i.isLt
      dsimp only [Target.offset, DataWord.offset, target]
      repeat rw [if_neg (by omega)]
      rw [if_pos (by omega)]
      repeat rw [if_neg (by omega)]
      rw [if_pos (by omega), ofNat_eq (i := i) (by omega), show (_ % 0x100 - 0x40) / 4 = j by omega, slotWord_some ‹_›]
    | y i j =>
      have : j < len := ex
      have := i.isLt
      dsimp only [Target.offset, DataWord.offset, target]
      repeat rw [if_neg (by omega)]
      rw [if_pos (by omega)]
      repeat rw [if_neg (by omega)]
      rw [if_pos (by omega), ofNat_eq (i := i) (by omega), show (_ % 0x100 - 0x80) / 4 = j by omega, slotWord_some ‹_›]
    | z i j =>
      have : j < len := ex
      have := i.isLt
      dsimp only [Target.offset, DataWord.offset, target]
      repeat rw [if_neg (by omega)]
      rw [if_pos (by omega)]
      repeat rw [if_neg (by omega)]
      rw [ofNat_eq (i := i) (by omega), show (_ % 0x100 - 0xC0) / 4 = j by omega, slotWord_some ‹_›]
  | _ => rfl

/-- What an aligned offset reaches is something the block has, at that offset. -/
theorem target_some {len addr : Nat} {tgt : Target} (aligned : addr % 4 = 0) (h : target len addr = some tgt) :
    tgt.Exists len ∧ addr = tgt.offset := by
  dsimp only [target] at h
  rcases of_ite h with ⟨c, h⟩ | ⟨_, h⟩
  · obtain rfl := Option.some.inj h; exact ⟨trivial, c⟩
  rcases of_ite h with ⟨c, h⟩ | ⟨_, h⟩
  · obtain rfl := Option.some.inj h; exact ⟨trivial, c⟩
  rcases of_ite h with ⟨c, h⟩ | ⟨_, h⟩
  · obtain rfl := Option.some.inj h; exact ⟨trivial, c⟩
  rcases of_ite h with ⟨c, h⟩ | ⟨_, h⟩
  · obtain rfl := Option.some.inj h; exact ⟨trivial, c⟩
  rcases of_ite h with ⟨c, h⟩ | ⟨_, h⟩
  · obtain rfl := Option.some.inj h; exact ⟨trivial, c⟩
  rcases of_ite h with ⟨_, h⟩ | ⟨_, h⟩
  · cases h
  rcases of_ite h with ⟨_, h⟩ | ⟨_, h⟩
  · obtain ⟨lt, rfl⟩ := of_slotWord h
    refine ⟨lt, ?_⟩
    simp only [Target.offset, DataWord.offset]; omega
  rcases of_ite h with ⟨_, h⟩ | ⟨_, h⟩
  · cases h
  rcases of_ite h with ⟨_, h⟩ | ⟨_, h⟩
  · obtain ⟨lt, rfl⟩ := of_slotWord h
    refine ⟨lt, ?_⟩
    simp only [Target.offset, DataWord.offset, Fin.val_ofNat]; omega
  rcases of_ite h with ⟨_, h⟩ | ⟨_, h⟩
  · cases h
  rcases of_ite h with ⟨_, h⟩ | ⟨_, h⟩
  · obtain ⟨lt, rfl⟩ := of_slotWord h
    refine ⟨lt, ?_⟩
    simp only [Target.offset, DataWord.offset, Fin.val_ofNat]; omega
  rcases of_ite h with ⟨_, h⟩ | ⟨_, h⟩
  · cases h
  rcases of_ite h with ⟨_, h⟩ | ⟨_, h⟩
  · rcases of_ite h with ⟨_, h⟩ | ⟨_, h⟩
    · obtain rfl := Option.some.inj h
      refine ⟨trivial, ?_⟩
      simp only [Target.offset, DataWord.offset, Fin.val_ofNat]; omega
    rcases of_ite h with ⟨_, h⟩ | ⟨_, h⟩
    · cases h
    rcases of_ite h with ⟨_, h⟩ | ⟨_, h⟩
    · obtain ⟨lt, rfl⟩ := of_slotWord h
      refine ⟨lt, ?_⟩
      simp only [Target.offset, DataWord.offset, Fin.val_ofNat]; omega
    rcases of_ite h with ⟨_, h⟩ | ⟨_, h⟩
    · obtain ⟨lt, rfl⟩ := of_slotWord h
      refine ⟨lt, ?_⟩
      simp only [Target.offset, DataWord.offset, Fin.val_ofNat]; omega
    · obtain ⟨lt, rfl⟩ := of_slotWord h
      refine ⟨lt, ?_⟩
      simp only [Target.offset, DataWord.offset, Fin.val_ofNat]; omega
  · cases h

/-- The address map: an access reaches what the block has at that offset, with 4 bytes, and nothing else. -/
theorem access_iff {len addr size : Nat} {tgt : Target} (small : len ≤ 16) :
    access len addr size = some tgt ↔ size = 4 ∧ tgt.Exists len ∧ addr = tgt.offset := by
  unfold access
  constructor
  · intro h
    split at h
    · rename_i ok
      exact ⟨ok.1, target_some ok.2 h⟩
    · simp at h
  · rintro ⟨rfl, ex, rfl⟩
    have aligned : tgt.offset % 4 = 0 := by
      cases tgt with
      | data d => cases d <;> simp only [Target.offset, DataWord.offset] <;> omega
      | _ => rfl
    rw [if_pos ⟨rfl, aligned⟩, target_offset small ex]

/-- Two different things of one block have different offsets. -/
theorem offset_injective {len : Nat} {t u : Target} (small : len ≤ 16) (ht : t.Exists len) (hu : u.Exists len)
    (h : t.offset = u.offset) : t = u := by
  have := target_offset small ht
  rw [h, target_offset small hu, Option.some.injEq] at this
  exact this.symm

theorem access_data {len : Nat} {d : DataWord} (small : len ≤ 16) (h : d.Exists len) :
    access len d.offset 4 = some (.data d) := (access_iff small).2 ⟨rfl, h, rfl⟩

theorem access_none {len addr size : Nat} (small : len ≤ 16)
    (h : ∀ tgt : Target, tgt.Exists len → ¬(size = 4 ∧ addr = tgt.offset)) : access len addr size = none := by
  by_contra some
  obtain ⟨tgt, eq⟩ := Option.ne_none_iff_exists'.1 some
  obtain ⟨rfl, ex, rfl⟩ := (access_iff small).1 eq
  exact h tgt ex ⟨rfl, rfl⟩

/-! ### The window in the host's address space (20_memory.md R43) -/

/-- An address is in the window exactly when it is the base plus an offset of the window. -/
theorem windowOffset_eq_some {base addr offset : Nat} :
    windowOffset base addr = some offset ↔ addr = base + offset ∧ offset < windowSize := by
  rw [windowOffset, Option.ite_none_right_eq_some, Option.some.injEq]
  omega

theorem windowOffset_eq_none {base addr : Nat} :
    windowOffset base addr = none ↔ addr < base ∨ base + windowSize ≤ addr := by
  rw [windowOffset, ite_eq_right_iff]
  simp only [reduceCtorEq, imp_false]
  omega

/-- Everything a block has is in the window. -/
theorem offset_lt_windowSize {len : Nat} {tgt : Target} (small : len ≤ 16) (ex : tgt.Exists len) :
    tgt.offset < windowSize := by
  cases tgt with
  | data d => cases d <;> simp only [Target.offset, DataWord.offset, windowSize] at * <;> omega
  | _ => decide

/-! ### Reading data words after writing one -/

/-- The word of a list after one was set. -/
theorem getElem?_set_join (a : List (Option Word)) (j k : Nat) (w : Word) :
    (a.set j (some w))[k]?.join = if j = k ∧ j < a.length then some w else a[k]?.join := by
  rw [List.getElem?_set]
  by_cases h : j = k
  · subst h
    by_cases lt : j < a.length <;> simp [lt]
  · simp [h]

/-- What each data word holds after a data word was written (10_state.md R38, R39): the written one, where the array has it,
holds the word (a tag its bits 2:0); every other one is as it was. -/
theorem dataWord_setDataWord_ne {s : State} {d d' : DataWord} {w : Word} (h : d' ≠ d) :
    (s.setDataWord d w).dataWord d' = s.dataWord d' := by
  cases d <;> cases d' <;> simp only [State.setDataWord, State.dataWord]
  case p.p =>
    rw [getElem?_set_join, if_neg]
    rintro ⟨rfl, -⟩
    exact h rfl
  all_goals
    simp only [Fin.getElem_fin, Vector.getElem_set]
    split
    · rename_i same
      obtain rfl := Fin.ext same
      first
        | rfl
        | exact absurd rfl h
        | (rw [getElem?_set_join, if_neg]
           rintro ⟨rfl, -⟩
           exact h rfl)
    · rfl

/-- The bits of a tag (10_state.md R24, R39). -/
theorem tag_bits (w : Word) : (w.setWidth 3).setWidth 32 = w &&& 7 := by
  apply BitVec.eq_of_toNat_eq
  rw [BitVec.toNat_setWidth, BitVec.toNat_setWidth, BitVec.toNat_and]
  rw [show (7 : Word).toNat = 2 ^ 3 - 1 from rfl, Nat.and_two_pow_sub_one_eq_mod]
  omega

/-- What a written data word holds. -/
theorem dataWord_setDataWord_self {s : State} {d : DataWord} {w : Word} :
    s.Shaped → d.Exists s.len →
      (s.setDataWord d w).dataWord d = some (match d with | .tag _ => w &&& 7 | _ => w) := by
  intro shaped ex
  obtain ⟨-, hp, hf, he, hpt⟩ := shaped
  cases d <;> simp only [State.setDataWord, State.dataWord, Fin.getElem_fin, Vector.getElem_set_self]
  case p j => rw [getElem?_set_join, if_pos ⟨rfl, lt_of_lt_of_eq ex hp.symm⟩]
  case f i j => rw [getElem?_set_join, if_pos ⟨rfl, lt_of_lt_of_eq ex (hf i).symm⟩]
  case e i j => rw [getElem?_set_join, if_pos ⟨rfl, lt_of_lt_of_eq ex (he i).symm⟩]
  case tag i => rw [Option.map_some, tag_bits]
  case x i j => rw [getElem?_set_join, if_pos ⟨rfl, lt_of_lt_of_eq ex (hpt i).1.symm⟩]
  case y i j => rw [getElem?_set_join, if_pos ⟨rfl, lt_of_lt_of_eq ex (hpt i).2.1.symm⟩]
  case z i j => rw [getElem?_set_join, if_pos ⟨rfl, lt_of_lt_of_eq ex (hpt i).2.2.symm⟩]

/-- A host write keeps the sizes of the arrays. -/
theorem setDataWord_shaped {s : State} {d : DataWord} {w : Word} (shaped : s.Shaped) : (s.setDataWord d w).Shaped := by
  obtain ⟨hl, hp, hf, he, hpt⟩ := shaped
  have pt {i : Fin 4} {r : PointReg} (hr : r.Shaped s.len) : ∀ k : Fin 4, (s.pt.set i r)[k].Shaped s.len := by
    intro k
    simp only [Fin.getElem_fin, Vector.getElem_set]
    split
    · exact hr
    · exact hpt k
  cases d with
  | p j => exact ⟨hl, (List.length_set ..).trans hp, hf, he, hpt⟩
  | f i j =>
    refine ⟨hl, hp, fun k => ?_, he, hpt⟩
    simp only [State.setDataWord, Fin.getElem_fin, Vector.getElem_set]
    split
    · exact (List.length_set ..).trans (hf i)
    · exact hf k
  | e i j =>
    refine ⟨hl, hp, hf, fun k => ?_, hpt⟩
    simp only [State.setDataWord, Fin.getElem_fin, Vector.getElem_set]
    split
    · exact (List.length_set ..).trans (he i)
    · exact he k
  | tag i => exact ⟨hl, hp, hf, he, pt (hpt i)⟩
  | x i j => exact ⟨hl, hp, hf, he, pt ⟨(List.length_set ..).trans (hpt i).1, (hpt i).2⟩⟩
  | y i j => exact ⟨hl, hp, hf, he, pt ⟨(hpt i).1, (List.length_set ..).trans (hpt i).2.1, (hpt i).2.2⟩⟩
  | z i j => exact ⟨hl, hp, hf, he, pt ⟨(hpt i).1, (hpt i).2.1, (List.length_set ..).trans (hpt i).2.2⟩⟩

end Sys2Proof.Laws
end

