-- ==== Sys2Proof/Laws/WordArray.lean ====
section
/-! SUPPORT. Word arrays and their values (00_scope.md R9). -/

namespace Sys2Proof.Laws

open Sys2Proof.Machine

@[simp] theorem wordsOf_length (n v : Nat) : (wordsOf n v).length = n := by
  induction n generalizing v with
  | zero => rfl
  | succ n ih => simp [wordsOf, ih]

theorem wordsBound_succ (n : Nat) : wordsBound (n + 1) = 2 ^ 32 * wordsBound n := by
  rw [wordsBound, Nat.mul_succ, pow_add, Nat.mul_comm]

/-- Writing an integer and reading it back gives its residue modulo `2^(32n)`. -/
theorem valueOf_wordsOf (n v : Nat) : valueOf (wordsOf n v) = some (v % wordsBound n) := by
  induction n generalizing v with
  | zero => simp [wordsOf, valueOf, wordsBound, Nat.mod_one]
  | succ n ih =>
    rw [wordsOf, valueOf, ih, wordsBound_succ, Nat.mod_mul]
    simp

/-- The value of an array of `n` words is below `2^(32n)`. -/
theorem valueOf_lt : ∀ {a : List (Option Word)} {v : Nat}, valueOf a = some v → v < wordsBound a.length := by
  intro a
  induction a with
  | nil => intro v h; simp [valueOf] at h; simp [← h, wordsBound]
  | cons w ws ih =>
    intro v h
    cases w with
    | none => simp [valueOf] at h
    | some w =>
      simp only [valueOf, Option.map_eq_some_iff] at h
      obtain ⟨u, hu, rfl⟩ := h
      have := ih hu
      have := w.isLt
      rw [List.length_cons, wordsBound_succ]
      nlinarith

/-- An array holds a value exactly when each of its words does (10_state.md R20). -/
theorem valueOf_isSome_iff (a : List (Option Word)) : (valueOf a).isSome ↔ ∀ w ∈ a, w.isSome := by
  induction a with
  | nil => simp [valueOf]
  | cons w ws ih => cases w <;> simp [valueOf, ih]

/-- `words_n` is the inverse of `val` (00_scope.md R9). -/
theorem wordsOf_valueOf : ∀ {a : List (Option Word)} {v : Nat}, valueOf a = some v → wordsOf a.length v = a := by
  intro a
  induction a with
  | nil => intro v _; rfl
  | cons w ws ih =>
    intro v h
    cases w with
    | none => simp [valueOf] at h
    | some w =>
      simp only [valueOf, Option.map_eq_some_iff] at h
      obtain ⟨u, hu, rfl⟩ := h
      have low : BitVec.ofNat 32 (w.toNat + 2 ^ 32 * u) = w := by
        apply BitVec.eq_of_toNat_eq
        rw [BitVec.toNat_ofNat, Nat.add_mul_mod_self_left, Nat.mod_eq_of_lt w.isLt]
      have high : (w.toNat + 2 ^ 32 * u) / 2 ^ 32 = u := by have := w.isLt; omega
      rw [List.length_cons, wordsOf, low, high, ih hu]

/-- Word `j` of `words_n(v)`, by its weight (00_scope.md R9). -/
theorem getElem?_wordsOf {n v j : Nat} (h : j < n) :
    (wordsOf n v)[j]? = some (some (BitVec.ofNat 32 (v / 2 ^ (32 * j)))) := by
  induction n generalizing v j with
  | zero => omega
  | succ n ih =>
    cases j with
    | zero => simp [wordsOf]
    | succ j =>
      rw [wordsOf, List.getElem?_cons_succ, ih (by omega), Nat.div_div_eq_div_mul, ← pow_add, Nat.mul_succ, Nat.add_comm]

/-- Word `j` of an array that holds the value `v`. -/
theorem getElem?_of_valueOf {a : List (Option Word)} {v j : Nat} (h : valueOf a = some v) (lt : j < a.length) :
    a[j]? = some (some (BitVec.ofNat 32 (v / 2 ^ (32 * j)))) := by
  rw [← getElem?_wordsOf lt, wordsOf_valueOf h]

/-! ### The tests of the utility layer (00_scope.md R14) -/

@[simp] theorem natGte_iff {x y : Nat} : natGte x y = true ↔ y ≤ x := decide_eq_true_iff

@[simp] theorem natIsZero_iff {x : Nat} : natIsZero x = true ↔ x = 0 := decide_eq_true_iff

@[simp] theorem natIsOne_iff {x : Nat} : natIsOne x = true ↔ x = 1 := decide_eq_true_iff

theorem valueOf_noWords {n : Nat} (hn : 0 < n) : valueOf (noWords n) = none := by
  cases n with
  | zero => omega
  | succ n => rfl

end Sys2Proof.Laws
end

