-- ==== Sys2Proof/Tests/Slice0.lean ====
section
/-! SUPPORT. The model's own tests: words of the spec decoded, ill-formed commands refused, one step of each command with the
expected values of 95_test_vectors.md, and a witness for the hypotheses of every statement. -/

open Sys2Proof Sys2Proof.Machine

namespace Sys2Proof.Tests

/-! ### The check of WellFormed refuses each kind of ill-formed command (30_encoding.md R62) -/

theorem test_wf_refuses_field_index_8 :
    (Instr.finv 8 0).wf = false ∧ (Instr.finv 0 8).wf = false ∧ (Instr.fmul 8 0 0).wf = false ∧
      (Instr.fmul 0 8 0).wf = false ∧ (Instr.fmul 0 0 8).wf = false ∧ (Instr.mmul 8 0 0).wf = false ∧
      (Instr.mmul 0 8 0).wf = false ∧ (Instr.mmul 0 0 8).wf = false ∧ (Instr.fsqr 8 0).wf = false ∧
      (Instr.fsqr 0 8).wf = false ∧ (Instr.fred 8 0).wf = false ∧ (Instr.fadd 8 0 0).wf = false ∧
      (Instr.fadd 0 8 0).wf = false ∧ (Instr.fadd 0 0 8).wf = false ∧ (Instr.fsub 8 0 0).wf = false ∧
      (Instr.fsub 0 8 0).wf = false ∧ (Instr.fsub 0 0 8).wf = false ∧ (Instr.fdbl 8 0).wf = false ∧
      (Instr.fdbl 0 8).wf = false ∧ (Instr.fneg 8 0).wf = false ∧ (Instr.fneg 0 8).wf = false ∧
      (Instr.mulx 0 8 0).wf = false ∧ (Instr.mulx 0 0 8).wf = false := by decide

theorem test_wf_refuses_extended_index_4 :
    (Instr.fred 0 4).wf = false ∧ (Instr.mulx 4 0 0).wf = false ∧ (Instr.subx 4 0 0).wf = false ∧
      (Instr.subx 0 4 0).wf = false ∧ (Instr.subx 0 0 4).wf = false := by decide

theorem test_wf_refuses_point_index_4 :
    (Instr.padd 4 0 0).wf = false ∧ (Instr.padd 0 4 0).wf = false ∧ (Instr.padd 0 0 4).wf = false ∧
      (Instr.pdbl 4 0).wf = false ∧ (Instr.pdbl 0 4).wf = false ∧ (Instr.pneg 4 0).wf = false ∧
      (Instr.pneg 0 4).wf = false ∧ (Instr.psub 4 0 0).wf = false ∧ (Instr.psub 0 4 0).wf = false ∧
      (Instr.psub 0 0 4).wf = false ∧ (Instr.ptpl 4 0).wf = false ∧ (Instr.ptpl 0 4).wf = false ∧
      (Instr.pdbladd 4 0 0).wf = false ∧ (Instr.pdbladd 0 4 0).wf = false ∧ (Instr.pdbladd 0 0 4).wf = false := by decide

/-! ### Words of 30_encoding.md R65 and 95_test_vectors.md 2.1, read by the decoder -/

theorem test_decode_finv : decode 0x10320000 = .ok (.finv 3 2) := by decide

theorem test_decode_fmul : decode 0x20777000 = .ok (.fmul 7 7 7) := by decide

theorem test_decode_mmul : decode 0x21201000 = .ok (.mmul 2 0 1) := by decide

theorem test_decode_fsqr : decode 0x22430000 = .ok (.fsqr 4 3) := by decide

theorem test_decode_fred : decode 0x23730000 = .ok (.fred 7 3) := by decide

theorem test_decode_fadd : decode 0x24544000 = .ok (.fadd 5 4 4) := by decide

theorem test_decode_fsub : decode 0x25601000 = .ok (.fsub 6 0 1) := by decide

theorem test_decode_fdbl : decode 0x26100000 = .ok (.fdbl 1 0) := by decide

theorem test_decode_fneg : decode 0x27760000 = .ok (.fneg 7 6) := by decide

theorem test_decode_mulx : decode 0x28145000 = .ok (.mulx 1 4 5) := by decide

theorem test_decode_subx : decode 0x29201000 = .ok (.subx 2 0 1) := by decide

theorem test_decode_padd : decode 0x30201000 = .ok (.padd 2 0 1) := by decide

theorem test_decode_pdbl : decode 0x31100000 = .ok (.pdbl 1 0) := by decide

theorem test_decode_pneg : decode 0x32200000 = .ok (.pneg 2 0) := by decide

theorem test_decode_psub : decode 0x33312000 = .ok (.psub 3 1 2) := by decide

theorem test_decode_ptpl : decode 0x34200000 = .ok (.ptpl 2 0) := by decide

theorem test_decode_pdbladd : decode 0x35110000 = .ok (.pdbladd 1 1 0) := by decide

/-- Bit by bit, the fields of R61 from bit 31 down: opcode, `rd`, `rs1`, `rs2`, zero. -/
theorem test_decode_bits_subx : decode 0b00101001_0011_0010_0001_000000000000 = .ok (.subx 3 2 1) := by decide

theorem test_decode_bits_finv : decode 0b00010000_0111_0001_0000000000000000 = .ok (.finv 7 1) := by decide

theorem test_decode_bits_pdbladd : decode 0b00110101_0011_0000_0010_000000000000 = .ok (.pdbladd 3 0 2) := by decide

theorem test_decode_refuses_by_name :
    decode 0x00000000 = .error .unknownOpcode ∧ decode 0xFFFFFFFF = .error .unknownOpcode ∧
      decode 0x11000000 = .error .unknownOpcode ∧ decode 0x2A000000 = .error .unknownOpcode ∧
      decode 0x36000000 = .error .unknownOpcode ∧ decode 0x20201001 = .error .nonzeroReservedBits ∧
      decode 0x10320001 = .error .nonzeroReservedBits ∧ decode 0x10328000 = .error .nonzeroReservedBits ∧
      decode 0x20801000 = .error .illegalIndex ∧ decode 0x10800000 = .error .illegalIndex ∧
      decode 0x28401000 = .error .illegalIndex ∧ decode 0x30401000 = .error .illegalIndex ∧
      decode 0x23740000 = .error .illegalIndex := by decide

theorem test_decode_table_word : decodeTableWord 32 0x23730000 = some (.fred 7 3) ∧ decodeTableWord 32 0 = none := by decide

/-! ### One step on small states: `LEN = 1`, `p = 13`, the values of 95_test_vectors.md -/

/-- A block with the modulus `p`, and nothing else written. -/
def fresh (p : Nat) : State := { State.resetFor 1 with p := wordsOf 1 p }

/-- Operands of the vectors of 95_test_vectors.md 2.3 to 2.5; `F7` holds no value, `F4` and `E3` are out of range. -/
def tiny : State :=
  { fresh 13 with
    f := #v[wordsOf 1 6, wordsOf 1 5, wordsOf 1 12, wordsOf 1 0, wordsOf 1 13, wordsOf 1 10, wordsOf 1 7, noWords 1]
    e := #v[wordsOf 2 30, wordsOf 2 36, wordsOf 2 168, wordsOf 2 169]
    pt := #v[pointReg 1 (.affine false 2 3), pointReg 1 (.affine true 5 3), pointReg 1 (.jacobian false 8 11 2),
      pointReg 1 (.infinity true)] }

/-- The same with other points. -/
def points (a b : Point) : State :=
  { tiny with pt := #v[pointReg 1 a, pointReg 1 b, pointReg 1 (.affine false 13 3), PointReg.unwritten 1] }

/-- The step that takes the transaction answers `a` and a next state that has the property. -/
def takes (s : State) (tx : Transaction) (a : Answer) (property : State → Bool) : Bool :=
  match step { s with pending := [tx] } with
  | .next t => decide (t.answers = [a]) && decide t.Inv && property t
  | .fault _ => false
  | .refused _ => false

/-- The command completes and leaves the property. -/
def completes (s : State) (w : Word) (property : State → Bool) : Bool :=
  takes s (.write 0x000 4 w) .ok fun t => decide (statusWord t.status = 1 ∧ t.cmd = w ∧ t.fcmd = 0) && property t

/-- The command records the fault that the word of `STATUS` shows, and changes no data register. -/
def records (s : State) (w status : Word) : Bool :=
  takes s (.write 0x000 4 w) .ok fun t =>
    decide (statusWord t.status = status ∧ t.cmd = w ∧ t.fcmd = w ∧ t.p = s.p ∧ t.f = s.f ∧ t.e = s.e ∧ t.pt = s.pt)

def fieldIs (i : Fin 8) (v : Nat) (t : State) : Bool := decide (t.f[i] = wordsOf 1 v)

def extIs (i : Fin 4) (v : Nat) (t : State) : Bool := decide (t.e[i] = wordsOf 2 v)

def pointIs (i : Fin 4) (q : Point) (t : State) : Bool := decide (t.pt[i] = pointReg 1 q)

/-- The tests of the utility layer on arrays of two words (00_scope.md R14): the high word counts. -/
theorem test_compare_and_test :
    natIsZero 0 = true ∧ natIsZero (2 ^ 32) = false ∧ natIsOne 1 = true ∧ natIsOne (2 ^ 32 + 1) = false ∧
      natGte 5 5 = true ∧ natGte (2 ^ 32) 7 = true ∧ natGte 7 (2 ^ 32) = false := by
  decide

/-- A shift over the low word of two leaves the high word alone (00_scope.md R15), and a borrow is -1 (R13). -/
theorem test_shift_and_borrow :
    natShiftDownWord 1 (3 * 2 ^ 32 + 8) = 3 * 2 ^ 32 ∧ natShiftDownWord 2 (3 * 2 ^ 32 + 8) = 3 ∧
      natShiftDownBits 1 (3 * 2 ^ 32 + 8) 2 = 3 * 2 ^ 32 + 2 ∧ natSub 1 0 1 = (2 ^ 32 - 1, -1) ∧
      natAdd 1 (2 ^ 32 - 1) 1 = (0, 1) ∧ ctz32 (2 ^ 31) = 31 := by
  decide

/-- Vectors I6 and I12 (`x = p - 1`). -/
theorem test_finv_inverse :
    completes tiny 0x10300000 (fieldIs 3 11) = true ∧ completes tiny 0x10220000 (fieldIs 2 12) = true := by
  decide

/-- Vectors X6 and X5. -/
theorem test_finv_zero :
    records tiny 0x10130000 0x52 = true ∧ records tiny 0x10140000 0x42 = true := by
  decide

/-- Vectors A1 and A2. -/
theorem test_fmul :
    completes tiny 0x20201000 (fieldIs 2 4) = true ∧ completes tiny 0x20222000 (fieldIs 2 1) = true := by
  decide

/-- Vectors X3 and X4. -/
theorem test_fmul_checks :
    records tiny 0x20247000 0x22 = true ∧ records tiny 0x20244000 0x42 = true := by
  decide

/-- Vector A1. -/
theorem test_mmul :
    completes tiny 0x21201000 (fieldIs 2 4) = true := by
  decide

/-- Vectors A5 and A7. -/
theorem test_fsqr :
    completes tiny 0x22100000 (fieldIs 1 10) = true ∧ completes tiny 0x22130000 (fieldIs 1 0) = true := by
  decide

/-- Vectors A25 and A27 (X15). -/
theorem test_fred :
    completes tiny 0x23200000 (fieldIs 2 4) = true ∧ completes tiny 0x23020000 (fieldIs 0 12) = true := by
  decide

/-- Vector A28 (X14). -/
theorem test_fred_range :
    records tiny 0x23030000 0x42 = true := by
  decide

/-- Vectors A8 and A9. -/
theorem test_fadd :
    completes tiny 0x24205000 (fieldIs 2 3) = true ∧ completes tiny 0x24206000 (fieldIs 2 0) = true := by
  decide

/-- Vectors A11 and A12. -/
theorem test_fsub :
    completes tiny 0x25205000 (fieldIs 2 9) = true ∧ completes tiny 0x25200000 (fieldIs 2 0) = true := by
  decide

/-- Vectors A14 and A15. -/
theorem test_fdbl :
    completes tiny 0x26150000 (fieldIs 1 7) = true ∧ completes tiny 0x26160000 (fieldIs 1 1) = true := by
  decide

/-- R108: `10 -> 3` (A17 the other way round) and vector A18. -/
theorem test_fneg :
    completes tiny 0x27150000 (fieldIs 1 3) = true ∧ completes tiny 0x27130000 (fieldIs 1 0) = true := by
  decide

/-- Vectors A19 and A20. -/
theorem test_mulx :
    completes tiny 0x28001000 (extIs 0 30) = true ∧ completes tiny 0x28022000 (extIs 0 144) = true := by
  decide

/-- Vectors A21 and A23. -/
theorem test_subx :
    completes tiny 0x29201000 (extIs 2 163) = true ∧ completes tiny 0x29211000 (extIs 2 0) = true := by
  decide

/-- Vectors G7 and G10. -/
theorem test_padd :
    completes tiny 0x30201000 (pointIs 2 (.jacobian false 2 3 10)) = true ∧
    completes tiny 0x30302000 (pointIs 3 (.jacobian false 0 8 6)) = true := by
  decide

/-- Vectors G9 (mutual negatives) and G13 (first operand Infinity). -/
theorem test_padd_cases :
    completes (points (.affine false 2 3) (.affine false 2 10)) 0x30201000 (pointIs 2 (.infinity false)) = true ∧
    completes tiny 0x30231000 (pointIs 2 (.affine true 5 3)) = true := by
  decide

/-- Vectors G3 and G2. -/
theorem test_pdbl :
    completes tiny 0x31120000 (pointIs 1 (.jacobian false 0 8 5)) = true ∧
    completes (points (.affine true 4 0) (.affine false 5 3)) 0x31100000 (pointIs 1 (.infinity true)) = true := by
  decide

/-- Vector X12: the stored `Z` of an Affine point is not read. -/
theorem test_pdbl_reads_no_z :
    completes
    { points (.affine false 2 3) (.affine false 5 3) with
      pt := tiny.pt.set 0 { tag := some 1, x := wordsOf 1 2, y := wordsOf 1 3, z := wordsOf 1 99 } }
    0x31100000 (pointIs 1 (.jacobian false 0 8 6)) = true := by
  decide

/-- Vectors G20 and G23. -/
theorem test_pneg :
    completes tiny 0x32100000 (pointIs 1 (.affine false 2 10)) = true ∧
    completes tiny 0x32130000 (pointIs 1 (.infinity true)) = true := by
  decide

/-- Vectors G26 and G24. -/
theorem test_psub :
    completes (points (.affine false 5 3) (.affine false 2 3)) 0x33201000 (pointIs 2 (.jacobian false 12 0 3)) = true ∧
    completes tiny 0x33200000 (pointIs 2 (.infinity false)) = true := by
  decide

/-- Vectors G27 and G28. -/
theorem test_psub_infinity :
    completes (points (.infinity false) (.affine true 2 3)) 0x33201000 (pointIs 2 (.affine true 2 10)) = true ∧
    completes tiny 0x33203000 (pointIs 2 (.affine false 2 3)) = true := by
  decide

/-- Vectors G33 and G30 (order 3). -/
theorem test_ptpl :
    completes tiny 0x34200000 (pointIs 2 (.jacobian false 4 0 10)) = true ∧
    completes (points (.affine false 0 1) (.affine false 5 3)) 0x34200000 (pointIs 2 (.infinity false)) = true := by
  decide

/-- Vectors G35 and G44 (`Q = 2P`). -/
theorem test_pdbladd :
    completes tiny 0x35201000 (pointIs 2 (.jacobian false 4 0 12)) = true ∧
    completes (points (.affine false 2 3) (.affine true 0 1)) 0x35201000 (pointIs 2 (.jacobian false 0 5 5)) = true := by
  decide

/-- Vectors G36 (one register named twice) and G40 (first operand of order 2). -/
theorem test_pdbladd_cases :
    completes tiny 0x35200000 (pointIs 2 (.jacobian false 4 0 10)) = true ∧
    completes (points (.affine false 4 0) (.affine true 5 3)) 0x35201000 (pointIs 2 (.affine true 5 3)) = true := by
  decide

/-- Vectors X8 (the first source comes first) and X10 (`PT2.X = 13`). -/
theorem test_point_checks :
    records (points (.affine false 2 3) (.affine false 5 3)) 0x30231000 0x22 = true ∧
    records (points (.affine false 2 3) (.affine false 5 3)) 0x30202000 0x42 = true := by
  decide

/-- Vectors X1 and X2: legality comes before the check of `P`. -/
theorem test_illegal_before_uninit :
    records State.reset 0x10800000 0x12 = true ∧ records State.reset 0x10100000 0x22 = true := by
  decide

/-- 60_exceptions.md R173: a reserved tag raises `BAD_TAG`. Vector X7. -/
theorem test_bad_tag :
    records { tiny with pt := #v[{ PointReg.unwritten 1 with tag := some 3 }, PointReg.unwritten 1, PointReg.unwritten 1,
      PointReg.unwritten 1] } 0x30201000 0x32 = true := by
  decide

/-- 00_scope.md R8: under the modulus 15 a command is refused. -/
theorem test_composite_modulus_refused :
    (match step { fresh 15 with pending := [.write 0x000 4 0x20201000] } with
      | .next _ => false
      | .fault _ => false
      | .refused r => decide (r = .modulusNotOddPrime)) = true := by
  decide

/-- `P3` of 95_test_vectors.md: while a fault is recorded a command is dropped; `CLRF` clears the record and keeps `CMD`. -/
theorem test_sticky_and_clear :
    let s := { tiny with status := { done := false, fault := true, cause := 5 }, cmd := 0x10200000, fcmd := 0x10200000 }
    takes s (.write 0x000 4 0x20211000) .ok (fun t => decide (t = { s with answers := [.ok] })) = true ∧
      takes s (.write 0x008 4 1) .ok (fun t =>
        decide (statusWord t.status = 0 ∧ t.fcmd = 0 ∧ t.cmd = 0x10200000 ∧ t.f = s.f)) = true := by
  decide

/-- 10_state.md R30: with both bits written 1, `SRST` wins. -/
theorem test_soft_reset_wins :
    takes tiny (.write 0x008 4 3) .ok (fun t => decide (t = { State.resetFor 1 with answers := [.ok] })) = true := by
  decide

/-- 95_test_vectors.md 2.2, directly after reset. -/
theorem test_reads_after_reset :
    memRead (State.resetFor 1) 0x00C 4 = .word 0x00044801 ∧ memRead State.reset 0x00C 4 = .word 0x00044806 ∧
      memRead (State.resetFor 1) 0x004 4 = .word 0 ∧ memRead (State.resetFor 1) 0x008 4 = .word 0 ∧
      memRead (State.resetFor 1) 0x014 4 = .err ∧ memRead (State.resetFor 1) 0x040 4 = .err ∧
      memRead (State.resetFor 1) 0x800 4 = .err := by
  decide

/-- 95_test_vectors.md 2.2: the edges of the map with `LEN = 6`, and accesses that are not aligned 4-byte accesses. -/
theorem test_map_edges :
    access 6 0x154 4 = some (.data (.f 1 5)) ∧ access 6 0x158 4 = none ∧ access 6 0x42C 4 = some (.data (.e 0 11)) ∧
      access 6 0x430 4 = none ∧ access 1 0xBC0 4 = some (.data (.z 3 0)) ∧ access 1 0xBC4 4 = none ∧
      access 16 0xC00 4 = none ∧ access 1 0x804 4 = none ∧ access 1 0x102 4 = none ∧ access 1 0x100 2 = none := by
  decide

/-- The first and the last word of a window at 0x40000000, and the words beside them, which are not the block's
(20_memory.md R41, R43). -/
theorem test_launch :
    ((State.resetFor 1).launch 0x40000000
      [.read 0x3FFFFFFC 4, .write 0x40000000 4 7, .read 0x40000BFC 4, .read 0x40000C00 4]).pending =
        [.write 0x000 4 7, .read 0xBFC 4] := by
  decide

/-- The modulus and `F0 = p - 1` of vector B13, `LEN = 6`, by the words 95_test_vectors.md 2.3 prints. -/
def secp192k1 : State :=
  { State.reset with
    p := [some 0xFFFFEE37, some 0xFFFFFFFE, some 0xFFFFFFFF, some 0xFFFFFFFF, some 0xFFFFFFFF, some 0xFFFFFFFF]
    f := State.reset.f.set 0
      [some 0xFFFFEE36, some 0xFFFFFFFE, some 0xFFFFFFFF, some 0xFFFFFFFF, some 0xFFFFFFFF, some 0xFFFFFFFF] }

/-- Vector B13: the words of `E0` that a host reads, word 0 the least significant. -/
theorem test_extended_words :
    completes secp192k1 0x28000000 (fun t => decide (
      memRead t 0x400 4 = .word 0x013C7364 ∧ memRead t 0x404 4 = .word 0x00002394 ∧ memRead t 0x408 4 = .word 1 ∧
        memRead t 0x418 4 = .word 0xFFFFDC6C ∧ memRead t 0x41C 4 = .word 0xFFFFFFFD ∧
        memRead t 0x42C 4 = .word 0xFFFFFFFF ∧ memRead t 0x430 4 = .err)) = true := by
  decide

/-- Vector J1: `LEN = 2`, `p = 2^64 - 59`, `x = 2^32` in the words 0 and 1. -/
theorem test_field_words :
    completes
      { State.resetFor 2 with
        p := [some 0xFFFFFFC5, some 0xFFFFFFFF], f := (State.resetFor 2).f.set 0 [some 0, some 1] }
      0x10100000
      (fun t => decide (memRead t 0x140 4 = .word 0xFFFFFFDB ∧ memRead t 0x144 4 = .word 0xA08AD8F2)) = true := by
  decide

/-- The words of program P4's point `PT0` (`TAG` 5), of `Infinity(1)` (4), and of G1's operand (1), as a host writes them. -/
def tagged : State :=
  { fresh 13 with pt := #v[⟨some 5, [some 2], [some 3], [none]⟩, ⟨some 4, [none], [none], [none]⟩,
      ⟨some 1, [some 2], [some 3], [none]⟩, PointReg.unwritten 1] }

/-- Program P4 (PNEG), vectors G23 and G1: the tag and the coordinates that a host reads in the result. -/
theorem test_tag_words :
    completes tagged 0x32300000 (fun t => decide (memRead t 0xB00 4 = .word 5 ∧ memRead t 0xB40 4 = .word 2 ∧
      memRead t 0xB80 4 = .word 10 ∧ memRead t 0xBC0 4 = .err)) = true ∧
    completes tagged 0x32310000 (fun t => decide (memRead t 0xB00 4 = .word 4 ∧ memRead t 0xB40 4 = .err)) = true ∧
    completes tagged 0x31320000 (fun t => decide (memRead t 0xB00 4 = .word 2 ∧ memRead t 0xB40 4 = .word 0 ∧
      memRead t 0xB80 4 = .word 8 ∧ memRead t 0xBC0 4 = .word 6)) = true := by
  decide

/-- 95_test_vectors.md 2.2: a tag keeps bits 2:0 only. -/
theorem test_tag_write :
    takes (State.resetFor 1) (.write 0x800 4 0xFFFFFFFF) .ok (fun t => decide (memRead t 0x800 4 = .word 7)) = true := by
  decide

/-- A write to a read-only register is `ERR` and changes nothing. -/
theorem test_read_only :
    takes tiny (.write 0x004 4 5) .err (fun t => decide (t = { tiny with answers := [.err] })) = true := by
  decide

/-- The very next step after reset runs the word given: `P` holds no value, so `UNINIT` is recorded with that word. -/
theorem test_withFetchWord :
    (match step (State.reset.withFetchWord 32 0x20201000) with
      | .next t => decide (t = { State.reset with
          cmd := 0x20201000, fcmd := 0x20201000, answers := [.ok]
          status := { done := false, fault := true, cause := 2 } })
      | .fault _ => false
      | .refused _ => false) = true := by
  decide

/-! ### Witnesses: for each statement with hypotheses, states and operands that meet them, each clause at a boundary -/

/-- The state with one transaction pending. -/
def pend (s : State) (tx : Transaction) : State := { s with pending := [tx] }

/-- A state in which a fault is recorded. -/
def faulted : State :=
  { tiny with status := { done := false, fault := true, cause := 5 }, cmd := 0x10200000, fcmd := 0x10200000 }

/-- The outcome is a next state. -/
def isNext : Host.Outcome State Fault Refusal → Bool
  | .next _ => true
  | .fault _ => false
  | .refused _ => false

theorem isNext_iff {o : Host.Outcome State Fault Refusal} : isNext o = true → ∃ t, o = .next t := by
  intro h
  cases o with
  | next t => exact ⟨t, rfl⟩
  | fault _ => simp [isNext] at h
  | refused _ => simp [isNext] at h

/-- The state the outcome answers. -/
def nextOf : Host.Outcome State Fault Refusal → State
  | .next t => t
  | .fault _ => State.reset
  | .refused _ => State.reset

theorem next_nextOf {o : Host.Outcome State Fault Refusal} : isNext o = true → o = .next (nextOf o) := by
  intro h
  obtain ⟨t, rfl⟩ := isNext_iff h
  rfl

theorem tiny_modulus : tiny.ModulusIs 13 := ⟨by decide, by norm_num, by norm_num⟩

theorem allowed_of {s : State} {p : Nat} (h : s.ModulusIs p) : s.ModulusAllowed := by
  intro q hq
  rw [h.1] at hq
  cases hq
  exact h.2

theorem tiny_allowed : tiny.ModulusAllowed := allowed_of tiny_modulus

theorem fresh_allowed : (fresh 13).ModulusAllowed := allowed_of tiny_modulus

theorem reset_allowed : State.reset.ModulusAllowed := by
  intro p h
  exact absurd h (by rw [show valueOf State.reset.p = none by decide]; simp)

theorem test_witness_DecodeOfEncodeIsTheCommand :
    (Instr.fmul 7 7 7).wf = true ∧ (Instr.fred 7 3).wf = true ∧ (Instr.pdbladd 3 3 3).wf = true := by decide

theorem test_witness_WordIsCommandIffRowMatches :
    (0x20777000 : Word) &&& (Instr.fmul 7 7 7).row.2.2 = (Instr.fmul 7 7 7).row.2.1 ∧
      (0x10FF0000 : Word) &&& (Instr.finv 0 0).row.2.2 = (Instr.finv 0 0).row.2.1 := by decide

theorem test_witness_EveryWordIsACommandOrIllegal :
    (pend tiny (.write 0x000 4 0x20801000)).pending = [.write 0x000 4 0x20801000] ∧ tiny.status.fault = false ∧
      illegalWord 0x20801000 = true ∧ illegalWord 0x10008000 = true ∧ illegalWord 0x35334000 = true ∧
      illegalWord 0x36000000 = true ∧ illegalWord 0x20777000 = false ∧ illegalWord 0x35333000 = false := by decide

theorem test_witness_StepRunsTheDecodedCommand :
    (pend tiny (.write 0x000 4 0x20201000)).pending = [.write 0x000 4 0x20201000] ∧ tiny.status.fault = false ∧
      decode 0x20201000 = .ok (.fmul 2 0 1) := by decide

theorem test_witness_EveryStepIsOneTransaction :
    tiny.pending = [] ∧ (pend tiny (.read 0x004 4)).pending = .read 0x004 4 :: [] ∧
      isNext (step (pend tiny (.read 0x004 4))) = true := by decide

/-- An offset one past `P`, an access of two bytes, and the offset of `Z` of the last point, for `LEN = 1`. -/
theorem test_witness_TransactionOutcomes :
    tiny.len ≤ 16 ∧ (Target.data (.z 3 0)).Exists tiny.len ∧ (Target.data (.e 3 1)).Exists tiny.len ∧
      (∀ tgt : Target, tgt.Exists tiny.len → ¬(4 = 4 ∧ 0x044 = tgt.offset)) ∧
      (∀ tgt : Target, tgt.Exists tiny.len → ¬(2 = 4 ∧ 0x040 = tgt.offset)) ∧
      (pend tiny (.read 0x044 4)).pending = .read 0x044 4 :: [] ∧ tiny.Shaped ∧
      tiny.status.fault = false ∧ decode 0x20777000 = .ok (.fmul 7 7 7) ∧ (∀ i, decode 0 ≠ .ok i) ∧
      faulted.status.fault = true := by
  refine ⟨by decide, by decide, by decide, ?_, by simp, rfl, by decide, by decide, by decide, ?_, by decide⟩
  · intro tgt ex h
    have := (Laws.access_iff (len := 1) (addr := 0x044) (size := 4) (tgt := tgt) (by norm_num)).2 ⟨rfl, ex, h.2⟩
    rw [show access 1 0x044 4 = none by decide] at this
    cases this
  · intro i h
    rw [show decode 0 = .error .unknownOpcode by decide] at h
    cases h

theorem test_witness_DataWordWriteSetsThatWordOnly :
    tiny.Shaped ∧ DataWord.Exists tiny.len (.z 3 0) ∧ DataWord.Exists tiny.len (.e 3 1) ∧
      DataWord.Exists tiny.len (.tag 3) ∧
      (pend tiny (.write (DataWord.z 3 0).offset 4 5)).pending = .write (DataWord.z 3 0).offset 4 5 :: [] := by decide

theorem test_witness_ErrChangesNothing :
    isNext (step (pend tiny (.read 0x044 4))) = true ∧ (pend tiny (.read 0x044 4)).pending ≠ [] ∧
      (nextOf (step (pend tiny (.read 0x044 4)))).answers = .err :: [] := by decide

theorem test_witness_CtrlStrobes :
    (pend faulted (.write 0x008 4 3)).pending = .write 0x008 4 3 :: [] ∧ BitVec.getLsbD (3 : Word) 1 = true ∧
      BitVec.getLsbD (1 : Word) 1 = false ∧ BitVec.getLsbD (1 : Word) 0 = true ∧
      BitVec.getLsbD (0xFFFFFFFC : Word) 0 = false := by decide

theorem test_witness_ResetsLeaveNoValueHeld :
    State.reset = State.resetFor State.reset.len ∧ (nextOf (.next tiny.hardReset) = tiny.hardReset) ∧
      (pend tiny (.write 0x008 4 2)).pending = .write 0x008 4 2 :: [] ∧ BitVec.getLsbD (2 : Word) 1 = true ∧
      isNext (step (pend tiny (.write 0x008 4 2))) = true := by decide

theorem test_witness_StatusAndConfigFields : (1 : Nat) ≤ 16 ∧ (16 : Nat) ≤ 16 := by decide

theorem test_witness_FaultEntryIsExactAndPrecise :
    (pend tiny (.write 0x000 4 0x10130000)).pending = .write 0x000 4 0x10130000 :: [] ∧ tiny.status.fault = false ∧
      isNext (step (pend tiny (.write 0x000 4 0x10130000))) = true ∧
      (nextOf (step (pend tiny (.write 0x000 4 0x10130000)))).status.fault = true := by decide

/-- Each cause of steps 2 to 5 of R173. -/
theorem test_witness_FirstFailedCheckDecidesTheCause :
    tiny.ModulusAllowed ∧ State.reset.ModulusAllowed ∧ (Instr.finv 1 7).wf = true ∧
      State.reset.firstFailedCheck (.finv 1 7) = some .uninit ∧ tiny.firstFailedCheck (.finv 1 7) = some .uninit ∧
      tiny.firstFailedCheck (.fmul 1 4 7) = some .uninit ∧ tiny.firstFailedCheck (.finv 1 4) = some .operandRange ∧
      tiny.firstFailedCheck (.subx 0 2 3) = some .operandRange ∧ tiny.firstFailedCheck (.finv 1 3) = some .invZero ∧
      { tiny with pt := tiny.pt.set 0 { PointReg.unwritten 1 with tag := some 7 } }.firstFailedCheck (.pdbl 1 0) =
        some .badTag :=
  ⟨tiny_allowed, reset_allowed, by decide⟩

theorem test_witness_IllFormedCommandRaisesIllegalCmd :
    (Instr.finv 8 0).wf = false ∧ (Instr.pdbladd 3 3 4).wf = false := by decide

theorem test_witness_FaultRecordIsStickyAndDropsCommands :
    faulted.status.fault = true ∧ faulted.len ≤ 16 ∧ DataWord.Exists faulted.len (.z 3 0) ∧
      faulted.dataWord (.f 0 0) = some 6 ∧ isNext (step (pend faulted (.write 0x000 4 0x20211000))) = true ∧
      (pend faulted (.read 0x010 4)).pending = .read 0x010 4 :: [] := by decide

theorem test_witness_ClearingTheFaultRecord :
    faulted.RecordSound ∧ faulted.status.fault = true ∧ BitVec.getLsbD (1 : Word) 0 = true ∧
      BitVec.getLsbD (1 : Word) 1 = false ∧ decode 0x20211000 = .ok (.fmul 2 1 1) ∧
      { faulted with pending := [.write 0x008 4 1, .write 0x000 4 0x20211000] }.pending =
        .write 0x008 4 1 :: .write 0x000 4 0x20211000 :: [] := by decide

theorem test_witness_RefusedExactlyUnderABadModulus :
    (Instr.fmul 7 7 7).wf = true ∧ (valueOf (fresh 15).p = some 15 ∧ ¬(Nat.Prime 15 ∧ 15 ≠ 2)) ∧
      (valueOf (fresh 2).p = some 2 ∧ ¬(Nat.Prime 2 ∧ 2 ≠ 2)) :=
  ⟨by decide, ⟨by decide, by norm_num⟩, by decide, by norm_num⟩

theorem test_witness_EveryStepAnswersANextState :
    (tiny.Shaped ∧ tiny.ModulusAllowed) ∧ State.reset.Shaped ∧ State.reset.ModulusAllowed :=
  ⟨⟨by decide, tiny_allowed⟩, by decide, reset_allowed⟩

theorem test_witness_InternalIsNeverRecorded :
    (pend tiny (.write 0x000 4 0x10300000)).Shaped ∧ tiny.status.cause ≠ 6 ∧
      isNext (step (pend tiny (.write 0x000 4 0x10300000))) = true := by decide

theorem test_witness_ResetMeetsTheInvariant : (1 : Nat) ≤ 1 ∧ (1 : Nat) ≤ 16 ∧ (16 : Nat) ≤ 16 := by decide

theorem test_witness_EveryStepKeepsTheInvariant :
    (pend tiny (.write 0x000 4 0x10300000)).Inv ∧ (pend faulted (.write 0x008 4 1)).Inv ∧
      isNext (step (pend tiny (.write 0x000 4 0x10300000))) = true ∧
      isNext (step (pend faulted (.write 0x008 4 1))) = true := by decide

theorem test_witness_CommandsChangeTheirDestinationOnly :
    isNext (exec (.fmul 2 0 1) tiny) = true ∧ isNext (exec (.finv 2 3) tiny) = true ∧
      DataWord.register? (.f 1 0) ≠ some (Instr.fmul 2 0 1).destination ∧
      DataWord.register? (.e 2 0) ≠ some (Instr.fmul 2 0 1).destination ∧
      access tiny.len 0x140 4 = some (.data (.f 1 0)) := by decide

/-- A command, a host write, a soft reset, and a command word that faults. -/
theorem test_witness_OnlyTheseEventsChangeAWord :
    tiny.Shaped ∧ isNext (step (pend tiny (.write 0x000 4 0x20201000))) = true ∧
      (nextOf (step (pend tiny (.write 0x000 4 0x20201000)))).dataWord (.f 2 0) ≠ tiny.dataWord (.f 2 0) ∧
      (nextOf (step (pend tiny (.write 0xBC0 4 9)))).dataWord (.z 3 0) ≠ tiny.dataWord (.z 3 0) ∧
      (nextOf (step (pend tiny (.write 0x008 4 2)))).dataWord (.p 0) ≠ tiny.dataWord (.p 0) ∧
      (nextOf (step (pend tiny (.write 0x000 4 0)))).status ≠ tiny.status := by decide

/-- Two states that differ outside the sources, and a command that completes and one that faults. -/
theorem test_witness_ResultDependsOnSourcesAndModulusOnly :
    let u := { tiny with e := Vector.replicate 4 (noWords 2), f := tiny.f.set 2 (noWords 1) }
    tiny.len = u.len ∧ tiny.p = u.p ∧
      (∀ r ∈ (Instr.fmul 2 0 1).sources, tiny.SameContents r u r) ∧
      (∀ r ∈ (Instr.finv 2 3).sources, tiny.SameContents r u r) ∧ isNext (exec (.fmul 2 0 1) tiny) = true ∧
      (nextOf (exec (.fmul 2 0 1) tiny)).status.done = true ∧ isNext (exec (.finv 2 3) tiny) = true ∧
      (nextOf (exec (.finv 2 3) tiny)).status.done = false := by
  refine ⟨rfl, rfl, ?_, ?_, by decide, by decide, by decide, by decide⟩
  · intro r hr
    simp only [Instr.sources, List.mem_cons, List.not_mem_nil, or_false] at hr
    rcases hr with rfl | rfl <;> rfl
  · intro r hr
    simp only [Instr.sources, List.mem_cons, List.not_mem_nil, or_false] at hr
    subst hr
    rfl

theorem test_witness_DestinationMayBeASource :
    isNext (exec (.fmul 2 0 1) tiny) = true ∧ (nextOf (exec (.fmul 2 0 1) tiny)).status.done = true ∧
      ((Instr.fmul 2 0 1).withDestination 0).wf = true ∧ isNext (exec (.padd 3 0 1) tiny) = true ∧
      (nextOf (exec (.padd 3 0 1) tiny)).status.done = true ∧ ((Instr.padd 3 0 1).withDestination 1).wf = true := by
  decide

theorem test_witness_OperandsAndResultsAreReduced :
    tiny.Shaped ∧ tiny.ModulusIs 13 ∧
      (isNext (exec (.mulx 3 2 2) tiny) = true ∧ (nextOf (exec (.mulx 3 2 2) tiny)).status.done = true) ∧
      (isNext (exec (.ptpl 3 2) tiny) = true ∧ (nextOf (exec (.ptpl 3 2) tiny)).status.done = true) ∧
      isNext (exec (.finv 7 2) tiny) = true ∧ (nextOf (exec (.finv 7 2) tiny)).status.done = true :=
  ⟨by decide, tiny_modulus, by decide⟩

theorem test_witness_CheckedCommandCompletes :
    tiny.Shaped ∧ tiny.ModulusIs 13 ∧ (Instr.finv 7 2).wf = true ∧ tiny.firstFailedCheck (.finv 7 2) = none ∧
      tiny.firstFailedCheck (.fred 7 2) = none ∧ tiny.firstFailedCheck (.pdbladd 3 2 3) = none :=
  ⟨by decide, tiny_modulus, by decide⟩

/-- `x = 0` and `x = p - 1`, and a command for each of the causes named. -/
theorem test_witness_FinvWritesTheInverse :
    tiny.Shaped ∧ tiny.ModulusIs 13 ∧ tiny.ModulusAllowed ∧ valueOf tiny.f[(3 : Fin 8)] = some 0 ∧
      valueOf tiny.f[(2 : Fin 8)] = some 12 ∧ tiny.firstFailedCheck (.finv 0 7) = some .uninit ∧
      tiny.firstFailedCheck (.finv 0 4) = some .operandRange ∧ tiny.firstFailedCheck (.finv 0 3) = some .invZero :=
  ⟨by decide, tiny_modulus, tiny_allowed, by decide⟩

/-- The largest arrays of one word, shifts by 1 and by 31 bits, and the words `1` and `2^31`. -/
theorem test_witness_UtilityLayerMeetsItsContracts :
    2 ^ 32 - 1 < 2 ^ (32 * 1) ∧ 0 < 2 ^ (32 * 1) ∧ (1 ≤ 1 ∧ 1 ≤ 31) ∧ (1 ≤ 31 ∧ 31 ≤ 31) ∧ 0 + 1 < 2 ∧ 2 ≤ 2 ∧
      (0 < 1 ∧ 1 < 2 ^ 32) ∧ 0 < 2 ^ 31 ∧ 2 ^ 31 < 2 ^ 32 := by
  decide

/-- `u = 6` with the signed values 1, `p - 1` and `1 - p`. -/
theorem test_witness_OddReductionHalvesModuloP :
    13 % 2 = 1 ∧ 13 < wordsBound 1 ∧ 0 < 6 ∧ 6 < wordsBound 1 ∧
      (1 < wordsBound 1 ∧ LegalCounter 0 ∧ -(13 : Nat) < signedValue 1 1 0 ∧ signedValue 1 1 0 < (13 : Nat)) ∧
      (12 < wordsBound 1 ∧ signedValue 1 12 0 < (13 : Nat)) ∧
      (2 ^ 32 - 12 < wordsBound 1 ∧ LegalCounter (-1) ∧ -(13 : Nat) < signedValue 1 (2 ^ 32 - 12) (-1)) := by
  decide

/-- `x = 1` and `x = p - 1`; for the end, `x = 6` with the signed values 11 and `11 - p` of its inverse (vector I6). -/
theorem test_witness_InversionStartsAndEndsAsTheRulesSay :
    Nat.Prime 13 ∧ 13 ≠ 2 ∧ 13 < wordsBound 1 ∧ (0 < 1 ∧ 1 < 13) ∧ (0 < 12 ∧ 12 < 13 ∧ 12 ≠ 1) ∧
      (11 < wordsBound 1 ∧ LegalCounter 0 ∧ -(13 : Nat) < signedValue 1 11 0 ∧ signedValue 1 11 0 < (13 : Nat) ∧
        signedValue 1 11 0 * (6 : Nat) ≡ 1 [ZMOD (13 : Nat)]) ∧
      (2 ^ 32 - 2 < wordsBound 1 ∧ LegalCounter (-1) ∧ -(13 : Nat) < signedValue 1 (2 ^ 32 - 2) (-1) ∧
        signedValue 1 (2 ^ 32 - 2) (-1) < (13 : Nat) ∧
        signedValue 1 (2 ^ 32 - 2) (-1) * (6 : Nat) ≡ 1 [ZMOD (13 : Nat)]) :=
  ⟨by norm_num, by decide⟩

/-- The inversion of 5 modulo 13 before its first turn (`u < v`), and of 10 modulo 11 before its second (`v ≤ u`, both
signed values negative, the one of `u` at the end of its range). -/
theorem test_witness_InversionTurnKeepsTheInvariant :
    (Nat.Prime 13 ∧ 13 ≠ 2 ∧ 13 < wordsBound 1) ∧ (Nat.Prime 11 ∧ 11 ≠ 2 ∧ 11 < wordsBound 1) ∧
      (InversionInvariant 1 13 5 5 1 0 13 0 0 ∧ 5 ≠ 1 ∧ 13 ≠ 1 ∧ 5 < wordsBound 1 ∧ 5 < 13) ∧
      InversionInvariant 1 11 10 5 (2 ^ 32 - 5) (-1) 3 (2 ^ 32 - 3) (-1) ∧ 5 ≠ 1 ∧ 3 ≠ 1 ∧ 3 ≤ 5 :=
  ⟨by norm_num, by norm_num,
    ⟨⟨by decide, by decide, by decide, by decide, .inl rfl, .inl rfl⟩, by decide⟩,
    ⟨by decide, by decide, by decide, by decide, .inr rfl, .inr rfl⟩, by decide⟩

theorem test_witness_FmulAndMmulWriteTheProduct :
    tiny.ModulusIs 13 ∧ tiny.ModulusAllowed ∧ valueOf tiny.f[(2 : Fin 8)] = some 12 ∧
      tiny.firstFailedCheck (.fmul 0 0 7) = some .uninit ∧ tiny.firstFailedCheck (.mmul 0 4 0) = some .operandRange :=
  ⟨tiny_modulus, tiny_allowed, by decide⟩

theorem test_witness_FsqrFdblFnegWriteTheirResults :
    tiny.ModulusIs 13 ∧ tiny.ModulusAllowed ∧ valueOf tiny.f[(2 : Fin 8)] = some 12 ∧
      valueOf tiny.f[(3 : Fin 8)] = some 0 ∧ tiny.firstFailedCheck (.fsqr 0 7) = some .uninit ∧
      tiny.firstFailedCheck (.fdbl 0 4) = some .operandRange ∧ tiny.firstFailedCheck (.fneg 0 4) = some .operandRange :=
  ⟨tiny_modulus, tiny_allowed, by decide⟩

theorem test_witness_FaddAndFsubWriteSumAndDifference :
    tiny.ModulusIs 13 ∧ tiny.ModulusAllowed ∧ valueOf tiny.f[(2 : Fin 8)] = some 12 ∧
      valueOf tiny.f[(3 : Fin 8)] = some 0 ∧ tiny.firstFailedCheck (.fadd 0 0 7) = some .uninit ∧
      tiny.firstFailedCheck (.fsub 0 0 4) = some .operandRange :=
  ⟨tiny_modulus, tiny_allowed, by decide⟩

theorem test_witness_MulxWritesTheUnreducedProduct :
    tiny.ModulusIs 13 ∧ tiny.ModulusAllowed ∧ valueOf tiny.f[(2 : Fin 8)] = some 12 ∧
      tiny.firstFailedCheck (.mulx 0 0 7) = some .uninit ∧ tiny.firstFailedCheck (.mulx 0 4 0) = some .operandRange :=
  ⟨tiny_modulus, tiny_allowed, by decide⟩

theorem test_witness_SubxWritesTheExtendedDifference :
    tiny.ModulusIs 13 ∧ tiny.ModulusAllowed ∧ (fresh 13).ModulusAllowed ∧
      valueOf tiny.e[(2 : Fin 4)] = some 168 ∧ 168 < 13 ^ 2 ∧
      valueOf tiny.e[(0 : Fin 4)] = some 30 ∧ (fresh 13).firstFailedCheck (.subx 0 0 1) = some .uninit ∧
      tiny.firstFailedCheck (.subx 0 0 3) = some .operandRange :=
  ⟨tiny_modulus, tiny_allowed, fresh_allowed, by decide⟩

/-- `p^2 - 1` and `p^2`. -/
theorem test_witness_FredWritesTheResidue :
    tiny.ModulusIs 13 ∧ tiny.ModulusAllowed ∧ (fresh 13).ModulusAllowed ∧
      (valueOf tiny.e[(3 : Fin 4)] = some 169 ∧ 13 ^ 2 ≤ 169) ∧
      (valueOf tiny.e[(2 : Fin 4)] = some 168 ∧ 168 < 13 ^ 2) ∧
      (fresh 13).firstFailedCheck (.fred 0 0) = some .uninit ∧ tiny.firstFailedCheck (.fred 0 3) = some .operandRange :=
  ⟨tiny_modulus, tiny_allowed, fresh_allowed, by decide⟩

theorem test_witness_FieldFunctionsReturnTheReducedResidue :
    Nat.Prime 13 ∧ 12 < 13 ∧ 0 < 13 ∧ 168 < 13 ^ 2 := by norm_num

theorem test_witness_FieldFunctionIdentities : Nat.Prime 3 ∧ 2 < 3 ∧ 0 < 3 ∧ 8 < 3 ^ 2 := by norm_num

/-- What the statements of the two-operand point commands assume. -/
theorem test_witness_PaddWritesTheSum :
    tiny.ModulusIs 13 ∧ tiny.ModulusAllowed ∧ (fresh 13).ModulusAllowed ∧
      logicalPoint tiny.pt[(2 : Fin 4)] = .ok (.jacobian false 8 11 2) ∧
      logicalPoint tiny.pt[(3 : Fin 4)] = .ok (.infinity true) ∧
      Point.reduced 13 (.jacobian false 8 11 2) = true ∧ Point.reduced 13 (.infinity true) = true ∧
      (fresh 13).firstFailedCheck (.padd 0 0 1) = some .uninit ∧
      (points (.affine false 2 3) (.affine false 5 3)).firstFailedCheck (.padd 0 1 2) = some .operandRange :=
  ⟨tiny_modulus, tiny_allowed, fresh_allowed, by decide⟩

theorem test_witness_PdblAndPnegWriteDoubleAndNegative :
    tiny.ModulusIs 13 ∧ tiny.ModulusAllowed ∧ (fresh 13).ModulusAllowed ∧
      logicalPoint tiny.pt[(0 : Fin 4)] = .ok (.affine false 2 3) ∧
      Point.reduced 13 (.affine false 2 3) = true ∧ (fresh 13).firstFailedCheck (.pdbl 0 0) = some .uninit ∧
      (fresh 13).firstFailedCheck (.pneg 0 0) = some .uninit :=
  ⟨tiny_modulus, tiny_allowed, fresh_allowed, by decide⟩

theorem test_witness_PsubWritesTheDifference :
    tiny.ModulusIs 13 ∧ tiny.ModulusAllowed ∧ (fresh 13).ModulusAllowed ∧
      logicalPoint tiny.pt[(0 : Fin 4)] = .ok (.affine false 2 3) ∧
      Point.reduced 13 (.affine false 2 3) = true ∧ (fresh 13).firstFailedCheck (.psub 0 0 1) = some .uninit :=
  ⟨tiny_modulus, tiny_allowed, fresh_allowed, by decide⟩

theorem test_witness_PtplWritesTheTriple :
    tiny.ModulusIs 13 ∧ tiny.ModulusAllowed ∧ (fresh 13).ModulusAllowed ∧
      logicalPoint tiny.pt[(0 : Fin 4)] = .ok (.affine false 2 3) ∧
      Point.reduced 13 (.affine false 2 3) = true ∧ (fresh 13).firstFailedCheck (.ptpl 0 0) = some .uninit :=
  ⟨tiny_modulus, tiny_allowed, fresh_allowed, by decide⟩

theorem test_witness_PdbladdWritesTwiceTheFirstPlusTheSecond :
    tiny.ModulusIs 13 ∧ tiny.ModulusAllowed ∧ (fresh 13).ModulusAllowed ∧
      logicalPoint tiny.pt[(0 : Fin 4)] = .ok (.affine false 2 3) ∧
      Point.reduced 13 (.affine false 2 3) = true ∧ (fresh 13).firstFailedCheck (.pdbladd 0 0 1) = some .uninit :=
  ⟨tiny_modulus, tiny_allowed, fresh_allowed, by decide⟩

theorem test_witness_WrittenPointReadsBack :
    tiny.Shaped ∧ tiny.ModulusIs 13 ∧ Point.reduced 13 (.jacobian true 12 12 0) = true ∧
      Point.reduced 13 (.affine true 0 12) = true ∧ Point.reduced 13 (.infinity true) = true ∧ 0 < tiny.len :=
  ⟨by decide, tiny_modulus, by decide⟩

/-- One point for each of the three cases. -/
theorem test_witness_TwiceComputesTheDoubling :
    Nat.Prime 13 ∧ Point.reduced 13 (.infinity true) = true ∧ Point.isInfinity (.infinity true) = true ∧
      (Point.reduced 13 (.affine false 4 0) = true ∧ (Point.affine false 4 0).yCoord = 0) ∧
      Point.reduced 13 (.jacobian false 8 11 2) = true ∧ (Point.jacobian false 8 11 2).yCoord ≠ 0 :=
  ⟨by norm_num, by decide⟩

/-- Vectors G10 (`H = 0`, `R_ = 0`), G9 (`H = 0`, `R_` not 0) and G7 (`H` not 0). -/
theorem test_witness_AddComputesTheRulesCases :
    Nat.Prime 13 ∧ Point.reduced 13 (.affine false 2 3) = true ∧ Point.reduced 13 (.jacobian false 8 11 2) = true ∧
      (((2 : Nat) : ZMod 13) * ((2 : Nat) : ZMod 13) ^ 2 - ((8 : Nat) : ZMod 13) * ((1 : Nat) : ZMod 13) ^ 2 = 0 ∧
        ((3 : Nat) : ZMod 13) * ((2 : Nat) : ZMod 13) ^ 3 - ((11 : Nat) : ZMod 13) * ((1 : Nat) : ZMod 13) ^ 3 = 0) ∧
      ((3 : Nat) : ZMod 13) * ((1 : Nat) : ZMod 13) ^ 3 - ((10 : Nat) : ZMod 13) * ((1 : Nat) : ZMod 13) ^ 3 ≠ 0 ∧
      ((2 : Nat) : ZMod 13) * ((1 : Nat) : ZMod 13) ^ 2 - ((5 : Nat) : ZMod 13) * ((1 : Nat) : ZMod 13) ^ 2 ≠ 0 :=
  ⟨by norm_num, by decide⟩

theorem test_witness_NegateNegatesY : Nat.Prime 13 ∧ 8 < 13 ∧ 12 < 13 ∧ 0 < 13 := by norm_num

theorem test_witness_FlagOfAResult :
    (Point.infinity true).isInfinity = true ∧ (Point.affine false 4 0).isInfinity = false ∧
      (Point.affine false 4 0).yCoord = 0 ∧ (Point.jacobian true 8 11 2).isInfinity = false := by decide

theorem test_witness_StoredUnitZGivesIdenticalResults :
    (Point.affine false 2 3).isInfinity = false ∧ (Point.affine true 5 3).isInfinity = false ∧
      (Point.affine false 2 3).yCoord ≠ 0 ∧
      (Point.affine false 2 3).withStoredZ ∈ [Point.affine false 2 3, (Point.affine false 2 3).withStoredZ] := by decide

theorem test_witness_AddIsCommutativeAsPoints :
    Nat.Prime 13 ∧ Point.reduced 13 (.affine false 2 3) = true ∧ Point.reduced 13 (.jacobian false 8 11 2) = true ∧
      (((Point.affine false 2 3).zEff : Nat) : ZMod 13) ≠ 0 ∧ (((Point.jacobian false 8 11 2).zEff : Nat) : ZMod 13) ≠ 0 :=
  ⟨by norm_num, by decide⟩

theorem test_witness_SourcesTestableProperties :
    Nat.Prime 13 ∧ 13 ≠ 2 ∧ Point.reduced 13 (.affine false 4 0) = true ∧ Point.reduced 13 (.infinity true) = true ∧
      (((Point.affine false 4 0).zEff : Nat) : ZMod 13) ≠ 0 :=
  ⟨by norm_num, by decide⟩

/-- The point `(2, 3)` of `y^2 = x^3 + 1` over the integers modulo 13, with `Z = 2` as in vector G3. -/
theorem test_witness_PointFunctionsAreTheGroupLaw :
    ∃ g : (curve 13 1).Point, (Point.jacobian false 8 11 2).Represents g ∧ (Point.affine true 2 3).Represents g ∧
      Point.reduced 13 (.jacobian false 8 11 2) = true ∧
      (Point.infinity true).Represents (0 : (curve 13 1).Point) := by
  have onCurve : (curve 13 1).Nonsingular 2 3 := by
    rw [WeierstrassCurve.Affine.nonsingular_iff, WeierstrassCurve.Affine.equation_iff]
    decide
  exact ⟨.some 2 3 onCurve, ⟨by decide, by decide, by decide, by decide⟩, ⟨by decide, by decide, by decide, by decide⟩,
    by decide, rfl⟩

/-- The last offset of a window at 0x40000000 between the addresses next to the window. -/
theorem test_witness_WindowIsBoundAtTheLaunchsBase :
    (∀ tx ∈ [Transaction.read 0 4, .write 0xBFF 4 7], tx.addr < 3072) ∧
      (∀ tx ∈ [Transaction.read 0x3FFFFFFF 4] ++ [.read 0x40000C00 4],
        tx.addr < 0x40000000 ∨ 0x40000000 + 3072 ≤ tx.addr) ∧
      tiny.len ≤ 16 ∧ (Target.data (.z 3 0)).Exists tiny.len := by
  decide

/-- The largest array of two words. -/
theorem test_witness_WordZeroIsTheLeastSignificant :
    2 ^ 64 - 1 < 2 ^ (32 * 2) ∧ 0 < 2 ∧ 1 < 2 ∧ none ∈ [some (0xFFFFFFFF : Word), none] := by
  decide

/-- The first and the last word of registers that hold values. -/
theorem test_witness_HostReadsValuesLittleEndian :
    tiny.Shaped ∧ 0 < tiny.len ∧ 1 < 2 * tiny.len ∧ valueOf tiny.p = some 13 ∧ valueOf tiny.f[(2 : Fin 8)] = some 12 ∧
      valueOf tiny.e[(3 : Fin 4)] = some 169 ∧ valueOf tiny.pt[(2 : Fin 4)].x = some 8 ∧
      valueOf tiny.pt[(2 : Fin 4)].y = some 11 ∧ valueOf tiny.pt[(2 : Fin 4)].z = some 2 := by
  decide

/-- A register for each tag: Affine with and without its words, Jacobian with and without, Infinity, reserved, none. -/
theorem test_witness_PointRegisterReadsAsItsTagSays :
    (tagged.dataWord (.tag 0) = some 5 ∧ bits 5 1 0 = 1 ∧ valueOf tagged.pt[(0 : Fin 4)].x = some 2 ∧
      valueOf tagged.pt[(0 : Fin 4)].y = some 3) ∧
    (tagged.dataWord (.tag 1) = some 4 ∧ bits 4 1 0 = 0) ∧ tagged.dataWord (.tag 3) = none ∧
    (tiny.dataWord (.tag 2) = some 2 ∧ bits 2 1 0 = 2 ∧ valueOf tiny.pt[(2 : Fin 4)].z = some 2) ∧
    ((tagged.setDataWord (.tag 3) 7).dataWord (.tag 3) = some 7 ∧ bits 7 1 0 = 3) ∧
    ((tagged.setDataWord (.tag 3) 6).dataWord (.tag 3) = some 6 ∧ bits 6 1 0 = 2 ∧
      valueOf (tagged.setDataWord (.tag 3) 6).pt[(3 : Fin 4)].x = none) ∧
    (tagged.setDataWord (.tag 3) 1).dataWord (.tag 3) = some 1 ∧ bits 1 1 0 = 1 ∧
      valueOf (tagged.setDataWord (.tag 3) 1).pt[(3 : Fin 4)].y = none := by
  decide

end Sys2Proof.Tests
end

section
/-! SUPPORT. Proofs of the statements on 00_scope.md: word arrays and their primitives (R9, R12 to R16), the premise on
the modulus (R8), and the ranges of operands and results (R11). -/

namespace Sys2Proof.Proofs

open Sys2Proof.Machine Sys2Proof.Laws

/-! ### Values of word arrays -/

theorem valueOf_map_some (ws : List Word) :
    valueOf (ws.map some) = some (∑ j : Fin ws.length, ws[j].toNat * 2 ^ (32 * (j : Nat))) := by
  induction ws with
  | nil => rfl
  | cons w ws ih =>
    have weight (j : Fin ws.length) :
        (w :: ws)[j.succ].toNat * 2 ^ (32 * (j.succ : Nat)) = 2 ^ 32 * (ws[j].toNat * 2 ^ (32 * (j : Nat))) := by
      simp only [Fin.getElem_fin, Fin.val_succ, List.getElem_cons_succ, Nat.mul_succ, pow_add]
      ring
    rw [List.map_cons, valueOf, ih, Option.map_some, Finset.mul_sum]
    simp only [List.length_cons, Fin.sum_univ_succ, weight]
    simp

theorem valueOf_eq_none_iff (a : List (Option Word)) : valueOf a = none ↔ none ∈ a := by
  induction a with
  | nil => simp [valueOf]
  | cons w ws ih =>
    cases w with
    | none => simp [valueOf]
    | some w => simp [valueOf, ih]

/-- Settles O57: the first part by induction on the words, the others from the laws of `words_n`. -/
theorem wordZeroIsTheLeastSignificant : Obligations.WordZeroIsTheLeastSignificant := by
  refine ⟨valueOf_map_some, valueOf_eq_none_iff, fun n v small =>
    ⟨wordsOf_length n v, ?_, fun j lt => getElem?_wordsOf lt⟩⟩
  rw [valueOf_wordsOf, Nat.mod_eq_of_lt small]

/-! ### The utility layer (00_scope.md R12 to R16) -/

theorem wordAt_mod {n x j : Nat} (lt : j < n) : wordAt (x % wordsBound n) j = wordAt x j := by
  have split : wordsBound n = wordsBound (j + 1) * wordsBound (n - (j + 1)) := by
    simp only [wordsBound, ← pow_add, ← Nat.mul_add, Nat.add_sub_cancel' lt]
  have top (y : Nat) : wordAt y j = y % wordsBound (j + 1) / wordsBound j := by
    rw [wordAt, wordsBound_succ, Nat.mod_mul_left_div_self]
  rw [top, top, split, Nat.mod_mul_right_mod]

theorem wordAt_div {n x j : Nat} (le : n ≤ j) : wordAt (x / wordsBound n) (j - n) = wordAt x j := by
  rw [wordAt, Nat.div_div_eq_div_mul, ← pow_add, ← Nat.mul_add, Nat.add_sub_cancel' le]
  rfl

theorem wordAt_succ (x j : Nat) : wordAt x (j + 1) = wordAt (x / 2 ^ 32) j := by
  rw [wordAt, wordsBound_succ, ← Nat.div_div_eq_div_mul]
  rfl

theorem wordAt_eq_zero {n x : Nat} (small : x < wordsBound n) : wordAt x n = 0 := by
  rw [wordAt, Nat.div_eq_of_lt small, Nat.zero_mod]

/-- A number made of a high part and `r` as its low `n` words. -/
theorem highLow_parts {n r : Nat} (q : Nat) (small : r < wordsBound n) :
    (q * wordsBound n + r) % wordsBound n = r ∧ (q * wordsBound n + r) / wordsBound n = q := by
  have pos : 0 < wordsBound n := by positivity
  constructor
  · rw [Nat.mul_add_mod_self_right, Nat.mod_eq_of_lt small]
  · rw [Nat.add_comm, Nat.add_mul_div_right _ _ pos, Nat.div_eq_of_lt small, Nat.zero_add]

theorem natShiftDownWord_parts (n x : Nat) :
    natShiftDownWord n x % wordsBound n = x % wordsBound n / 2 ^ 32 ∧
      natShiftDownWord n x / wordsBound n = x / wordsBound n :=
  highLow_parts _ (lt_of_le_of_lt (Nat.div_le_self _ _) (Nat.mod_lt _ (by positivity)))

theorem natShiftDownBits_parts (n x k : Nat) :
    natShiftDownBits n x k % wordsBound n = x % wordsBound n / 2 ^ k ∧
      natShiftDownBits n x k / wordsBound n = x / wordsBound n :=
  highLow_parts _ (lt_of_le_of_lt (Nat.div_le_self _ _) (Nat.mod_lt _ (by positivity)))

/-- Numbers with the same words from `n` up. -/
theorem wordAt_eq_of_div_eq {n x y j : Nat} (high : y / wordsBound n = x / wordsBound n) (le : n ≤ j) :
    wordAt y j = wordAt x j := by
  rw [← wordAt_div le, high, wordAt_div le]

/-- Each of the low words takes the place of the one below it. -/
theorem wordAt_natShiftDownWord {n x j : Nat} (lt : j + 1 < n) :
    wordAt (natShiftDownWord n x) j = wordAt x (j + 1) := by
  obtain ⟨low, -⟩ := natShiftDownWord_parts n x
  rw [← wordAt_mod (Nat.lt_of_succ_lt lt), low, ← wordAt_succ, wordAt_mod lt]

theorem wordAt_natShiftDownWord_top {n x : Nat} (pos : 0 < n) : wordAt (natShiftDownWord n x) (n - 1) = 0 := by
  obtain ⟨low, -⟩ := natShiftDownWord_parts n x
  rw [← wordAt_mod (Nat.sub_lt pos Nat.one_pos), low, ← wordAt_succ, Nat.sub_add_cancel pos,
    wordAt_eq_zero (Nat.mod_lt _ (by positivity))]

/-- `nat_sub` answers the residue of the difference (00_scope.md R13). -/
theorem natSub_fst (n x y : Nat) : ((natSub n x y).1 : Int) = ((x : Int) - y) % 2 ^ (32 * n) := by
  have nonneg : 0 ≤ ((x : Int) - y) % wordsBound n := Int.emod_nonneg _ (by positivity)
  rw [natSub, Int.toNat_of_nonneg nonneg, Nat.cast_pow, Nat.cast_ofNat]

/-- `ctz32` of a word that is not 0: the number of zero bits below its lowest one bit (00_scope.md R16). -/
theorem ctz32_spec {w : Nat} (pos : 0 < w) (lt : w < 2 ^ 32) :
    ctz32 w ≤ 31 ∧ 2 ^ ctz32 w ∣ w ∧ ¬2 ^ (ctz32 w + 1) ∣ w := by
  obtain ⟨m, prod, odd⟩ := trailingZeros_spec pos lt
  change w = m * 2 ^ ctz32 w at prod
  refine ⟨Nat.le_of_lt_succ (trailingZeros_lt pos lt), ⟨m, ?_⟩, fun more => ?_⟩
  · rw [Nat.mul_comm]; exact prod
  · have twice : 2 ^ ctz32 w * 2 ∣ 2 ^ ctz32 w * m := by rwa [← pow_succ, Nat.mul_comm _ m, ← prod]
    have := Nat.dvd_of_mul_dvd_mul_left (by positivity) twice
    omega

/-- Settles O30: each primitive by its own lemma; a shift acts on the low `n` words as one number and keeps the number
above them. -/
theorem utilityLayerMeetsItsContracts : Obligations.UtilityLayerMeetsItsContracts := by
  refine ⟨fun n x y _ _ => ⟨⟨rfl, rfl⟩, ⟨natSub_fst n x y, rfl⟩, natGte_iff, natIsZero_iff, natIsOne_iff⟩,
    fun n x => ?_, fun n x k _ _ => ?_, fun w pos lt => ctz32_spec pos lt⟩
  · obtain ⟨low, high⟩ := natShiftDownWord_parts n x
    exact ⟨low, fun j lt => wordAt_natShiftDownWord lt, wordAt_natShiftDownWord_top,
      fun j le => wordAt_eq_of_div_eq high le⟩
  · obtain ⟨low, high⟩ := natShiftDownBits_parts n x k
    exact ⟨low, fun j le => wordAt_eq_of_div_eq high le⟩

section Refusal

/-! ### When a command is refused -/

variable {s : State} {α β : Type}

/-- A computation that never stops by a refusal. -/
def NeverRefuses (x : Except Stop α) : Prop := ∀ r, x ≠ .error (.refuse r)

theorem neverRefuses_ok (a : α) : NeverRefuses (.ok a) := fun _ => nofun

theorem neverRefuses_raise (c : Cause) : NeverRefuses (.error (.raise c) : Except Stop α) := fun _ => nofun

theorem neverRefuses_stuck (f : Fault) : NeverRefuses (.error (.stuck f) : Except Stop α) := fun _ => nofun

theorem NeverRefuses.bind {x : Except Stop α} {f : α → Except Stop β} (hx : NeverRefuses x)
    (hf : ∀ a, NeverRefuses (f a)) : NeverRefuses (x >>= f) := by
  cases x with
  | ok a => exact hf a
  | error e => exact fun r h => hx r (by cases h; rfl)

theorem NeverRefuses.ite {c : Prop} [Decidable c] {x y : Except Stop α} (hx : NeverRefuses x) (hy : NeverRefuses y) :
    NeverRefuses (if c then x else y) := by
  split
  · exact hx
  · exact hy

/-! No part of the inversion refuses: it ends, faults, or is stuck (40_modular_inversion.md R83 to R91). -/

theorem shiftWords_neverRefuses {n : Nat} : ∀ {turns u count : Nat}, NeverRefuses (shiftWords n turns u count)
  | 0, _, _ => neverRefuses_stuck _
  | _ + 1, _, _ => .ite shiftWords_neverRefuses (neverRefuses_ok _)

theorem halve_neverRefuses {len p t : Nat} {tc : Int} : NeverRefuses (halve len p t tc) :=
  .ite (neverRefuses_raise _) (neverRefuses_ok _)

theorem halveTimes_neverRefuses {len p : Nat} :
    ∀ {count t : Nat} {tc : Int}, NeverRefuses (halveTimes len p count t tc)
  | 0, _, _ => neverRefuses_ok _
  | _ + 1, _, _ => .bind halve_neverRefuses fun _ => halveTimes_neverRefuses

theorem oddReduce_neverRefuses {len p u n t : Nat} {tc : Int} : NeverRefuses (oddReduce len p u n t tc) :=
  .bind shiftWords_neverRefuses fun _ => .bind halveTimes_neverRefuses fun _ => neverRefuses_ok _

theorem inversionLoop_neverRefuses {len p : Nat} : ∀ {turns u a : Nat} {ac : Int} {v b : Nat} {bc : Int} {n : Nat},
    NeverRefuses (inversionLoop len p turns u a ac v b bc n)
  | 0, _, _, _, _, _, _, _ => neverRefuses_stuck _
  | _ + 1, _, _, _, _, _, _, _ =>
    .ite (.bind oddReduce_neverRefuses fun _ => .ite (neverRefuses_ok _) inversionLoop_neverRefuses)
      (.bind oddReduce_neverRefuses fun _ => .ite (neverRefuses_ok _) inversionLoop_neverRefuses)

theorem initialReduction_neverRefuses {len p x : Nat} : NeverRefuses (initialReduction len p x) :=
  .ite oddReduce_neverRefuses (neverRefuses_ok _)

theorem invert_neverRefuses {len p x : Nat} : NeverRefuses (invert len p x) :=
  .ite (neverRefuses_ok _) <|
    .bind initialReduction_neverRefuses fun _ => .ite (neverRefuses_ok _) inversionLoop_neverRefuses

theorem conclude_refused_iff {x : Except Stop State} {r : Refusal} :
    conclude s x = .refused r ↔ x = .error (.refuse r) := by
  unfold conclude
  split <;> simp

/-- What follows an operand list and refuses nothing leaves the refusal to the operand list. -/
theorem bind_refuse_iff {x : Except Stop α} {f : α → Except Stop β} (hf : ∀ a, NeverRefuses (f a)) {r : Refusal} :
    x >>= f = .error (.refuse r) ↔ x = .error (.refuse r) := by
  cases x with
  | ok a => exact iff_of_false (hf a r) nofun
  | error e => simp [bind, Except.bind]

/-- `P` holds a value under which the spec leaves every command undefined (00_scope.md R8). -/
def BadModulus (s : State) : Prop := ∃ v, valueOf s.p = some v ∧ ¬(v.Prime ∧ v ≠ 2)

/-- The checks of R173 refuse exactly under such a modulus. -/
theorem refuse_iff {sources : List Register} {x : Except Stop α} (h : Checked s sources x) {r : Refusal} :
    x = .error (.refuse r) ↔ r = .modulusNotOddPrime ∧ BadModulus s := by
  rcases h with ⟨none, rfl⟩ | ⟨p, hp, ⟨bad, rfl⟩ | ⟨good, checked⟩⟩
  · simp [BadModulus, none]
  · simpa [BadModulus, hp, eq_comm] using fun _ => bad
  · have noRefusal : NeverRefuses x := by
      rcases checked with ⟨c, -, rfl⟩ | ⟨-, -, rfl⟩ | ⟨-, -, v, rfl⟩
      · exact neverRefuses_raise _
      · exact neverRefuses_raise _
      · exact neverRefuses_ok _
    exact iff_of_false (noRefusal r) fun ⟨_, v, hv, bad⟩ => bad (Option.some.inj (hp.symm.trans hv) ▸ good)

theorem toField_refused_iff_badModulus {sources : List Register} {x : Except Stop (Fin 8 × α)} {f : α → Except Stop Nat}
    (hx : Checked s sources x) (hf : ∀ a, NeverRefuses (f a)) {r : Refusal} :
    toField s x f = .refused r ↔ r = .modulusNotOddPrime ∧ BadModulus s :=
  conclude_refused_iff.trans <| (bind_refuse_iff fun _ => .bind (hf _) fun _ => neverRefuses_ok _).trans (refuse_iff hx)

theorem toExt_refused_iff_badModulus {sources : List Register} {x : Except Stop (Fin 4 × α)} {f : α → Nat}
    (hx : Checked s sources x) {r : Refusal} :
    toExt s x f = .refused r ↔ r = .modulusNotOddPrime ∧ BadModulus s :=
  conclude_refused_iff.trans <| (bind_refuse_iff fun _ => neverRefuses_ok _).trans (refuse_iff hx)

theorem toPoint_refused_iff_badModulus {sources : List Register} {x : Except Stop (Fin 4 × α)} {f : α → Point}
    (hx : Checked s sources x) {r : Refusal} :
    toPoint s x f = .refused r ↔ r = .modulusNotOddPrime ∧ BadModulus s :=
  conclude_refused_iff.trans <| (bind_refuse_iff fun _ => neverRefuses_ok _).trans (refuse_iff hx)

/-- All refusals of a legal command (00_scope.md R8, log 4). -/
theorem exec_refused_iff {i : Instr} (wf : i.wf = true) {r : Refusal} :
    exec i s = .refused r ↔ r = .modulusNotOddPrime ∧ BadModulus s := by
  cases i <;> simp only [Instr.wf, Bool.and_eq_true, legalField_iff, legalExt_iff, legalPoint_iff] at wf
  case finv d a =>
    obtain ⟨hd, ha⟩ := wf
    unfold exec execFinv
    exact toField_refused_iff_badModulus (operandsFF_checked s ⟨d, hd⟩ ⟨a, ha⟩) fun _ =>
      .ite (neverRefuses_raise _) invert_neverRefuses
  case fmul d a b =>
    obtain ⟨⟨hd, ha⟩, hb⟩ := wf
    unfold exec execFmul
    exact toField_refused_iff_badModulus (operandsFFF_checked s ⟨d, hd⟩ ⟨a, ha⟩ ⟨b, hb⟩) fun _ => neverRefuses_ok _
  case mmul d a b =>
    obtain ⟨⟨hd, ha⟩, hb⟩ := wf
    unfold exec execMmul
    exact toField_refused_iff_badModulus (operandsFFF_checked s ⟨d, hd⟩ ⟨a, ha⟩ ⟨b, hb⟩) fun _ => neverRefuses_ok _
  case fsqr d a =>
    obtain ⟨hd, ha⟩ := wf
    unfold exec execFsqr
    exact toField_refused_iff_badModulus (operandsFF_checked s ⟨d, hd⟩ ⟨a, ha⟩) fun _ => neverRefuses_ok _
  case fred d a =>
    obtain ⟨hd, ha⟩ := wf
    unfold exec execFred
    exact toField_refused_iff_badModulus (operandsFE_checked s ⟨d, hd⟩ ⟨a, ha⟩) fun _ => neverRefuses_ok _
  case fadd d a b =>
    obtain ⟨⟨hd, ha⟩, hb⟩ := wf
    unfold exec execFadd
    exact toField_refused_iff_badModulus (operandsFFF_checked s ⟨d, hd⟩ ⟨a, ha⟩ ⟨b, hb⟩) fun _ => neverRefuses_ok _
  case fsub d a b =>
    obtain ⟨⟨hd, ha⟩, hb⟩ := wf
    unfold exec execFsub
    exact toField_refused_iff_badModulus (operandsFFF_checked s ⟨d, hd⟩ ⟨a, ha⟩ ⟨b, hb⟩) fun _ => neverRefuses_ok _
  case fdbl d a =>
    obtain ⟨hd, ha⟩ := wf
    unfold exec execFdbl
    exact toField_refused_iff_badModulus (operandsFF_checked s ⟨d, hd⟩ ⟨a, ha⟩) fun _ => neverRefuses_ok _
  case fneg d a =>
    obtain ⟨hd, ha⟩ := wf
    unfold exec execFneg
    exact toField_refused_iff_badModulus (operandsFF_checked s ⟨d, hd⟩ ⟨a, ha⟩) fun _ => neverRefuses_ok _
  case mulx d a b =>
    obtain ⟨⟨hd, ha⟩, hb⟩ := wf
    unfold exec execMulx
    exact toExt_refused_iff_badModulus (operandsEFF_checked s ⟨d, hd⟩ ⟨a, ha⟩ ⟨b, hb⟩)
  case subx d a b =>
    obtain ⟨⟨hd, ha⟩, hb⟩ := wf
    unfold exec execSubx
    exact toExt_refused_iff_badModulus (operandsEEE_checked s ⟨d, hd⟩ ⟨a, ha⟩ ⟨b, hb⟩)
  case padd d a b =>
    obtain ⟨⟨hd, ha⟩, hb⟩ := wf
    unfold exec execPadd
    exact toPoint_refused_iff_badModulus (operandsPPP_checked s ⟨d, hd⟩ ⟨a, ha⟩ ⟨b, hb⟩)
  case pdbl d a =>
    obtain ⟨hd, ha⟩ := wf
    unfold exec execPdbl
    exact toPoint_refused_iff_badModulus (operandsPP_checked s ⟨d, hd⟩ ⟨a, ha⟩)
  case pneg d a =>
    obtain ⟨hd, ha⟩ := wf
    unfold exec execPneg
    exact toPoint_refused_iff_badModulus (operandsPP_checked s ⟨d, hd⟩ ⟨a, ha⟩)
  case psub d a b =>
    obtain ⟨⟨hd, ha⟩, hb⟩ := wf
    unfold exec execPsub
    exact toPoint_refused_iff_badModulus (operandsPPP_checked s ⟨d, hd⟩ ⟨a, ha⟩ ⟨b, hb⟩)
  case ptpl d a =>
    obtain ⟨hd, ha⟩ := wf
    unfold exec execPtpl
    exact toPoint_refused_iff_badModulus (operandsPP_checked s ⟨d, hd⟩ ⟨a, ha⟩)
  case pdbladd d a b =>
    obtain ⟨⟨hd, ha⟩, hb⟩ := wf
    unfold exec execPdbladd
    exact toPoint_refused_iff_badModulus (operandsPPP_checked s ⟨d, hd⟩ ⟨a, ha⟩ ⟨b, hb⟩)

end Refusal

/-- Settles O18, from all refusals of a legal command. -/
theorem refusedExactlyUnderABadModulus : Obligations.RefusedExactlyUnderABadModulus := by
  intro s i wf
  refine ⟨?_, fun r refused => ((exec_refused_iff wf).1 refused).1⟩
  rw [exec_refused_iff wf]
  exact (and_iff_right rfl).symm

/-! ### Results in range -/

section Range

variable {p : Nat}

theorem ite_lt {c : Prop} [Decidable c] {x y : Nat} (hx : x < p) (hy : y < p) : (if c then x else y) < p := by
  split
  · exact hx
  · exact hy

theorem mulx_lt {x y : Nat} (hx : x < p) (hy : y < p) : mulx x y < p ^ 2 := by
  rw [mulx, sq]
  exact Nat.mul_lt_mul'' hx hy

theorem affine_reduced_iff {c : Bool} {x y : Nat} : (Point.affine c x y).reduced p = true ↔ x < p ∧ y < p := by
  simp [Point.reduced]

theorem jacobian_reduced_iff {c : Bool} {x y z : Nat} :
    (Point.jacobian c x y z).reduced p = true ↔ x < p ∧ y < p ∧ z < p := by
  simp [Point.reduced, and_assoc]

variable (pos : 0 < p)
include pos

theorem fmul_lt {x y : Nat} : fmul p x y < p := Nat.mod_lt _ pos

theorem fsqr_lt {x : Nat} : fsqr p x < p := Nat.mod_lt _ pos

theorem fadd_lt {x y : Nat} : fadd p x y < p := Nat.mod_lt _ pos

theorem fdbl_lt {x : Nat} : fdbl p x < p := Nat.mod_lt _ pos

theorem fred_lt {x : Nat} : fred p x < p := Nat.mod_lt _ pos

theorem subMod_lt {x y : Nat} : subMod p x y < p := by
  have pos' : (0 : Int) < p := Int.natCast_pos.2 pos
  have lt := Int.emod_lt_of_pos ((x : Int) - y) pos'
  rw [subMod, Int.toNat_lt_of_ne_zero pos.ne']
  exact lt

theorem fsub_lt {x y : Nat} : fsub p x y < p := subMod_lt pos

theorem subx_lt {x y : Nat} : subx p x y < p ^ 2 := subMod_lt (Nat.pow_pos pos)

theorem fneg_lt {x : Nat} : fneg p x < p := by
  unfold fneg
  split
  · exact pos
  · omega

theorem twice_reduced (q : Point) : (twice p q).reduced p = true := by
  unfold twice
  split
  · rfl
  extract_lets
  split
  · rfl
  · exact jacobian_reduced_iff.2 ⟨fsub_lt pos, fsub_lt pos, ite_lt (fmul_lt pos) (fdbl_lt pos)⟩

theorem add_reduced {q r : Point} {same : Bool} (hq : q.reduced p = true) (hr : r.reduced p = true) :
    (add p q r same).reduced p = true := by
  unfold add
  split
  · exact hr
  split
  · exact hq
  split
  · exact twice_reduced pos q
  extract_lets
  split
  · exact twice_reduced pos q
  split
  · rfl
  · exact jacobian_reduced_iff.2
      ⟨fsub_lt pos, fred_lt pos, ite_lt (fmul_lt pos) (ite_lt (fmul_lt pos) (fsub_lt pos))⟩

theorem negate_reduced {q : Point} (hq : q.reduced p = true) : (negate p q).reduced p = true := by
  cases q with
  | infinity c => rfl
  | affine c x y =>
    obtain ⟨hx, -⟩ := affine_reduced_iff.1 hq
    exact affine_reduced_iff.2 ⟨hx, fneg_lt pos⟩
  | jacobian c x y z =>
    obtain ⟨hx, -, hz⟩ := jacobian_reduced_iff.1 hq
    exact jacobian_reduced_iff.2 ⟨hx, fneg_lt pos, hz⟩

theorem subtract_reduced {q r : Point} (hq : q.reduced p = true) (hr : r.reduced p = true) :
    (subtract p q r).reduced p = true := by
  unfold subtract
  split
  · exact hq
  · exact add_reduced pos hq (negate_reduced pos hr)

theorem threeTimes_reduced {q : Point} (hq : q.reduced p = true) : (threeTimes p q).reduced p = true := by
  unfold threeTimes
  split
  · exact hq
  split
  · exact hq
  · exact add_reduced pos (twice_reduced pos q) hq

theorem twicePlus_reduced {q r : Point} {same : Bool} (hq : q.reduced p = true) (hr : r.reduced p = true) :
    (twicePlus p q r same).reduced p = true := by
  unfold twicePlus
  split
  · exact threeTimes_reduced pos hq
  split
  · exact hr
  split
  · exact twice_reduced pos q
  split
  · exact hr
  · exact add_reduced pos (twice_reduced pos q) hr

end Range

/-- What the inversion answers is reduced (40_modular_inversion.md R81). -/
theorem invert_lt {len p x z : Nat} (prime : p.Prime) (odd : p ≠ 2) (bound : p < wordsBound len) (pos : 0 < x)
    (lt : x < p) (h : invert len p x = .ok z) : z < p := by
  have cop : Nat.Coprime x p := (Nat.coprime_of_lt_prime pos.ne' lt prime).symm
  obtain ⟨z', h', -, lt', -⟩ := invert_ok (prime.eq_two_or_odd.resolve_left odd) prime.one_lt bound pos lt cop
  obtain rfl : z' = z := Except.ok.inj (h'.symm.trans h)
  exact lt'

/-! ### What a command that completes has done -/

section Completes

variable {s t : State} {α : Type}

theorem conclude_completes {x : Except Stop State} (h : conclude s x = .next t) (done : t.status.done = true) :
    ∃ u, x = .ok u ∧ t = u.complete := by
  rcases conclude_next h with completes | ⟨c, -, rfl⟩
  · exact completes
  · simp at done

theorem toField_completes {x : Except Stop (Fin 8 × α)} {f : α → Except Stop Nat} (h : toField s x f = .next t)
    (done : t.status.done = true) : ∃ d a z, x = .ok (d, a) ∧ f a = .ok z ∧ t = (s.writeField d z).complete := by
  obtain ⟨u, hu, rfl⟩ := conclude_completes h done
  obtain ⟨⟨d, a⟩, hx, hu⟩ := bind_ok hu
  obtain ⟨z, hz, hu⟩ := bind_ok hu
  obtain rfl := Except.ok.inj hu
  exact ⟨d, a, z, hx, hz, rfl⟩

theorem toExt_completes {x : Except Stop (Fin 4 × α)} {f : α → Nat} (h : toExt s x f = .next t)
    (done : t.status.done = true) : ∃ d a, x = .ok (d, a) ∧ t = (s.writeExt d (f a)).complete := by
  obtain ⟨u, hu, rfl⟩ := conclude_completes h done
  obtain ⟨⟨d, a⟩, hx, hu⟩ := bind_ok hu
  obtain rfl := Except.ok.inj hu
  exact ⟨d, a, hx, rfl⟩

theorem toPoint_completes {x : Except Stop (Fin 4 × α)} {f : α → Point} (h : toPoint s x f = .next t)
    (done : t.status.done = true) : ∃ d a, x = .ok (d, a) ∧ t = (s.writePoint d (f a)).complete := by
  obtain ⟨u, hu, rfl⟩ := conclude_completes h done
  obtain ⟨⟨d, a⟩, hx, hu⟩ := bind_ok hu
  obtain rfl := Except.ok.inj hu
  exact ⟨d, a, hx, rfl⟩

end Completes

/-! ### The operands of a command, where every check has passed -/

section Operands

variable {s : State} {n m : Nat} {β : Type}

/-- A source register of `file` that passes its three checks (index, value held, value in range; 60_exceptions.md R173)
held a value in range, and `range` holds of the value passed on. -/
def SourceInRange (s : State) (file : RegFile) (index : Nat → Except Stop (Fin m)) (read : Fin m → Except Stop β)
    (check : Nat → β → Except Stop Unit) (range : Nat → β → Prop) : Prop :=
  ∀ i a p x, index i = .ok a → read a = .ok x → check p x = .ok () → s.HoldsInRange p ⟨file, i⟩ ∧ range p x

theorem field_sourceInRange : SourceInRange s .F fieldIndex (heldField s) below fun p x => x < p := by
  intro i a p x index read check
  obtain rfl := fieldIndex_ok.1 index
  exact ⟨⟨x, by simpa using held_ok.1 read, below_ok.1 check⟩, below_ok.1 check⟩

theorem ext_sourceInRange :
    SourceInRange s .E extIndex (heldExt s) (fun p => below (p ^ 2)) fun p x => x < p ^ 2 := by
  intro i a p x index read check
  obtain rfl := extIndex_ok.1 index
  exact ⟨⟨x, by simpa using held_ok.1 read, below_ok.1 check⟩, below_ok.1 check⟩

theorem point_sourceInRange :
    SourceInRange s .PT pointIndex (heldPoint s) pointInRange fun p q => q.reduced p = true := by
  intro i a p q index read check
  obtain rfl := pointIndex_ok.1 index
  exact ⟨⟨q, by simpa [heldPoint] using read, pointInRange_ok.1 check⟩, pointInRange_ok.1 check⟩

/-- An operand list that passes its checks names the destination `rd`, has an odd prime modulus, and has read the
registers `sources`, each of which held a value in range; `range` holds of the operands passed on. -/
def OperandsInRange (s : State) (rd : Nat) (sources : List Register) (range : Nat → β → Prop)
    (x : Except Stop (Fin n × Nat × β)) : Prop :=
  ∀ d p b, x = .ok (d, p, b) → rd = d ∧ s.ModulusIs p ∧ (∀ r ∈ sources, s.HoldsInRange p r) ∧ range p b

variable {file : RegFile} {index : Nat → Except Stop (Fin m)} {read : Fin m → Except Stop β}
  {check : Nat → β → Except Stop Unit} {range : Nat → β → Prop} {destination : Except Stop (Fin n)} {rd : Nat}

theorem oneSource_inRange (hd : ∀ d, destination = .ok d → rd = d)
    (source : SourceInRange s file index read check range) (i : Nat) :
    OperandsInRange s rd [⟨file, i⟩] range (do
      let d ← destination
      let a ← index i
      let p ← modulus s
      let x ← read a
      check p x
      return (d, p, x)) := by
  intro d p x h
  obtain ⟨_, destination_ok, h⟩ := bind_ok h
  obtain ⟨a, index_ok, h⟩ := bind_ok h
  obtain ⟨_, modulus_eq, h⟩ := bind_ok h
  obtain ⟨_, read_ok, h⟩ := bind_ok h
  obtain ⟨_, check_ok, h⟩ := bind_ok h
  cases h
  obtain ⟨holds, inRange⟩ := source _ _ _ _ index_ok read_ok check_ok
  exact ⟨hd _ destination_ok, modulus_ok.1 modulus_eq, by simpa using holds, inRange⟩

theorem twoSources_inRange (hd : ∀ d, destination = .ok d → rd = d)
    (source : SourceInRange s file index read check range) (i j : Nat) :
    OperandsInRange s rd [⟨file, i⟩, ⟨file, j⟩] (fun p xy => range p xy.1 ∧ range p xy.2) (do
      let d ← destination
      let a ← index i
      let b ← index j
      let p ← modulus s
      let x ← read a
      let y ← read b
      check p x
      check p y
      return (d, p, x, y)) := by
  intro d p xy h
  obtain ⟨_, destination_ok, h⟩ := bind_ok h
  obtain ⟨a, index_a, h⟩ := bind_ok h
  obtain ⟨b, index_b, h⟩ := bind_ok h
  obtain ⟨_, modulus_eq, h⟩ := bind_ok h
  obtain ⟨_, read_a, h⟩ := bind_ok h
  obtain ⟨_, read_b, h⟩ := bind_ok h
  obtain ⟨_, check_a, h⟩ := bind_ok h
  obtain ⟨_, check_b, h⟩ := bind_ok h
  cases h
  obtain ⟨holds_a, range_a⟩ := source _ _ _ _ index_a read_a check_a
  obtain ⟨holds_b, range_b⟩ := source _ _ _ _ index_b read_b check_b
  exact ⟨hd _ destination_ok, modulus_ok.1 modulus_eq, by simpa using ⟨holds_a, holds_b⟩, range_a, range_b⟩

theorem operandsFF_inRange (d i : Nat) :
    OperandsInRange s d [⟨.F, i⟩] (fun p x => x < p) (operandsFF s d i) :=
  oneSource_inRange (fun _ => fieldIndex_ok.1) field_sourceInRange i

theorem operandsFE_inRange (d i : Nat) :
    OperandsInRange s d [⟨.E, i⟩] (fun p x => x < p ^ 2) (operandsFE s d i) :=
  oneSource_inRange (fun _ => fieldIndex_ok.1) ext_sourceInRange i

theorem operandsPP_inRange (d i : Nat) :
    OperandsInRange s d [⟨.PT, i⟩] (fun p q => q.reduced p = true) (operandsPP s d i) :=
  oneSource_inRange (fun _ => pointIndex_ok.1) point_sourceInRange i

theorem operandsFFF_inRange (d i j : Nat) :
    OperandsInRange s d [⟨.F, i⟩, ⟨.F, j⟩] (fun p xy => xy.1 < p ∧ xy.2 < p) (operandsFFF s d i j) :=
  twoSources_inRange (fun _ => fieldIndex_ok.1) field_sourceInRange i j

theorem operandsEFF_inRange (d i j : Nat) :
    OperandsInRange s d [⟨.F, i⟩, ⟨.F, j⟩] (fun p xy => xy.1 < p ∧ xy.2 < p) (operandsEFF s d i j) :=
  twoSources_inRange (fun _ => extIndex_ok.1) field_sourceInRange i j

theorem operandsEEE_inRange (d i j : Nat) :
    OperandsInRange s d [⟨.E, i⟩, ⟨.E, j⟩] (fun p xy => xy.1 < p ^ 2 ∧ xy.2 < p ^ 2) (operandsEEE s d i j) :=
  twoSources_inRange (fun _ => extIndex_ok.1) ext_sourceInRange i j

theorem operandsPPP_inRange (d i j : Nat) :
    OperandsInRange s d [⟨.PT, i⟩, ⟨.PT, j⟩] (fun p qr => qr.1.reduced p = true ∧ qr.2.reduced p = true)
      (operandsPPP s d i j) :=
  twoSources_inRange (fun _ => pointIndex_ok.1) point_sourceInRange i j

end Operands

/-! ### A written result is held in range -/

/-- The word array of a value in range holds that value. -/
theorem valueOf_wordsOf_of_lt {n b v : Nat} (bound : b ≤ wordsBound n) (lt : v < b) :
    valueOf (wordsOf n v) = some v := by
  rw [valueOf_wordsOf, Nat.mod_eq_of_lt (lt_of_lt_of_le lt bound)]

theorem tagState_tagOf (c : Bool) {k : Nat} (h : k < 4) : tagState (tagOf c k) = k := by
  interval_cases k <;> cases c <;> rfl

theorem tagComp_tagOf (c : Bool) {k : Nat} (h : k < 4) : tagComp (tagOf c k) = c := by
  interval_cases k <;> cases c <;> rfl

/-- A reduced point is read back as it was written (10_state.md R25, R26). -/
theorem logicalPoint_pointReg {len p : Nat} {q : Point} (bound : p ≤ wordsBound len) (reduced : q.reduced p = true) :
    logicalPoint (pointReg len q) = .ok q := by
  have held_wordsOf {v : Nat} (lt : v < p) : held (wordsOf len v) = .ok v :=
    held_ok.2 (valueOf_wordsOf_of_lt bound lt)
  cases q with
  | infinity c => simp [logicalPoint, pointReg, tagState_tagOf, tagComp_tagOf]
  | affine c x y =>
    obtain ⟨hx, hy⟩ := affine_reduced_iff.1 reduced
    simp [logicalPoint, pointReg, tagState_tagOf, tagComp_tagOf, held_wordsOf hx, held_wordsOf hy, bind, Except.bind,
      pure, Except.pure]
  | jacobian c x y z =>
    obtain ⟨hx, hy, hz⟩ := jacobian_reduced_iff.1 reduced
    simp [logicalPoint, pointReg, tagState_tagOf, tagComp_tagOf, held_wordsOf hx, held_wordsOf hy, held_wordsOf hz,
      bind, Except.bind, pure, Except.pure]

section Reduced

variable {s t : State} {p : Nat} (shaped : s.Shaped) (modulus : s.ModulusIs p)
include shaped modulus

theorem modulus_lt_wordsBound : p < wordsBound s.len := by
  obtain ⟨-, length, -⟩ := shaped
  exact length ▸ valueOf_lt modulus.1

theorem modulus_sq_le_wordsBound : p ^ 2 ≤ wordsBound (2 * s.len) := by
  have square : wordsBound (2 * s.len) = wordsBound s.len ^ 2 := by
    rw [wordsBound, wordsBound, ← pow_mul]
    congr 1
    ring
  rw [square]
  exact Nat.pow_le_pow_left (modulus_lt_wordsBound shaped modulus).le 2

theorem writeField_holdsInRange {d : Fin 8} {v : Nat} (lt : v < p) :
    (s.writeField d v).complete.HoldsInRange p ⟨.F, d⟩ :=
  ⟨v, by simp [valueOf_wordsOf_of_lt (modulus_lt_wordsBound shaped modulus).le lt], lt⟩

theorem writeExt_holdsInRange {d : Fin 4} {v : Nat} (lt : v < p ^ 2) :
    (s.writeExt d v).complete.HoldsInRange p ⟨.E, d⟩ :=
  ⟨v, by simp [valueOf_wordsOf_of_lt (modulus_sq_le_wordsBound shaped modulus) lt], lt⟩

theorem writePoint_holdsInRange {d : Fin 4} {q : Point} (reduced : q.reduced p = true) :
    (s.writePoint d q).complete.HoldsInRange p ⟨.PT, d⟩ :=
  ⟨q, by simp [logicalPoint_pointReg (modulus_lt_wordsBound shaped modulus).le reduced], reduced⟩

/-! The three ways a command ends, each with operands in range and a result in range. -/

variable {rd : Nat} {sources : List Register} {β : Type} {range : Nat → β → Prop}

theorem toField_reduced {x : Except Stop (Fin 8 × Nat × β)} {f : Nat × β → Except Stop Nat}
    (operands : OperandsInRange s rd sources range x) (result : ∀ b z, range p b → f (p, b) = .ok z → z < p)
    (h : toField s x f = .next t) (done : t.status.done = true) :
    (∀ r ∈ sources, s.HoldsInRange p r) ∧ t.HoldsInRange p ⟨.F, rd⟩ := by
  obtain ⟨d, ⟨q, b⟩, z, hx, hz, rfl⟩ := toField_completes h done
  obtain ⟨rfl, hq, held, hb⟩ := operands d q b hx
  obtain rfl : p = q := Option.some.inj (modulus.1.symm.trans hq.1)
  exact ⟨held, writeField_holdsInRange shaped modulus (result b z hb hz)⟩

theorem toExt_reduced {x : Except Stop (Fin 4 × Nat × β)} {f : Nat × β → Nat}
    (operands : OperandsInRange s rd sources range x) (result : ∀ b, range p b → f (p, b) < p ^ 2)
    (h : toExt s x f = .next t) (done : t.status.done = true) :
    (∀ r ∈ sources, s.HoldsInRange p r) ∧ t.HoldsInRange p ⟨.E, rd⟩ := by
  obtain ⟨d, ⟨q, b⟩, hx, rfl⟩ := toExt_completes h done
  obtain ⟨rfl, hq, held, hb⟩ := operands d q b hx
  obtain rfl : p = q := Option.some.inj (modulus.1.symm.trans hq.1)
  exact ⟨held, writeExt_holdsInRange shaped modulus (result b hb)⟩

theorem toPoint_reduced {x : Except Stop (Fin 4 × Nat × β)} {f : Nat × β → Point}
    (operands : OperandsInRange s rd sources range x) (result : ∀ b, range p b → (f (p, b)).reduced p = true)
    (h : toPoint s x f = .next t) (done : t.status.done = true) :
    (∀ r ∈ sources, s.HoldsInRange p r) ∧ t.HoldsInRange p ⟨.PT, rd⟩ := by
  obtain ⟨d, ⟨q, b⟩, hx, rfl⟩ := toPoint_completes h done
  obtain ⟨rfl, hq, held, hb⟩ := operands d q b hx
  obtain rfl : p = q := Option.some.inj (modulus.1.symm.trans hq.1)
  exact ⟨held, writePoint_holdsInRange shaped modulus (result b hb)⟩

/-- A command whose result is computed whatever its operands. -/
theorem toField_ok_reduced {x : Except Stop (Fin 8 × Nat × β)} {f : Nat × β → Nat}
    (operands : OperandsInRange s rd sources range x) (result : ∀ b, f (p, b) < p)
    (h : toField s x (fun b => .ok (f b)) = .next t) (done : t.status.done = true) :
    (∀ r ∈ sources, s.HoldsInRange p r) ∧ t.HoldsInRange p ⟨.F, rd⟩ := by
  refine toField_reduced shaped modulus operands (fun b z _ hz => ?_) h done
  obtain rfl : f (p, b) = z := Except.ok.inj hz
  exact result b

/-- FINV, whose result is not computed for 0. -/
theorem finv_reduced {d a : Nat} (h : exec (.finv d a) s = .next t) (done : t.status.done = true) :
    (∀ r ∈ (Instr.finv d a).sources, s.HoldsInRange p r) ∧ t.HoldsInRange p (Instr.finv d a).destination := by
  have bound := modulus_lt_wordsBound shaped modulus
  have ⟨_, prime, odd⟩ := modulus
  unfold exec execFinv at h
  refine toField_reduced shaped modulus (operandsFF_inRange d a) (fun x z lt hz => ?_) h done
  dsimp only at hz
  split at hz
  · cases hz
  · rename_i nonzero
    rw [natIsZero_iff] at nonzero
    exact invert_lt prime odd bound (Nat.pos_of_ne_zero nonzero) lt hz

end Reduced

/-- Settles O27: each command by its operand form, whose checks put the sources in range, and by the range of the
function it computes. -/
theorem operandsAndResultsAreReduced : Obligations.OperandsAndResultsAreReduced := by
  intro i s t p shaped modulus h done
  have pos : 0 < p := modulus.2.1.pos
  cases i with
  | finv d a => exact finv_reduced shaped modulus h done
  | fmul d a b =>
    unfold exec execFmul at h
    exact toField_ok_reduced shaped modulus (operandsFFF_inRange d a b) (fun _ => fmul_lt pos) h done
  | mmul d a b =>
    unfold exec execMmul at h
    exact toField_ok_reduced shaped modulus (operandsFFF_inRange d a b) (fun _ => fmul_lt pos) h done
  | fsqr d a =>
    unfold exec execFsqr at h
    exact toField_ok_reduced shaped modulus (operandsFF_inRange d a) (fun _ => fsqr_lt pos) h done
  | fred d a =>
    unfold exec execFred at h
    exact toField_ok_reduced shaped modulus (operandsFE_inRange d a) (fun _ => fred_lt pos) h done
  | fadd d a b =>
    unfold exec execFadd at h
    exact toField_ok_reduced shaped modulus (operandsFFF_inRange d a b) (fun _ => fadd_lt pos) h done
  | fsub d a b =>
    unfold exec execFsub at h
    exact toField_ok_reduced shaped modulus (operandsFFF_inRange d a b) (fun _ => fsub_lt pos) h done
  | fdbl d a =>
    unfold exec execFdbl at h
    exact toField_ok_reduced shaped modulus (operandsFF_inRange d a) (fun _ => fdbl_lt pos) h done
  | fneg d a =>
    unfold exec execFneg at h
    exact toField_ok_reduced shaped modulus (operandsFF_inRange d a) (fun _ => fneg_lt pos) h done
  | mulx d a b =>
    unfold exec execMulx at h
    exact toExt_reduced shaped modulus (operandsEFF_inRange d a b) (fun _ ⟨hx, hy⟩ => mulx_lt hx hy) h done
  | subx d a b =>
    unfold exec execSubx at h
    exact toExt_reduced shaped modulus (operandsEEE_inRange d a b) (fun _ _ => subx_lt pos) h done
  | padd d a b =>
    unfold exec execPadd at h
    exact toPoint_reduced shaped modulus (operandsPPP_inRange d a b)
      (fun _ ⟨hq, hr⟩ => add_reduced pos hq hr) h done
  | pdbl d a =>
    unfold exec execPdbl at h
    exact toPoint_reduced shaped modulus (operandsPP_inRange d a) (fun q _ => twice_reduced pos q) h done
  | pneg d a =>
    unfold exec execPneg at h
    exact toPoint_reduced shaped modulus (operandsPP_inRange d a) (fun _ hq => negate_reduced pos hq) h done
  | psub d a b =>
    unfold exec execPsub at h
    exact toPoint_reduced shaped modulus (operandsPPP_inRange d a b)
      (fun _ ⟨hq, hr⟩ => subtract_reduced pos hq hr) h done
  | ptpl d a =>
    unfold exec execPtpl at h
    exact toPoint_reduced shaped modulus (operandsPP_inRange d a) (fun _ hq => threeTimes_reduced pos hq) h done
  | pdbladd d a b =>
    unfold exec execPdbladd at h
    exact toPoint_reduced shaped modulus (operandsPPP_inRange d a b)
      (fun _ ⟨hq, hr⟩ => twicePlus_reduced pos hq hr) h done

end Sys2Proof.Proofs
end

section
/-! SUPPORT. Proofs of the statements on 10_state.md: the invariant of the block's states (R20, R29, R30), what a command
and a step change (R27, R33), host writes, `CTRL` and the resets (R30, R35, R38, R39), and the point registers (R24 to
R26). -/

namespace Sys2Proof.Proofs

open Sys2Proof.Machine Sys2Proof.Laws

/-! ### Steps with a known transaction -/

section Transactions

variable {s : State} {w : Word} {rest : List Transaction}

theorem step_write {addr size : Nat} (pending : s.pending = .write addr size w :: rest) :
    step s = memWrite addr size w { s with pending := rest } := by
  rw [step, nextTransaction, pending]
  rfl

/-- A word written to `CMD` is taken as a command word (10_state.md R28). -/
theorem step_writeCmd (pending : s.pending = .write 0x000 4 w :: rest) :
    step s = takeCommand w (taken s rest .ok) := step_write pending

/-- A write of `CTRL` is its strobes (10_state.md R30). -/
theorem step_writeCtrl (pending : s.pending = .write 0x008 4 w :: rest) :
    step s = .next (Machine.control w (taken s rest .ok)) := step_write pending

/-- A host write of a data word that exists sets it (10_state.md R38). -/
theorem step_writeData {d : DataWord} (small : s.len ≤ 16) (ex : d.Exists s.len)
    (pending : s.pending = .write d.offset 4 w :: rest) :
    step s = .next ((taken s rest .ok).setDataWord d w) := by
  rw [step_write pending, memWrite, access_data small ex]
  rfl

theorem takeCommand_ok {u : State} {i : Instr} (noFault : u.status.fault = false) (decoded : decode w = .ok i) :
    takeCommand w u = exec i { u with cmd := w } := by
  simp [takeCommand, noFault, decoded]

theorem control_reset {u : State} (srst : w.getLsbD 1 = true) : Machine.control w u = u.softReset := if_pos srst

end Transactions

/-- Settles O5: the write reaches `CMD`, and with no fault recorded the word is decoded and executed. -/
theorem stepRunsTheDecodedCommand : Obligations.StepRunsTheDecodedCommand := by
  intro s w rest i pending noFault decoded
  exact (step_writeCmd pending).trans (takeCommand_ok (u := taken s rest .ok) noFault decoded)

/-- Settles O10: the three branches of `control`, each with its state written out. -/
theorem ctrlStrobes : Obligations.CtrlStrobes := by
  intro s w rest pending
  rw [step_writeCtrl pending]
  rfl

/-! ### What data words hold -/

/-- The data words are those of `P`, `F`, `E` and `PT`. -/
theorem dataWord_congr {s t : State} (p : t.p = s.p) (f : t.f = s.f) (e : t.e = s.e) (pt : t.pt = s.pt)
    (d : DataWord) : t.dataWord d = s.dataWord d := by
  cases d <;> simp only [State.dataWord, p, f, e, pt]

@[simp] theorem complete_dataWord (s : State) (d : DataWord) : s.complete.dataWord d = s.dataWord d :=
  dataWord_congr rfl rfl rfl rfl d

@[simp] theorem raiseFault_dataWord (s : State) (c : Cause) (d : DataWord) :
    (s.raiseFault c).dataWord d = s.dataWord d :=
  dataWord_congr rfl rfl rfl rfl d

theorem clearFault_dataWord (s : State) (d : DataWord) : s.clearFault.dataWord d = s.dataWord d :=
  dataWord_congr rfl rfl rfl rfl d

@[simp] theorem taken_dataWord (s : State) (rest : List Transaction) (a : Answer) (d : DataWord) :
    (taken s rest a).dataWord d = s.dataWord d :=
  dataWord_congr rfl rfl rfl rfl d

theorem noWords_getElem?_join (n j : Nat) : (noWords n)[j]?.join = none := by
  rw [List.getElem?_replicate]
  split <;> rfl

/-- A block just reset holds no value (10_state.md R35). -/
theorem resetFor_dataWord (len : Nat) (d : DataWord) : (State.resetFor len).dataWord d = none := by
  cases d with
  | tag i => simp [State.dataWord, State.resetFor, PointReg.unwritten]
  | _ => simp [State.dataWord, State.resetFor, PointReg.unwritten, noWords_getElem?_join]

theorem softReset_dataWord (s : State) (d : DataWord) : s.softReset.dataWord d = none :=
  (dataWord_congr rfl rfl rfl rfl d).trans (resetFor_dataWord s.len d)

theorem hardReset_dataWord (s : State) (d : DataWord) : s.hardReset.dataWord d = none :=
  (dataWord_congr rfl rfl rfl rfl d).trans (resetFor_dataWord s.len d)

/-- Settles O8: the step is the write of the one data word, and the laws of `setDataWord` say what it does. -/
theorem dataWordWriteSetsThatWordOnly : Obligations.DataWordWriteSetsThatWordOnly := by
  intro s d w rest shaped ex pending
  have small : s.len ≤ 16 := shaped.1.2
  have shaped' : (taken s rest .ok).Shaped := shaped
  refine ⟨_, step_writeData small ex pending, dataWord_setDataWord_self shaped' ex, fun d' ne => ?_, ?_⟩
  · rw [dataWord_setDataWord_ne ne, taken_dataWord]
  · simp

/-- Settles O11: each of the three resets is the reset state of the block but for the host's lists. -/
theorem resetsLeaveNoValueHeld : Obligations.ResetsLeaveNoValueHeld := by
  rintro s t w rest (rfl | rfl | ⟨pending, srst, h⟩)
  · exact ⟨resetFor_dataWord s.len, rfl, rfl, rfl, rfl, rfl⟩
  · exact ⟨hardReset_dataWord s, rfl, rfl, rfl, rfl, rfl⟩
  · rw [step_writeCtrl pending, control_reset srst] at h
    obtain rfl := Host.Outcome.next.inj h
    exact ⟨softReset_dataWord _, rfl, rfl, rfl, rfl, rfl⟩

/-! ### The words of `STATUS` and `CONFIG` -/

theorem statusWord_toNat (st : Status) :
    (statusWord st).toNat = st.done.toNat + st.fault.toNat * 2 + st.cause.toNat * 2 ^ 4 := by
  have := st.done.toNat_lt
  have := st.fault.toNat_lt
  have := st.cause.isLt
  rw [statusWord, BitVec.toNat_ofNat, Nat.mod_eq_of_lt (by omega)]

theorem configWord_toNat {len : Nat} (small : len < 2 ^ 8) :
    (configWord len).toNat = len + 8 * 2 ^ 8 + 4 * 2 ^ 12 + 4 * 2 ^ 16 := by
  rw [configWord, BitVec.toNat_ofNat]
  dsimp only [Config.nf, Config.ne, Config.np]
  omega

/-- Settles O12: both words as sums of their fields, each field below the next one's weight. -/
theorem statusAndConfigFields : Obligations.StatusAndConfigFields := by
  refine ⟨fun st => ?_, fun len small => ?_⟩
  · have := st.done.toNat_lt
    have := st.fault.toNat_lt
    have := st.cause.isLt
    simp only [bits, statusWord_toNat]
    omega
  · simp only [bits, configWord_toNat (show len < 2 ^ 8 by omega)]
    omega

/-! ### Shaped states -/

theorem forall_getElem_set {α : Type} {n : Nat} {v : Vector α n} {P : α → Prop} {i : Fin n} {x : α} (hx : P x)
    (hv : ∀ k : Fin n, P v[k]) : ∀ k : Fin n, P (v.set i x)[k] := by
  intro k
  simp only [Fin.getElem_fin, Vector.getElem_set]
  split
  · exact hx
  · exact hv k

theorem set_wordsOf_lengths {n m x : Nat} {v : Vector (List (Option Word)) n} {i : Fin n}
    (lengths : ∀ k : Fin n, v[k].length = m) : ∀ k : Fin n, (v.set i (wordsOf m x))[k].length = m :=
  forall_getElem_set (P := fun a : List (Option Word) => a.length = m) (wordsOf_length m x) lengths

theorem pointReg_shaped (len : Nat) (q : Point) : (pointReg len q).Shaped len := by
  cases q <;> simp [PointReg.Shaped, pointReg]

theorem resetFor_shaped {len : Nat} (pos : 1 ≤ len) (small : len ≤ 16) : (State.resetFor len).Shaped := by
  simp [State.Shaped, PointReg.Shaped, State.resetFor, PointReg.unwritten, pos, small]

theorem writesOnly_shaped {s t : State} {r : Register} (h : WritesOnly s r t) (shaped : s.Shaped) : t.Shaped := by
  obtain ⟨hl, hp, hf, he, hpt⟩ := shaped
  rcases h with ⟨d, v, -, rfl⟩ | ⟨d, v, -, rfl⟩ | ⟨d, q, -, rfl⟩
  · exact ⟨hl, hp, set_wordsOf_lengths hf, he, hpt⟩
  · exact ⟨hl, hp, hf, set_wordsOf_lengths he, hpt⟩
  · exact ⟨hl, hp, hf, he, forall_getElem_set (P := PointReg.Shaped s.len) (pointReg_shaped _ _) hpt⟩

/-! ### The invariant -/

section Invariant

variable {s t : State}

theorem causeCode_range (c : Cause) : 1 ≤ (causeCode c).toNat ∧ (causeCode c).toNat ≤ 6 := by
  cases c <;> decide

/-- Fault entry makes a sound record, whatever stood there before (60_exceptions.md R174). -/
theorem raiseFault_recordSound (c : Cause) : (s.raiseFault c).RecordSound :=
  ⟨nofun, fun _ => ⟨rfl, (causeCode_range c).1, (causeCode_range c).2, rfl⟩⟩

/-- With no fault recorded the record is sound when `CAUSE` and `FCMD` are 0. -/
theorem recordSound_of_noFault (noFault : s.status.fault = false) (cause : s.status.cause = 0) (fcmd : s.fcmd = 0) :
    s.RecordSound :=
  ⟨fun _ => ⟨cause, fcmd⟩, fun fault => absurd (noFault.symm.trans fault) nofun⟩

theorem raiseFault_inv (c : Cause) (shaped : s.Shaped) : (s.raiseFault c).Inv := ⟨shaped, raiseFault_recordSound c⟩

theorem clearFault_inv (shaped : s.Shaped) : s.clearFault.Inv := ⟨shaped, recordSound_of_noFault rfl rfl rfl⟩

theorem resetFor_inv {len : Nat} (pos : 1 ≤ len) (small : len ≤ 16) : (State.resetFor len).Inv :=
  ⟨resetFor_shaped pos small, recordSound_of_noFault rfl rfl rfl⟩

theorem softReset_inv (shaped : s.Shaped) : s.softReset.Inv := resetFor_inv shaped.1.1 shaped.1.2

theorem control_inv {w : Word} (inv : s.Inv) : (Machine.control w s).Inv := by
  unfold Machine.control
  split
  · exact softReset_inv inv.1
  split
  · exact clearFault_inv inv.1
  · exact inv

theorem writesOnly_registers {r : Register} (h : WritesOnly s r t) :
    t.len = s.len ∧ t.p = s.p ∧ t.cmd = s.cmd ∧ t.status = s.status ∧ t.fcmd = s.fcmd ∧ t.pending = s.pending ∧
      t.answers = s.answers := by
  rcases h with ⟨d, v, -, rfl⟩ | ⟨d, v, -, rfl⟩ | ⟨d, q, -, rfl⟩ <;> simp

/-- A command that begins with no fault recorded, and with `CAUSE` and `FCMD` 0, keeps the invariant. -/
theorem exec_inv {i : Instr} (h : exec i s = .next t) (shaped : s.Shaped) (noFault : s.status.fault = false)
    (cause : s.status.cause = 0) (fcmd : s.fcmd = 0) : t.Inv := by
  rcases exec_next h with ⟨u, writes, rfl⟩ | ⟨c, rfl⟩
  · obtain ⟨-, -, -, hstatus, hfcmd, -, -⟩ := writesOnly_registers writes
    have shaped' : u.Shaped := writesOnly_shaped writes shaped
    refine ⟨shaped', recordSound_of_noFault ?_ ?_ ?_⟩
    · rw [complete_status, hstatus, noFault]
    · rw [complete_status, hstatus, cause]
    · rw [complete_fcmd, hfcmd, fcmd]
  · exact raiseFault_inv c shaped

theorem setDataWord_inv {d : DataWord} {w : Word} (inv : s.Inv) : (s.setDataWord d w).Inv := by
  obtain ⟨shaped, record⟩ := inv
  refine ⟨setDataWord_shaped shaped, ?_⟩
  simpa [State.RecordSound] using record

end Invariant

/-- Settles O21, from the invariant of every reset state. -/
theorem resetMeetsTheInvariant : Obligations.ResetMeetsTheInvariant :=
  ⟨resetFor_inv (by decide) (by decide), fun _ => resetFor_inv⟩

/-- Settles O22: by the cases of a step; taking a transaction off the list changes nothing the invariant speaks of. -/
theorem everyStepKeepsTheInvariant : Obligations.EveryStepKeepsTheInvariant := by
  intro s t inv h
  have invTaken (rest : List Transaction) (a : Answer) : (taken s rest a).Inv := inv
  have ⟨shaped, record, _⟩ := inv
  cases step_cases h with
  | idle _ eq => exact eq ▸ inv
  | read _ _ rest _ eq => exact eq ▸ invTaken rest _
  | rejected _ _ _ rest _ _ eq => exact eq ▸ invTaken rest _
  | dropped _ _ _ rest _ _ _ eq => exact eq ▸ invTaken rest _
  | illegal _ _ _ _ _ _ _ _ _ eq => exact eq ▸ raiseFault_inv _ shaped
  | command _ _ _ _ _ _ _ noFault _ executed =>
    obtain ⟨cause, fcmd⟩ := record noFault
    exact exec_inv executed shaped noFault cause fcmd
  | control _ _ _ rest _ _ eq => exact eq ▸ control_inv (invTaken rest _)
  | data _ _ _ rest _ _ _ eq => exact eq ▸ setDataWord_inv (invTaken rest _)

/-! ### What a command changes -/

section Frame

variable {s t : State} {r : Register}

theorem getElem_set_other {α : Type} {n : Nat} {v : Vector α n} {i k : Fin n} {x : α} (other : i ≠ k) :
    (v.set k x)[i] = v[i] :=
  Vector.getElem_set_ne _ _ fun same => other (Fin.ext same.symm)

/-- A data word outside the register written is as it was. -/
theorem writesOnly_dataWord (h : WritesOnly s r t) {d : DataWord} (outside : d.register? ≠ some r) :
    t.dataWord d = s.dataWord d := by
  have other {n : Nat} {file : RegFile} {i k : Fin n} (ne : some (⟨file, i⟩ : Register) ≠ some ⟨file, k⟩) : i ≠ k :=
    fun same => ne (by rw [same])
  rcases h with ⟨k, v, rfl, rfl⟩ | ⟨k, v, rfl, rfl⟩ | ⟨k, q, rfl, rfl⟩
  · cases d with
    | f i j => simp only [State.dataWord, writeField_f, getElem_set_other (other outside)]
    | _ => rfl
  · cases d with
    | e i j => simp only [State.dataWord, writeExt_e, getElem_set_other (other outside)]
    | _ => rfl
  · cases d
    case p | f | e => rfl
    case tag i | x i _ | y i _ | z i _ =>
      simp only [State.dataWord, writePoint_pt, getElem_set_other (other outside)]

/-- Another register than the one written holds what it held. -/
theorem writesOnly_sameContents (h : WritesOnly s r t) {q : Register} (other : q ≠ r) : t.SameContents q s q := by
  obtain ⟨file, j⟩ := q
  have index {k : Nat} (ne : (⟨file, j⟩ : Register) ≠ ⟨file, k⟩) : k ≠ j := fun same => ne (by rw [same])
  rcases h with ⟨k, v, rfl, rfl⟩ | ⟨k, v, rfl, rfl⟩ | ⟨k, v, rfl, rfl⟩
  · cases file with
    | F => exact Vector.getElem?_set_ne k.isLt (index other)
    | _ => rfl
  · cases file with
    | E => exact Vector.getElem?_set_ne k.isLt (index other)
    | _ => rfl
  · cases file with
    | PT => exact Vector.getElem?_set_ne k.isLt (index other)
    | _ => rfl

theorem access_offset {len addr size : Nat} {tgt : Target} (h : access len addr size = some tgt) :
    addr = tgt.offset := by
  unfold access at h
  obtain ⟨⟨-, aligned⟩, h⟩ := Option.ite_none_right_eq_some.1 h
  exact (target_some aligned h).2

/-- What a host reads, apart from `STATUS` and `FCMD`, is given by `LEN`, `CMD` and the data words. -/
theorem memRead_frame {addr size : Nat} (len : t.len = s.len) (cmd : t.cmd = s.cmd) (notStatus : addr ≠ 0x004)
    (notFcmd : addr ≠ 0x010)
    (data : ∀ d, access s.len addr size = some (.data d) → t.dataWord d = s.dataWord d) :
    memRead t addr size = memRead s addr size := by
  unfold memRead
  rw [len]
  cases reached : access s.len addr size with
  | none => rfl
  | some tgt =>
    cases tgt with
    | cmd => simp only [cmd]
    | status => exact absurd (access_offset reached) notStatus
    | ctrl => rfl
    | config => rfl
    | fcmd => exact absurd (access_offset reached) notFcmd
    | data d => simp only [data d reached]

/-- Whatever a command does, it leaves `LEN`, `P`, `CMD` and the host's lists. -/
theorem exec_registers {i : Instr} (h : exec i s = .next t) :
    t.len = s.len ∧ t.p = s.p ∧ t.cmd = s.cmd ∧ t.pending = s.pending ∧ t.answers = s.answers := by
  rcases exec_next h with ⟨u, writes, rfl⟩ | ⟨c, rfl⟩
  · obtain ⟨len, p, cmd, -, -, pending, answers⟩ := writesOnly_registers writes
    exact ⟨len, p, cmd, pending, answers⟩
  · exact ⟨rfl, rfl, rfl, rfl, rfl⟩

/-- A command leaves every data word outside its destination. -/
theorem exec_dataWord {i : Instr} (h : exec i s = .next t) {d : DataWord}
    (outside : d.register? ≠ some i.destination) : t.dataWord d = s.dataWord d := by
  rcases exec_next h with ⟨u, writes, rfl⟩ | ⟨c, rfl⟩
  · rw [complete_dataWord, writesOnly_dataWord writes outside]
  · exact raiseFault_dataWord s c d

/-- A command leaves every register but its destination. -/
theorem exec_sameContents {i : Instr} (h : exec i s = .next t) (other : r ≠ i.destination) : t.SameContents r s r := by
  rcases exec_next h with ⟨u, writes, rfl⟩ | ⟨c, rfl⟩
  · exact writesOnly_sameContents writes other
  · unfold State.SameContents
    split <;> rfl

/-- `STATUS` and `FCMD` after a command: it completed, or fault entry is all that happened. -/
theorem exec_status {i : Instr} (h : exec i s = .next t) :
    (t.status = { s.status with done := true } ∧ t.fcmd = s.fcmd) ∨ ∃ c, t = s.raiseFault c := by
  rcases exec_next h with ⟨u, writes, rfl⟩ | faulted
  · obtain ⟨-, -, -, status, fcmd, -, -⟩ := writesOnly_registers writes
    exact .inl ⟨by rw [complete_status, status], fcmd⟩
  · exact .inr faulted

end Frame

/-- Settles O23, from the frame lemmas of `exec`; what a host reads follows from them. -/
theorem commandsChangeTheirDestinationOnly : Obligations.CommandsChangeTheirDestinationOnly := by
  intro i s t h
  have registers := exec_registers h
  have ⟨len, _, cmd, _, _⟩ := registers
  exact ⟨registers, fun d => exec_dataWord h,
    fun addr size notStatus notFcmd outside =>
      memRead_frame len cmd notStatus notFcmd fun d reached => exec_dataWord h (outside d reached),
    exec_status h⟩

/-- Settles O24: by the cases of a step. An access that reaches something is one of 4 bytes at its offset, and a step that
takes no command word and reaches neither `CTRL` nor a data word changes no register. -/
theorem onlyTheseEventsChangeAWord : Obligations.OnlyTheseEventsChangeAWord := by
  intro s t shaped h
  have small : s.len ≤ 16 := shaped.1.2
  have atOffset {addr size : Nat} {tgt : Target} (reached : access s.len addr size = some tgt) :=
    (access_iff small).1 reached
  cases step_cases h with
  | idle _ eq =>
    subst eq
    simp
  | read _ _ rest _ eq =>
    subst eq
    simp
  | rejected _ _ _ rest _ _ eq =>
    subst eq
    simp
  | dropped _ _ _ rest _ _ _ eq =>
    subst eq
    simp
  | illegal _ _ w rest _ pending reached _ _ eq =>
    obtain ⟨rfl, -, rfl⟩ := atOffset reached
    subst eq
    exact ⟨rfl, fun d changed => absurd (dataWord_congr rfl rfl rfl rfl d) changed,
      fun _ => ⟨_, w, rest, pending, .inl rfl⟩⟩
  | command _ _ w rest i pending reached noFault decoded executed =>
    obtain ⟨rfl, -, rfl⟩ := atOffset reached
    refine ⟨(exec_registers executed).1, fun d changed => .inl ⟨w, rest, i, pending, noFault, decoded, ?_⟩,
      fun _ => ⟨_, w, rest, pending, .inl rfl⟩⟩
    by_contra outside
    exact changed ((exec_dataWord executed outside).trans (dataWord_congr rfl rfl rfl rfl d))
  | control _ _ w rest pending reached eq =>
    obtain ⟨rfl, -, rfl⟩ := atOffset reached
    subst eq
    refine ⟨?_, fun d changed => .inr (.inr ⟨w, rest, pending, ?_⟩), fun _ => ⟨_, w, rest, pending, .inr rfl⟩⟩
    · unfold Machine.control
      split_ifs <;> rfl
    · by_contra noReset
      rw [Machine.control, if_neg noReset] at changed
      split_ifs at changed
      · exact changed ((clearFault_dataWord _ d).trans (taken_dataWord ..))
      · exact changed (taken_dataWord ..)
  | data _ _ w rest d pending reached eq =>
    obtain ⟨rfl, ex, rfl⟩ := atOffset reached
    subst eq
    refine ⟨setDataWord_len .., fun d' changed => ?_, by simp⟩
    by_cases same : d' = d
    · subst same
      exact .inr (.inl ⟨w, rest, pending, ex⟩)
    · exact absurd ((dataWord_setDataWord_ne same).trans (taken_dataWord ..)) changed

/-! ### What a command depends on -/

section Dependence

variable {s₁ s₂ t₁ : State} {α : Type}

/-- Two runs of a command end alike: both complete with the same contents in the register `r`, or both record the same
fault. -/
def SameOutcome (r : Register) (t₁ t₂ : State) : Prop :=
  t₂.status.done = t₁.status.done ∧ (t₁.status.done = true → t₁.SameContents r t₂ r) ∧
    (t₁.status.done = false → t₂.status = t₁.status)

/-- Two commands that compute the same `x` from their states and write it by `w₁` and `w₂` into the register `r`. -/
theorem conclude_sameOutcome {r : Register} {x : Except Stop α} {w₁ w₂ : α → State}
    (written : ∀ a, x = .ok a → (w₁ a).SameContents r (w₂ a) r) (h : conclude s₁ (x.map w₁) = .next t₁) :
    ∃ t₂, conclude s₂ (x.map w₂) = .next t₂ ∧ SameOutcome r t₁ t₂ := by
  match x, h with
  | .ok a, h =>
    obtain rfl := Host.Outcome.next.inj h
    exact ⟨(w₂ a).complete, rfl, rfl, fun _ => written a rfl, nofun⟩
  | .error (.raise c), h =>
    obtain rfl := Host.Outcome.next.inj h
    exact ⟨s₂.raiseFault c, rfl, rfl, nofun, fun _ => rfl⟩

/-- The destination and the result of a command that writes a field register. -/
def fieldResult (operands : Except Stop (Fin 8 × α)) (result : α → Except Stop Nat) : Except Stop (Fin 8 × Nat) := do
  let (d, xs) ← operands
  let v ← result xs
  return (d, v)

theorem toField_eq_conclude_map (s : State) (operands : Except Stop (Fin 8 × α)) (result : α → Except Stop Nat) :
    toField s operands result = conclude s ((fieldResult operands result).map fun dv => s.writeField dv.1 dv.2) := by
  cases operands with
  | error e => rfl
  | ok da => cases h : result da.2 <;> simp [toField, fieldResult, h, bind, Except.bind, pure, Except.pure, Except.map]

theorem toExt_eq_conclude_map (s : State) (operands : Except Stop (Fin 4 × α)) (result : α → Nat) :
    toExt s operands result = conclude s (operands.map fun da => s.writeExt da.1 (result da.2)) := by
  cases operands <;> rfl

theorem toPoint_eq_conclude_map (s : State) (operands : Except Stop (Fin 4 × α)) (result : α → Point) :
    toPoint s operands result = conclude s (operands.map fun da => s.writePoint da.1 (result da.2)) := by
  cases operands <;> rfl

theorem fieldResult_destination {rd : Nat} {x : Except Stop (Fin 8 × α)} {f : α → Except Stop Nat}
    (destination : ∀ d a, x = .ok (d, a) → rd = d) {d : Fin 8} {v : Nat} (h : fieldResult x f = .ok (d, v)) :
    rd = d := by
  obtain ⟨⟨d', a⟩, hx, h⟩ := bind_ok h
  obtain ⟨_, -, h⟩ := bind_ok h
  cases h
  exact destination _ _ hx

variable {rd : Nat} (len : s₁.len = s₂.len)
include len

theorem toField_sameOutcome {x y : Except Stop (Fin 8 × α)} {f : α → Except Stop Nat} (operands : x = y)
    (destination : ∀ d a, y = .ok (d, a) → rd = d) (h : toField s₁ x f = .next t₁) :
    ∃ t₂, toField s₂ y f = .next t₂ ∧ SameOutcome ⟨.F, rd⟩ t₁ t₂ := by
  rw [operands, toField_eq_conclude_map] at h
  rw [toField_eq_conclude_map]
  refine conclude_sameOutcome (fun dv computed => ?_) h
  obtain rfl := fieldResult_destination destination computed
  simp [State.SameContents, len]

theorem toExt_sameOutcome {x y : Except Stop (Fin 4 × α)} {f : α → Nat} (operands : x = y)
    (destination : ∀ d a, y = .ok (d, a) → rd = d) (h : toExt s₁ x f = .next t₁) :
    ∃ t₂, toExt s₂ y f = .next t₂ ∧ SameOutcome ⟨.E, rd⟩ t₁ t₂ := by
  rw [operands, toExt_eq_conclude_map] at h
  rw [toExt_eq_conclude_map]
  refine conclude_sameOutcome (fun da computed => ?_) h
  obtain rfl := destination da.1 da.2 computed
  simp [State.SameContents, len]

theorem toPoint_sameOutcome {x y : Except Stop (Fin 4 × α)} {f : α → Point} (operands : x = y)
    (destination : ∀ d a, y = .ok (d, a) → rd = d) (h : toPoint s₁ x f = .next t₁) :
    ∃ t₂, toPoint s₂ y f = .next t₂ ∧ SameOutcome ⟨.PT, rd⟩ t₁ t₂ := by
  rw [operands, toPoint_eq_conclude_map] at h
  rw [toPoint_eq_conclude_map]
  refine conclude_sameOutcome (fun da computed => ?_) h
  obtain rfl := destination da.1 da.2 computed
  simp [State.SameContents, len]

end Dependence

/-! The operand lists of two states that agree on the modulus and on the source registers. -/

section SameOperands

variable {s₁ s₂ : State} {n m : Nat} {α β : Type}

theorem bind_congr_ok {x : Except Stop α} {f g : α → Except Stop β} (h : ∀ a, x = .ok a → f a = g a) :
    x >>= f = x >>= g := by
  cases x with
  | ok a => exact h a rfl
  | error e => rfl

theorem modulus_congr (p : s₁.p = s₂.p) : modulus s₁ = modulus s₂ := by
  rw [modulus, modulus, p]

/-- The registers hold the same in both states. -/
def SameSources (s₁ s₂ : State) (sources : List Register) : Prop := ∀ r ∈ sources, s₁.SameContents r s₂ r

/-- Where `i` is an index that the operand may have, both states read the same there. -/
def SameRead (index : Nat → Except Stop (Fin m)) (read₁ read₂ : Fin m → Except Stop β) (i : Nat) : Prop :=
  ∀ a, index i = .ok a → read₁ a = read₂ a

theorem field_sameRead {i : Nat} (same : s₁.SameContents ⟨.F, i⟩ s₂ ⟨.F, i⟩) :
    SameRead fieldIndex (heldField s₁) (heldField s₂) i := by
  intro a index
  obtain rfl := fieldIndex_ok.1 index
  have contents : s₁.f[a] = s₂.f[a] := by simpa [State.SameContents] using same
  rw [heldField, heldField, contents]

theorem ext_sameRead {i : Nat} (same : s₁.SameContents ⟨.E, i⟩ s₂ ⟨.E, i⟩) :
    SameRead extIndex (heldExt s₁) (heldExt s₂) i := by
  intro a index
  obtain rfl := extIndex_ok.1 index
  have contents : s₁.e[a] = s₂.e[a] := by simpa [State.SameContents] using same
  rw [heldExt, heldExt, contents]

theorem point_sameRead {i : Nat} (same : s₁.SameContents ⟨.PT, i⟩ s₂ ⟨.PT, i⟩) :
    SameRead pointIndex (heldPoint s₁) (heldPoint s₂) i := by
  intro a index
  obtain rfl := pointIndex_ok.1 index
  have contents : s₁.pt[a] = s₂.pt[a] := by simpa [State.SameContents] using same
  rw [heldPoint, heldPoint, contents]

variable (p : s₁.p = s₂.p)
include p

theorem oneSource_congr {index : Nat → Except Stop (Fin m)} {read₁ read₂ : Fin m → Except Stop β}
    {check : Nat → β → Except Stop Unit} {destination : Except Stop (Fin n)} {i : Nat}
    (same : SameRead index read₁ read₂ i) :
    (do
      let d ← destination
      let a ← index i
      let p ← modulus s₁
      let x ← read₁ a
      check p x
      return (d, p, x)) = (do
      let d ← destination
      let a ← index i
      let p ← modulus s₂
      let x ← read₂ a
      check p x
      return (d, p, x)) := by
  refine bind_congr_ok fun d _ => bind_congr_ok fun a index_ok => ?_
  rw [modulus_congr p, same a index_ok]

theorem twoSources_congr {index : Nat → Except Stop (Fin m)} {read₁ read₂ : Fin m → Except Stop β}
    {check : Nat → β → Except Stop Unit} {destination : Except Stop (Fin n)} {i j : Nat}
    (same_i : SameRead index read₁ read₂ i) (same_j : SameRead index read₁ read₂ j) :
    (do
      let d ← destination
      let a ← index i
      let b ← index j
      let p ← modulus s₁
      let x ← read₁ a
      let y ← read₁ b
      check p x
      check p y
      return (d, p, x, y)) = (do
      let d ← destination
      let a ← index i
      let b ← index j
      let p ← modulus s₂
      let x ← read₂ a
      let y ← read₂ b
      check p x
      check p y
      return (d, p, x, y)) := by
  refine bind_congr_ok fun d _ => bind_congr_ok fun a index_a => bind_congr_ok fun b index_b => ?_
  rw [modulus_congr p, same_i a index_a, same_j b index_b]

variable {d i j : Nat}

theorem operandsFF_congr (same : SameSources s₁ s₂ [⟨.F, i⟩]) : operandsFF s₁ d i = operandsFF s₂ d i :=
  oneSource_congr p (field_sameRead (same _ (by simp)))

theorem operandsFE_congr (same : SameSources s₁ s₂ [⟨.E, i⟩]) : operandsFE s₁ d i = operandsFE s₂ d i :=
  oneSource_congr p (ext_sameRead (same _ (by simp)))

theorem operandsPP_congr (same : SameSources s₁ s₂ [⟨.PT, i⟩]) : operandsPP s₁ d i = operandsPP s₂ d i :=
  oneSource_congr p (point_sameRead (same _ (by simp)))

theorem operandsFFF_congr (same : SameSources s₁ s₂ [⟨.F, i⟩, ⟨.F, j⟩]) :
    operandsFFF s₁ d i j = operandsFFF s₂ d i j :=
  twoSources_congr p (field_sameRead (same _ (by simp))) (field_sameRead (same _ (by simp)))

theorem operandsEFF_congr (same : SameSources s₁ s₂ [⟨.F, i⟩, ⟨.F, j⟩]) :
    operandsEFF s₁ d i j = operandsEFF s₂ d i j :=
  twoSources_congr p (field_sameRead (same _ (by simp))) (field_sameRead (same _ (by simp)))

theorem operandsEEE_congr (same : SameSources s₁ s₂ [⟨.E, i⟩, ⟨.E, j⟩]) :
    operandsEEE s₁ d i j = operandsEEE s₂ d i j :=
  twoSources_congr p (ext_sameRead (same _ (by simp))) (ext_sameRead (same _ (by simp)))

theorem operandsPPP_congr (same : SameSources s₁ s₂ [⟨.PT, i⟩, ⟨.PT, j⟩]) :
    operandsPPP s₁ d i j = operandsPPP s₂ d i j :=
  twoSources_congr p (point_sameRead (same _ (by simp))) (point_sameRead (same _ (by simp)))

end SameOperands

/-- A command run in two states that agree on `LEN`, `P` and its sources ends alike (10_state.md R27). -/
theorem exec_sameOutcome {s₁ s₂ t₁ : State} {i : Instr} (len : s₁.len = s₂.len) (p : s₁.p = s₂.p)
    (same : SameSources s₁ s₂ i.sources) (h : exec i s₁ = .next t₁) :
    ∃ t₂, exec i s₂ = .next t₂ ∧ SameOutcome i.destination t₁ t₂ := by
  cases i with
  | finv d a =>
    unfold exec execFinv at h ⊢
    rw [len] at h
    exact toField_sameOutcome len (operandsFF_congr p same) (fun _ _ => operandsFF_destination) h
  | fmul d a b =>
    unfold exec execFmul at h ⊢
    exact toField_sameOutcome len (operandsFFF_congr p same) (fun _ _ => operandsFFF_destination) h
  | mmul d a b =>
    unfold exec execMmul at h ⊢
    exact toField_sameOutcome len (operandsFFF_congr p same) (fun _ _ => operandsFFF_destination) h
  | fsqr d a =>
    unfold exec execFsqr at h ⊢
    exact toField_sameOutcome len (operandsFF_congr p same) (fun _ _ => operandsFF_destination) h
  | fred d a =>
    unfold exec execFred at h ⊢
    exact toField_sameOutcome len (operandsFE_congr p same) (fun _ _ => operandsFE_destination) h
  | fadd d a b =>
    unfold exec execFadd at h ⊢
    exact toField_sameOutcome len (operandsFFF_congr p same) (fun _ _ => operandsFFF_destination) h
  | fsub d a b =>
    unfold exec execFsub at h ⊢
    exact toField_sameOutcome len (operandsFFF_congr p same) (fun _ _ => operandsFFF_destination) h
  | fdbl d a =>
    unfold exec execFdbl at h ⊢
    exact toField_sameOutcome len (operandsFF_congr p same) (fun _ _ => operandsFF_destination) h
  | fneg d a =>
    unfold exec execFneg at h ⊢
    exact toField_sameOutcome len (operandsFF_congr p same) (fun _ _ => operandsFF_destination) h
  | mulx d a b =>
    unfold exec execMulx at h ⊢
    exact toExt_sameOutcome len (operandsEFF_congr p same) (fun _ _ => operandsEFF_destination) h
  | subx d a b =>
    unfold exec execSubx at h ⊢
    exact toExt_sameOutcome len (operandsEEE_congr p same) (fun _ _ => operandsEEE_destination) h
  | padd d a b =>
    unfold exec execPadd at h ⊢
    exact toPoint_sameOutcome len (operandsPPP_congr p same) (fun _ _ => operandsPPP_destination) h
  | pdbl d a =>
    unfold exec execPdbl at h ⊢
    exact toPoint_sameOutcome len (operandsPP_congr p same) (fun _ _ => operandsPP_destination) h
  | pneg d a =>
    unfold exec execPneg at h ⊢
    exact toPoint_sameOutcome len (operandsPP_congr p same) (fun _ _ => operandsPP_destination) h
  | psub d a b =>
    unfold exec execPsub at h ⊢
    exact toPoint_sameOutcome len (operandsPPP_congr p same) (fun _ _ => operandsPPP_destination) h
  | ptpl d a =>
    unfold exec execPtpl at h ⊢
    exact toPoint_sameOutcome len (operandsPP_congr p same) (fun _ _ => operandsPP_destination) h
  | pdbladd d a b =>
    unfold exec execPdbladd at h ⊢
    exact toPoint_sameOutcome len (operandsPPP_congr p same) (fun _ _ => operandsPPP_destination) h

/-- Settles O25: the operand lists are the same in both states, and so is what is computed from them; a source that is not
the destination stays by the frame of the command. -/
theorem resultDependsOnSourcesAndModulusOnly : Obligations.ResultDependsOnSourcesAndModulusOnly := by
  intro i s₁ s₂ t₁ len p same h
  obtain ⟨t₂, h₂, done, completed, faulted⟩ := exec_sameOutcome len p same h
  exact ⟨t₂, h₂, done, completed, faulted, fun r _ other => exec_sameContents h other⟩

/-! ### Point registers -/

section PointRegisters

variable {r : PointReg} {t : BitVec 3}

theorem held_none {a : List (Option Word)} (h : valueOf a = none) : held a = .error (.raise .uninit) := by
  rw [held, h]

/-- A sequence of reads answers `UNINIT` when the first array holds no value, or when what follows does. -/
theorem held_bind_uninit {β : Type} {a : List (Option Word)} {f : Nat → Except Stop β}
    (h : valueOf a = none ∨ ∀ v, f v = .error (.raise .uninit)) : held a >>= f = .error (.raise .uninit) := by
  cases ha : valueOf a with
  | none => rw [held_none ha]; rfl
  | some v =>
    rw [held_ok.2 ha]
    exact h.resolve_left (by simp [ha]) v

theorem logicalPoint_noTag (tag : r.tag = none) : logicalPoint r = .error (.raise .uninit) := by
  rw [logicalPoint, tag]

theorem logicalPoint_state0 (tag : r.tag = some t) (state : tagState t = 0) :
    logicalPoint r = .ok (.infinity (tagComp t)) := by
  simp only [logicalPoint, tag, state]

theorem logicalPoint_state1 (tag : r.tag = some t) (state : tagState t = 1) :
    logicalPoint r = held r.x >>= fun x => held r.y >>= fun y => .ok (.affine (tagComp t) x y) := by
  simp only [logicalPoint, tag, state]
  rfl

theorem logicalPoint_state2 (tag : r.tag = some t) (state : tagState t = 2) :
    logicalPoint r =
      held r.x >>= fun x => held r.y >>= fun y => held r.z >>= fun z => .ok (.jacobian (tagComp t) x y z) := by
  simp only [logicalPoint, tag, state]
  rfl

theorem logicalPoint_state3 (tag : r.tag = some t) (state : tagState t = 3) :
    logicalPoint r = .error (.raise .badTag) := by
  simp only [logicalPoint, tag, state]

/-- The fields of the word a host reads at a tag (10_state.md R24). -/
theorem tagWord_fields (t : BitVec 3) :
    bits (t.setWidth 32) 31 3 = 0 ∧ bits (t.setWidth 32) 1 0 = tagState t ∧
      (t.setWidth 32).getLsbD 2 = tagComp t := by
  have := t.isLt
  have value : (t.setWidth 32).toNat = t.toNat := by
    rw [BitVec.toNat_setWidth]
    omega
  refine ⟨?_, ?_, by simp [tagComp]⟩
  · rw [bits, value]
    omega
  · rw [bits, value, tagState]
    omega

/-- The word a host reads at a tag that was written with a point (10_state.md R26). -/
theorem tagWord_tagOf (c : Bool) {k : Nat} (small : k < 4) :
    (tagOf c k).setWidth 32 = BitVec.ofNat 32 (c.toNat * 4 + k) := by
  have := c.toNat_lt
  apply BitVec.eq_of_toNat_eq
  rw [tagOf, BitVec.toNat_setWidth, BitVec.toNat_ofNat, BitVec.toNat_ofNat]
  omega

end PointRegisters

/-- Settles O59: by the four values of `TAG[1:0]`, each with the reads that its state makes. -/
theorem pointRegisterReadsAsItsTagSays : Obligations.PointRegisterReadsAsItsTagSays := by
  intro s i
  refine ⟨fun h => logicalPoint_noTag (Option.map_eq_none_iff.1 h), fun w h => ?_⟩
  obtain ⟨t, tag, rfl⟩ := Option.map_eq_some_iff.1 h
  obtain ⟨high, state, flag⟩ := tagWord_fields t
  rw [state, flag]
  refine ⟨high, logicalPoint_state3 tag, logicalPoint_state0 tag, fun affine => ?_, fun jacobian => ?_⟩
  · rw [heldPoint, logicalPoint_state1 tag affine]
    constructor
    · rintro (hx | hy)
      · exact held_bind_uninit (.inl hx)
      · exact held_bind_uninit (.inr fun _ => held_bind_uninit (.inl hy))
    · intro x y hx hy
      rw [held_ok.2 hx, held_ok.2 hy]
      rfl
  · rw [heldPoint, logicalPoint_state2 tag jacobian]
    constructor
    · rintro (hx | hy | hz)
      · exact held_bind_uninit (.inl hx)
      · exact held_bind_uninit (.inr fun _ => held_bind_uninit (.inl hy))
      · exact held_bind_uninit (.inr fun _ => held_bind_uninit (.inr fun _ => held_bind_uninit (.inl hz)))
    · intro x y z hx hy hz
      rw [held_ok.2 hx, held_ok.2 hy, held_ok.2 hz]
      rfl

theorem wordsOf_getElem?_join {n v j : Nat} (lt : j < n) : (wordsOf n v)[j]?.join = some (wordOf v j) := by
  rw [getElem?_wordsOf lt]
  rfl

/-- Settles O47: the point register written is read back by the laws of `pointReg`, and its words are those of the tag, of
the coordinates the state has, and none. -/
theorem writtenPointReadsBack : Obligations.WrittenPointReadsBack := by
  intro s d p P shaped modulus reduced
  have written : (s.writePoint d P).pt[d] = pointReg s.len P := by simp
  refine ⟨?_, ?_⟩
  · rw [written, logicalPoint_pointReg (modulus_lt_wordsBound shaped modulus).le reduced]
  · simp only [State.dataWord, written]
    cases P with
    | infinity c =>
      exact ⟨congrArg some (tagWord_tagOf c (by decide)),
        fun j => ⟨noWords_getElem?_join s.len j, noWords_getElem?_join s.len j, noWords_getElem?_join s.len j⟩⟩
    | affine c x y =>
      exact ⟨congrArg some (tagWord_tagOf c (by decide)),
        fun j lt => ⟨wordsOf_getElem?_join lt, wordsOf_getElem?_join lt⟩, noWords_getElem?_join s.len⟩
    | jacobian c x y z =>
      exact ⟨congrArg some (tagWord_tagOf c (by decide)),
        fun j lt => ⟨wordsOf_getElem?_join lt, wordsOf_getElem?_join lt, wordsOf_getElem?_join lt⟩⟩

end Sys2Proof.Proofs
end

section
/-! SUPPORT. Proofs of the statements on 20_memory.md: one transaction a step (R40, R55), the outcome of every access (R41,
R42, R48), the words of values as a host reads them (R44), and the binding of the window (R43). -/

namespace Sys2Proof.Proofs

open Sys2Proof.Machine Sys2Proof.Laws

/-! ### One transaction a step -/

section Taking

variable {s t : State} {w : Word}

@[simp] theorem control_pending : (Machine.control w s).pending = s.pending := by
  unfold Machine.control
  split_ifs <;> rfl

@[simp] theorem control_answers : (Machine.control w s).answers = s.answers := by
  unfold Machine.control
  split_ifs <;> rfl

theorem takeCommand_answers (h : takeCommand w s = .next t) : t.answers = s.answers := by
  rcases takeCommand_cases h with ⟨-, rfl⟩ | ⟨-, _, -, rfl⟩ | ⟨-, i, -, executed⟩
  · rfl
  · rfl
  · obtain ⟨-, -, -, -, answers⟩ := exec_registers executed
    exact answers

/-- Whatever a step does to the block, it takes one transaction and notes one answer (20_memory.md R40, R55). -/
theorem step_takesOne {tx : Transaction} {rest : List Transaction} (pending : s.pending = tx :: rest)
    (h : step s = .next t) : t.pending = rest ∧ ∃ a, t.answers = a :: s.answers := by
  have tail {tx' rest'} (pending' : s.pending = tx' :: rest') : rest' = rest :=
    (List.cons.inj (pending'.symm.trans pending)).2
  cases step_cases h with
  | idle empty => exact absurd (pending.symm.trans empty) (List.cons_ne_nil tx rest)
  | read _ _ _ pending' eq => exact eq ▸ ⟨tail pending', _, rfl⟩
  | rejected _ _ _ _ pending' _ eq => exact eq ▸ ⟨tail pending', _, rfl⟩
  | dropped _ _ _ _ pending' _ _ eq => exact eq ▸ ⟨tail pending', _, rfl⟩
  | illegal _ _ _ _ _ pending' _ _ _ eq => exact eq ▸ ⟨tail pending', _, rfl⟩
  | command _ _ _ _ _ pending' _ _ _ executed =>
    obtain ⟨-, -, -, pending, answers⟩ := exec_registers executed
    exact ⟨pending.trans (tail pending'), _, answers⟩
  | control _ _ _ _ pending' _ eq => exact eq ▸ ⟨control_pending.trans (tail pending'), _, control_answers⟩
  | data _ _ _ _ _ pending' _ eq =>
    exact eq ▸ ⟨(setDataWord_pending ..).trans (tail pending'), _, setDataWord_answers ..⟩

end Taking

/-- Settles O6: an idle step is the first case of the step function, every other one a case of `step_cases`. -/
theorem everyStepIsOneTransaction : Obligations.EveryStepIsOneTransaction := by
  intro s
  refine ⟨fun idle => ?_, fun tx rest t => step_takesOne⟩
  rw [step, nextTransaction, idle]

/-! ### The outcome of an access -/

section Access

variable {s : State} {w : Word} {rest : List Transaction} {addr size : Nat}

theorem step_read (pending : s.pending = .read addr size :: rest) :
    step s = .next (taken s rest (memRead s addr size)) := by
  rw [step, nextTransaction, pending]
  rfl

/-- A read of a data word answers the word, and `ERR` where it holds none (20_memory.md R42, R48). -/
theorem memRead_data {d : DataWord} (small : s.len ≤ 16) (ex : d.Exists s.len) :
    memRead s d.offset 4 = (s.dataWord d).elim .err .word := by
  rw [memRead, access_data small ex]
  dsimp only
  cases s.dataWord d <;> rfl

/-- An access that reaches nothing is answered `ERR` and changes nothing (20_memory.md R42). -/
theorem step_unreached (unreached : access s.len addr size = none)
    (pending : s.pending = .read addr size :: rest ∨ s.pending = .write addr size w :: rest) :
    step s = .next (taken s rest .err) := by
  rcases pending with pending | pending
  · rw [step_read pending, memRead, unreached]
  · rw [step_write pending, memWrite, unreached]
    rfl

theorem takeCommand_dropped (fault : s.status.fault = true) : takeCommand w s = .next s := if_pos fault

/-- A word that is no command is recorded as illegal (30_encoding.md R66, R72). -/
theorem takeCommand_illegal (noFault : s.status.fault = false) (illegal : ∀ i, decode w ≠ .ok i) :
    takeCommand w s = .next ({ s with cmd := w }.raiseFault .illegalCmd) := by
  cases decoded : decode w with
  | ok i => exact absurd decoded (illegal i)
  | error e => simp [takeCommand, noFault, decoded]

end Access

/-- Settles O7: reads and writes each by what the offset names; that an access elsewhere reaches nothing is the other
direction of the address map. -/
theorem transactionOutcomes : Obligations.TransactionOutcomes := by
  intro s rest small
  refine ⟨fun tgt ex pending => ?read, fun tgt w ex pending => ?write, fun addr size w outside => ?elsewhere⟩
  case read =>
    cases tgt with
    | data d =>
      have answer : memRead s d.offset 4 = (s.dataWord d).elim .err .word := memRead_data small ex
      rw [step_read pending, Target.offset, answer]
      dsimp only
      cases s.dataWord d <;> rfl
    | cmd | status | ctrl | config | fcmd => exact step_read pending
  case write =>
    cases tgt with
    | cmd =>
      have taking : step s = takeCommand w (taken s rest .ok) := step_writeCmd pending
      refine ⟨fun t h => takeCommand_answers (taking.symm.trans h), fun fault => taking.trans (takeCommand_dropped fault),
        fun noFault i => stepRunsTheDecodedCommand s w rest i pending noFault, fun noFault illegal => ?_⟩
      exact taking.trans (takeCommand_illegal noFault illegal)
    | ctrl => exact step_writeCtrl pending
    | data d =>
      refine ⟨step_writeData small ex pending, fun shaped => ?_⟩
      rw [dataWord_setDataWord_self (s := taken s rest .ok) shaped ex]
      exact Option.some_ne_none _
    | status | config | fcmd => exact step_write pending
  case elsewhere => exact step_unreached (access_none small outside)

/-! ### The words of values as a host reads them -/

section ReadBack

variable {s : State} {w : Word}

theorem memRead_held {d : DataWord} (small : s.len ≤ 16) (ex : d.Exists s.len) (holds : s.dataWord d = some w) :
    memRead s d.offset 4 = .word w := by
  rw [memRead_data small ex, holds]
  rfl

/-- A data word at place `j` of an array of value `v` is read as the word of `v` of weight `2^(32*j)` (20_memory.md R44). -/
theorem memRead_valueWord {d : DataWord} {a : List (Option Word)} {v j : Nat} (small : s.len ≤ 16)
    (ex : d.Exists s.len) (inArray : s.dataWord d = a[j]?.join) (lt : j < a.length) (value : valueOf a = some v) :
    memRead s d.offset 4 = .word (wordOf v j) := by
  refine memRead_held small ex ?_
  rw [inArray, getElem?_of_valueOf value lt]
  rfl

end ReadBack

/-- Settles O58: each slot is a data word of its array, and a written result is `words_n` of its value. -/
theorem hostReadsValuesLittleEndian : Obligations.HostReadsValuesLittleEndian := by
  rintro s v j ⟨⟨-, small⟩, hp, hf, he, hpt⟩
  refine ⟨fun value lt => ?p, fun i lt => ⟨fun value => ?f, ?fWritten⟩, fun i lt => ⟨fun value => ?e, ?eWritten⟩,
    fun i lt => ⟨fun value => ?x, fun value => ?y, fun value => ?z⟩⟩
  case p => exact memRead_valueWord (d := .p j) small lt rfl (lt.trans_eq hp.symm) value
  case f => exact memRead_valueWord (d := .f i j) small lt rfl (lt.trans_eq (hf i).symm) value
  case fWritten =>
    refine memRead_held (s := s.writeField i v) (d := .f i j) small lt ?_
    simp [State.dataWord, wordsOf_getElem?_join lt]
  case e => exact memRead_valueWord (d := .e i j) small lt rfl (lt.trans_eq (he i).symm) value
  case eWritten =>
    refine memRead_held (s := s.writeExt i v) (d := .e i j) small lt ?_
    simp [State.dataWord, wordsOf_getElem?_join lt]
  all_goals obtain ⟨hx, hy, hz⟩ := hpt i
  case x => exact memRead_valueWord (d := .x i j) small lt rfl (lt.trans_eq hx.symm) value
  case y => exact memRead_valueWord (d := .y i j) small lt rfl (lt.trans_eq hy.symm) value
  case z => exact memRead_valueWord (d := .z i j) small lt rfl (lt.trans_eq hz.symm) value

/-! ### The window in the host's address space -/

section Launch

variable {base : Nat} {tx : Transaction}

/-- A transaction of the block, issued at the base plus its offset, comes back as it was (20_memory.md R43). -/
theorem fromHost_toHost (inside : tx.addr < windowSize) :
    Transaction.fromHost base (tx.toHost base) = some tx := by
  have bound : windowOffset base (base + tx.addr) = some tx.addr := windowOffset_eq_some.2 ⟨rfl, inside⟩
  cases tx with
  | read offset size => exact congrArg (Option.map (Transaction.read · size)) bound
  | write offset size w => exact congrArg (Option.map (Transaction.write · size w)) bound

/-- A transaction outside the window is not the block's (log 10). -/
theorem fromHost_outside (outside : tx.addr < base ∨ base + windowSize ≤ tx.addr) :
    Transaction.fromHost base tx = none := by
  have unbound : windowOffset base tx.addr = none := windowOffset_eq_none.2 outside
  cases tx with
  | read addr size => exact congrArg (Option.map (Transaction.read · size)) unbound
  | write addr size w => exact congrArg (Option.map (Transaction.write · size w)) unbound

theorem filterMap_fromHost_toHost {program : List Transaction} (inside : ∀ tx ∈ program, tx.addr < windowSize) :
    (program.map (Transaction.toHost base)).filterMap (Transaction.fromHost base) = program := by
  rw [List.filterMap_map]
  exact (List.filterMap_congr fun tx mem => fromHost_toHost (inside tx mem)).trans List.filterMap_some

theorem filterMap_fromHost_outside {others : List Transaction}
    (outside : ∀ tx ∈ others, tx.addr < base ∨ base + windowSize ≤ tx.addr) :
    others.filterMap (Transaction.fromHost base) = [] :=
  List.filterMap_eq_nil_iff.2 fun tx mem => fromHost_outside (outside tx mem)

end Launch

/-- Settles O56: of the three parts of the host's list only the program's transactions are bound, each at its offset. -/
theorem windowIsBoundAtTheLaunchsBase : Obligations.WindowIsBoundAtTheLaunchsBase := by
  intro s base before program after inside outside
  obtain ⟨outBefore, outAfter⟩ := List.forall_mem_append.1 outside
  refine ⟨?_, fun tgt small ex => offset_lt_windowSize small ex⟩
  rw [State.launch, List.filterMap_append, List.filterMap_append, filterMap_fromHost_outside outBefore,
    filterMap_fromHost_toHost inside, filterMap_fromHost_outside outAfter, List.nil_append, List.append_nil]

end Sys2Proof.Proofs
end

section
/-! SUPPORT. Proofs of the statements on 30_encoding.md: the rows of the opcode map (R64), the decoder and the encoder as
inverses (R61, R65), the words that are illegal (R66, R67), and commands with an illegal index (R62, R66 (c)). -/

namespace Sys2Proof.Proofs

open Sys2Proof.Machine Sys2Proof.Laws

/-! ### The rows of the opcode map -/

section Rows

variable {w : Word} {i : Instr}

/-- The highest of the low bits that the command's format marks zero (30_encoding.md R61): 11 in format R3, 15 in R2. -/
def zeroTop (i : Instr) : Nat := if i.sources.length = 2 then 11 else 15

/-- What a row's `mask` and `match` test: the opcode and the bits marked zero, nothing else (30_encoding.md R64). -/
theorem row_matches_iff :
    w &&& i.row.2.2 = i.row.2.1 ↔ bits w 31 24 = i.row.1 ∧ bits w (zeroTop i) 0 = 0 := by
  cases i
  case finv | fsqr | fred | fdbl | fneg | pdbl | pneg | ptpl => exact maskR2_iff rfl
  case fmul | mmul | fadd | fsub | mulx | subx | padd | psub | pdbladd => exact maskR3_iff rfl

/-- The decoder reads a command only from a word with the command's opcode. -/
theorem opcode_of_decode (decoded : decode w = .ok i) : bits w 31 24 = i.row.1 := by
  unfold decode at decoded
  split at decoded
  case h_1 op | h_4 op | h_5 op | h_8 op | h_9 op | h_13 op | h_14 op | h_16 op =>
    obtain ⟨-, rfl, -⟩ := decodeR2_ok.1 decoded
    exact op
  case h_2 op | h_3 op | h_6 op | h_7 op | h_10 op | h_11 op | h_12 op | h_15 op | h_17 op =>
    obtain ⟨-, rfl, -⟩ := decodeR3_ok.1 decoded
    exact op
  case h_18 => cases decoded

/-- Under the command's opcode the decoder has the checks of 30_encoding.md R72 left: the zero bits, then the indexes. -/
theorem decode_iff_of_opcode (op : bits w 31 24 = i.row.1) :
    decode w = .ok i ↔ bits w (zeroTop i) 0 = 0 ∧ i.hasOperandsOf w ∧ i.wf = true := by
  cases i <;> simp only [Instr.row] at op
  case finv | fsqr | fred | fdbl | fneg | pdbl | pneg | ptpl =>
    simp [decode, op, decodeR2_ok, zeroTop, Instr.hasOperandsOf, Instr.destination, Instr.sources, and_assoc]
  case fmul | mmul | fadd | fsub | mulx | subx | padd | psub | pdbladd =>
    simp [decode, op, decodeR3_ok, zeroTop, Instr.hasOperandsOf, Instr.destination, Instr.sources, and_assoc]

/-- The decoder is the opcode map read as a table (30_encoding.md R64). -/
theorem decode_iff_row_matches :
    decode w = .ok i ↔ w &&& i.row.2.2 = i.row.2.1 ∧ i.hasOperandsOf w ∧ i.wf = true := by
  constructor
  · intro decoded
    have op := opcode_of_decode decoded
    obtain ⟨zero, checked⟩ := (decode_iff_of_opcode op).1 decoded
    exact ⟨row_matches_iff.2 ⟨op, zero⟩, checked⟩
  · rintro ⟨matched, checked⟩
    obtain ⟨op, zero⟩ := row_matches_iff.1 matched
    exact (decode_iff_of_opcode op).2 ⟨zero, checked⟩

end Rows

/-- Settles O2: the decoder is the opcode map, and a row's mask and match test its opcode. -/
theorem wordIsCommandIffRowMatches : Obligations.WordIsCommandIffRowMatches :=
  fun _ _ => ⟨decode_iff_row_matches, fun matched => (row_matches_iff.1 matched).1⟩

/-! ### The encoder and the decoder -/

/-- `MatchMask.Statement` for all commands: the word of a legal command lies in its row and carries its operands. -/
theorem encode_row_matches (i : Instr) : MatchMask.Statement i := by
  cases i with
  | finv d a => exact MatchMask.finv d a
  | fmul d a b => exact MatchMask.fmul d a b
  | mmul d a b => exact MatchMask.mmul d a b
  | fsqr d a => exact MatchMask.fsqr d a
  | fred d a => exact MatchMask.fred d a
  | fadd d a b => exact MatchMask.fadd d a b
  | fsub d a b => exact MatchMask.fsub d a b
  | fdbl d a => exact MatchMask.fdbl d a
  | fneg d a => exact MatchMask.fneg d a
  | mulx d a b => exact MatchMask.mulx d a b
  | subx d a b => exact MatchMask.subx d a b
  | padd d a b => exact MatchMask.padd d a b
  | pdbl d a => exact MatchMask.pdbl d a
  | pneg d a => exact MatchMask.pneg d a
  | psub d a b => exact MatchMask.psub d a b
  | ptpl d a => exact MatchMask.ptpl d a
  | pdbladd d a b => exact MatchMask.pdbladd d a b

theorem decode_encode {i : Instr} (wf : i.wf = true) : decode (encode i) = .ok i := by
  obtain ⟨matched, operands⟩ := encode_row_matches i wf
  exact decode_iff_row_matches.2 ⟨matched, operands, wf⟩

/-- Settles O1: the word of the command lies in its row of the opcode map with its operands, and the decoder is that map. -/
theorem decodeOfEncodeIsTheCommand : Obligations.DecodeOfEncodeIsTheCommand := fun _ => decode_encode

/-- The encoder puts the opcode and the operands into the fields, 0 where a format R2 command has no `rs2`
(30_encoding.md R65). -/
theorem encode_eq_encodeR3 (i : Instr) :
    encode i = encodeR3 i.row.1 i.destination.index ((i.sources.map Register.index)[0]?.getD 0)
      ((i.sources.map Register.index)[1]?.getD 0) := by
  cases i <;> rfl

/-- No bit of a word is lost when a command is read from it. -/
theorem encode_of_decode {w : Word} {i : Instr} (decoded : decode w = .ok i) : encode i = w := by
  have op := opcode_of_decode decoded
  obtain ⟨zero, ⟨destination, sources⟩, -⟩ := (decode_iff_of_opcode op).1 decoded
  rw [encode_eq_encodeR3, ← op, destination, sources]
  cases i
  case finv | fsqr | fred | fdbl | fneg | pdbl | pneg | ptpl => exact (eq_encodeR2 zero).symm
  case fmul | mmul | fadd | fsub | mulx | subx | padd | psub | pdbladd => exact (eq_encodeR3 zero).symm

/-- Settles O3: the sum is the encoder's own, and each example word is the encoding of the command R65 names. -/
theorem commandWordIsTheSumOfItsFields : Obligations.CommandWordIsTheSumOfItsFields :=
  ⟨encode_eq_encodeR3, decode_encode (i := .fmul 2 0 1) rfl, decode_encode (i := .finv 3 2) rfl,
    decode_encode (i := .padd 2 0 1) rfl, decode_encode (i := .pdbl 1 0) rfl,
    decode_encode (i := .mulx 1 4 5) rfl, decode_encode (i := .fred 7 3) rfl⟩

/-! ### Illegal words -/

section IllegalWords

variable {w : Word}

/-- Every opcode of the map has a command, which can have the operands of the word. -/
theorem exists_command_of_opcode {classes : RegFile × List RegFile}
    (known : opcodeClasses (bits w 31 24) = some classes) :
    ∃ i : Instr, bits w 31 24 = i.row.1 ∧ i.hasOperandsOf w := by
  unfold opcodeClasses at known
  split at known
  case h_1 op => exact ⟨.finv _ _, op, rfl, rfl⟩
  case h_2 op => exact ⟨.fmul _ _ _, op, rfl, rfl⟩
  case h_3 op => exact ⟨.mmul _ _ _, op, rfl, rfl⟩
  case h_4 op => exact ⟨.fsqr _ _, op, rfl, rfl⟩
  case h_5 op => exact ⟨.fred _ _, op, rfl, rfl⟩
  case h_6 op => exact ⟨.fadd _ _ _, op, rfl, rfl⟩
  case h_7 op => exact ⟨.fsub _ _ _, op, rfl, rfl⟩
  case h_8 op => exact ⟨.fdbl _ _, op, rfl, rfl⟩
  case h_9 op => exact ⟨.fneg _ _, op, rfl, rfl⟩
  case h_10 op => exact ⟨.mulx _ _ _, op, rfl, rfl⟩
  case h_11 op => exact ⟨.subx _ _ _, op, rfl, rfl⟩
  case h_12 op => exact ⟨.padd _ _ _, op, rfl, rfl⟩
  case h_13 op => exact ⟨.pdbl _ _, op, rfl, rfl⟩
  case h_14 op => exact ⟨.pneg _ _, op, rfl, rfl⟩
  case h_15 op => exact ⟨.psub _ _ _, op, rfl, rfl⟩
  case h_16 op => exact ⟨.ptpl _ _, op, rfl, rfl⟩
  case h_17 op => exact ⟨.pdbladd _ _ _, op, rfl, rfl⟩
  case h_18 => cases known

/-- Legal indexes are those below the sizes of the operands' files (30_encoding.md R62). -/
theorem wf_iff_lt_size (i : Instr) :
    i.wf = true ↔ i.destination.index < i.destination.file.size ∧ ∀ r ∈ i.sources, r.index < r.file.size := by
  cases i <;> simp [Instr.wf, Instr.destination, Instr.sources, RegFile.size, and_assoc]

theorem opcodeClasses_row (i : Instr) :
    opcodeClasses i.row.1 = some (i.destination.file, i.sources.map Register.file) := by
  cases i <;> rfl

theorem sources_one_or_two (i : Instr) : (∃ a, i.sources = [a]) ∨ ∃ a b, i.sources = [a, b] := by
  cases i <;> simp [Instr.sources]

/-- Cases (b) and (c) of 30_encoding.md R66, for a word that has the opcode and the operands of a command. -/
theorem legalWord_iff_of_operands {i : Instr} (op : bits w 31 24 = i.row.1) (operands : i.hasOperandsOf w) :
    illegalWord w = false ↔ bits w (zeroTop i) 0 = 0 ∧ i.wf = true := by
  obtain ⟨destination, sources⟩ := operands
  rw [wf_iff_lt_size, destination]
  rcases sources_one_or_two i with ⟨a, one⟩ | ⟨a, b, two⟩
  · have rs1 : a.index = bits w 19 16 := by simpa [one] using sources
    simp [illegalWord, op, opcodeClasses_row, zeroTop, one, rs1, and_assoc]
  · have ⟨rs1, rs2⟩ : a.index = bits w 19 16 ∧ b.index = bits w 15 12 := by simpa [two] using sources
    simp [illegalWord, op, opcodeClasses_row, zeroTop, two, rs1, rs2, and_assoc]

/-- The words that are not illegal by 30_encoding.md R66 are the words of commands (R67). -/
theorem legalWord_iff_decodes : illegalWord w = false ↔ ∃ i, decode w = .ok i := by
  constructor
  · intro legal
    cases known : opcodeClasses (bits w 31 24) with
    | none => simp [illegalWord, known] at legal
    | some classes =>
      obtain ⟨i, op, operands⟩ := exists_command_of_opcode known
      obtain ⟨zero, wf⟩ := (legalWord_iff_of_operands op operands).1 legal
      exact ⟨i, (decode_iff_of_opcode op).2 ⟨zero, operands, wf⟩⟩
  · rintro ⟨i, decoded⟩
    have op := opcode_of_decode decoded
    obtain ⟨zero, operands, wf⟩ := (decode_iff_of_opcode op).1 decoded
    exact (legalWord_iff_of_operands op operands).2 ⟨zero, wf⟩

end IllegalWords

/-- Settles O4: the write reaches `CMD`; an illegal word decodes to nothing, any other to the command it encodes. -/
theorem everyWordIsACommandOrIllegal : Obligations.EveryWordIsACommandOrIllegal := by
  intro s w rest pending noFault
  constructor
  · intro illegal
    have undecodable (i : Instr) : decode w ≠ .ok i := fun decoded =>
      Bool.false_ne_true ((legalWord_iff_decodes.2 ⟨i, decoded⟩).symm.trans illegal)
    exact (step_writeCmd pending).trans (takeCommand_illegal noFault undecodable)
  · intro legal
    obtain ⟨i, decoded⟩ := legalWord_iff_decodes.1 legal
    obtain ⟨-, -, wf⟩ := decode_iff_row_matches.1 decoded
    exact ⟨i, wf, encode_of_decode decoded, stepRunsTheDecodedCommand s w rest i pending noFault decoded⟩

/-! ### Commands with an illegal index -/

section IllegalIndexes

variable {s : State} {α β γ δ : Type}

/-- The operand check `index` answers the register of a legal index and `ILLEGAL_CMD` for any other. -/
def ChecksIndex (index : Nat → Except Stop α) (legal : Nat → Bool) : Prop :=
  ∀ i, (legal i = true ∧ ∃ j, index i = .ok j) ∨ (legal i = false ∧ index i = .error (.raise .illegalCmd))

theorem fieldIndex_checksIndex : ChecksIndex fieldIndex legalField := by
  intro i
  by_cases lt : i < 8 <;> simp [fieldIndex, legalField, lt]

theorem extIndex_checksIndex : ChecksIndex extIndex legalExt := by
  intro i
  by_cases lt : i < 4 <;> simp [extIndex, legalExt, lt]

theorem pointIndex_checksIndex : ChecksIndex pointIndex legalPoint := by
  intro i
  by_cases lt : i < 4 <;> simp [pointIndex, legalPoint, lt]

/-- One index check after another: an illegal index stops at the first check it fails, in either place. -/
theorem twoIndexes_illegal {index₁ : Nat → Except Stop α} {index₂ : Nat → Except Stop β} {legal₁ legal₂ : Nat → Bool}
    (checks₁ : ChecksIndex index₁ legal₁) (checks₂ : ChecksIndex index₂ legal₂) {i j : Nat}
    {rest : α → β → Except Stop γ} (illegal : (legal₁ i && legal₂ j) = false) :
    (do let a ← index₁ i; let b ← index₂ j; rest a b) = .error (.raise .illegalCmd) := by
  rcases checks₁ i with ⟨ok, a, eq⟩ | ⟨-, eq⟩
  · rcases checks₂ j with ⟨ok', -⟩ | ⟨-, eq'⟩
    · simp [ok, ok'] at illegal
    · rw [eq, eq']; rfl
  · rw [eq]; rfl

theorem threeIndexes_illegal {index₁ : Nat → Except Stop α} {index₂ : Nat → Except Stop β}
    {index₃ : Nat → Except Stop γ} {legal₁ legal₂ legal₃ : Nat → Bool} (checks₁ : ChecksIndex index₁ legal₁)
    (checks₂ : ChecksIndex index₂ legal₂) (checks₃ : ChecksIndex index₃ legal₃) {i j k : Nat}
    {rest : α → β → γ → Except Stop δ} (illegal : (legal₁ i && legal₂ j && legal₃ k) = false) :
    (do let a ← index₁ i; let b ← index₂ j; let c ← index₃ k; rest a b c) = .error (.raise .illegalCmd) := by
  rcases checks₁ i with ⟨ok, a, eq⟩ | ⟨-, eq⟩
  · rw [eq]
    exact twoIndexes_illegal checks₂ checks₃ (by simpa [ok] using illegal)
  · rw [eq]; rfl

theorem toField_raise {x : Except Stop (Fin 8 × α)} {f : α → Except Stop Nat} {c : Cause} (raised : x = .error (.raise c)) :
    toField s x f = .next (s.raiseFault c) := conclude_raise (by rw [raised]; rfl)

theorem toExt_raise {x : Except Stop (Fin 4 × α)} {f : α → Nat} {c : Cause} (raised : x = .error (.raise c)) :
    toExt s x f = .next (s.raiseFault c) := conclude_raise (by rw [raised]; rfl)

theorem toPoint_raise {x : Except Stop (Fin 4 × α)} {f : α → Point} {c : Cause} (raised : x = .error (.raise c)) :
    toPoint s x f = .next (s.raiseFault c) := conclude_raise (by rw [raised]; rfl)

/-- The indexes are what a command checks first, before `P` and its sources (60_exceptions.md R173). -/
theorem exec_illegalIndex {i : Instr} (illFormed : i.wf = false) : exec i s = .next (s.raiseFault .illegalCmd) := by
  have field := fieldIndex_checksIndex
  have ext := extIndex_checksIndex
  have point := pointIndex_checksIndex
  cases i <;> simp only [exec, execFinv, execFmul, execMmul, execFsqr, execFred, execFadd, execFsub, execFdbl, execFneg,
    execMulx, execSubx, execPadd, execPdbl, execPneg, execPsub, execPtpl, execPdbladd]
  case finv | fsqr | fdbl | fneg => exact toField_raise (twoIndexes_illegal field field illFormed)
  case fred => exact toField_raise (twoIndexes_illegal field ext illFormed)
  case fmul | mmul | fadd | fsub => exact toField_raise (threeIndexes_illegal field field field illFormed)
  case mulx => exact toExt_raise (threeIndexes_illegal ext field field illFormed)
  case subx => exact toExt_raise (threeIndexes_illegal ext ext ext illFormed)
  case pdbl | pneg | ptpl => exact toPoint_raise (twoIndexes_illegal point point illFormed)
  case padd | psub | pdbladd => exact toPoint_raise (threeIndexes_illegal point point point illFormed)

end IllegalIndexes

/-- Settles O15: the command stops at its index checks, and the fault entry is the record the statement writes out. -/
theorem illFormedCommandRaisesIllegalCmd : Obligations.IllFormedCommandRaisesIllegalCmd :=
  fun _ _ => exec_illegalIndex

end Sys2Proof.Proofs
end

section
/-! SUPPORT. What a legal command does in every state, said once: the checks of 60_exceptions.md R173 decide whether it
is refused, records a fault, or completes. From this, that a step always has a next state and never records cause 6. -/

namespace Sys2Proof.Proofs

open Sys2Proof.Machine Sys2Proof.Laws

section Outcome

/-! ### The outcome of a command -/

variable {s : State} {i : Instr} {α : Type}

/-- The ways a legal command can end, each with what `firstFailedCheck` says of it. -/
inductive CommandOutcome (s : State) (i : Instr) : Prop
  /-- The spec leaves the command undefined (00_scope.md R8). -/
  | refused (bad : BadModulus s) (executed : exec i s = .refused .modulusNotOddPrime)
  /-- A check fails, and its cause is recorded (60_exceptions.md R174). -/
  | faults (c : Cause) (failed : s.firstFailedCheck i = some c) (executed : exec i s = .next (s.raiseFault c))
  /-- Every check passes, and the command completes (30_encoding.md R72). -/
  | completes (t : State) (passed : s.firstFailedCheck i = none) (status : t.status = { s.status with done := true })
      (fcmd : t.fcmd = s.fcmd) (executed : exec i s = .next t)

/-- Steps 2 to 4 of R173 decide an operand list as they decide the first failing check; step 5 is FINV's own. -/
theorem checked_cases {x : Except Stop α} (checked : Checked s i.sources x) :
    (BadModulus s ∧ x = .error (.refuse .modulusNotOddPrime)) ∨
      (∃ c, s.firstFailedCheck i = some c ∧ x = .error (.raise c)) ∨
        ∃ v, x = .ok v ∧ s.firstFailedCheck i = if s.invertsZero i then some .invZero else none := by
  unfold State.firstFailedCheck
  rcases checked with ⟨none, rfl⟩ | ⟨p, hp, ⟨bad, rfl⟩ | ⟨-, sources⟩⟩
  · exact .inr (.inl ⟨.uninit, by rw [none], rfl⟩)
  · exact .inl ⟨⟨p, hp, bad⟩, rfl⟩
  · rw [hp]
    rcases sources with ⟨c, unheld, rfl⟩ | ⟨allHeld, outside, rfl⟩ | ⟨allHeld, inside, v, rfl⟩
    · exact .inr (.inl ⟨c, by simp only [unheld], rfl⟩)
    · exact .inr (.inl ⟨.operandRange, by simp only [allHeld, outside, if_true], rfl⟩)
    · exact .inr (.inr ⟨v, rfl, by simp only [allHeld, inside, Bool.false_eq_true, if_false]⟩)

/-- A command is its operand list and then its result, which step 5 of R173 alone can still stop. -/
theorem commandOutcome_of_checked {x : Except Stop α} {f : α → Except Stop State} (checked : Checked s i.sources x)
    (executed : exec i s = conclude s (x >>= f))
    (result : ∀ v, x = .ok v →
      (s.invertsZero i = true ∧ f v = .error (.raise .invZero)) ∨
        (s.invertsZero i = false ∧
          (s.firstFailedCheck i = none → ∃ u, f v = .ok u ∧ u.status = s.status ∧ u.fcmd = s.fcmd))) :
    CommandOutcome s i := by
  rcases checked_cases checked with ⟨bad, rfl⟩ | ⟨c, failed, rfl⟩ | ⟨v, rfl, check⟩
  · exact .refused bad executed
  · exact .faults c failed executed
  · rcases result v rfl with ⟨zero, stops⟩ | ⟨nonzero, ends⟩
    · refine .faults .invZero ?_ (executed.trans (conclude_raise stops))
      rw [check, if_pos zero]
    · have passed : s.firstFailedCheck i = none := by rw [check, nonzero]; rfl
      obtain ⟨u, ends, status, fcmd⟩ := ends passed
      exact .completes u.complete passed (by rw [complete_status, status]) fcmd (executed.trans (conclude_ok ends))

/-! The commands but FINV: their result is computed whatever their operands. -/

variable (noZero : s.invertsZero i = false)
include noZero

theorem toField_outcome {x : Except Stop (Fin 8 × α)} {f : α → Except Stop Nat} (checked : Checked s i.sources x)
    (executed : exec i s = toField s x f) (total : ∀ a, ∃ z, f a = .ok z) : CommandOutcome s i := by
  refine commandOutcome_of_checked checked executed fun ⟨d, a⟩ _ => .inr ⟨noZero, fun _ => ?_⟩
  obtain ⟨z, hz⟩ := total a
  exact ⟨s.writeField d z, by simp only [hz]; rfl, rfl, rfl⟩

theorem toExt_outcome {x : Except Stop (Fin 4 × α)} {f : α → Nat} (checked : Checked s i.sources x)
    (executed : exec i s = toExt s x f) : CommandOutcome s i :=
  commandOutcome_of_checked checked executed fun _ _ => .inr ⟨noZero, fun _ => ⟨_, rfl, rfl, rfl⟩⟩

theorem toPoint_outcome {x : Except Stop (Fin 4 × α)} {f : α → Point} (checked : Checked s i.sources x)
    (executed : exec i s = toPoint s x f) : CommandOutcome s i :=
  commandOutcome_of_checked checked executed fun _ _ => .inr ⟨noZero, fun _ => ⟨_, rfl, rfl, rfl⟩⟩

end Outcome

section Inverse

/-! ### FINV: `invert` answers, so only its check for 0 stops it -/

variable {s : State} {p x : Nat}

theorem operandsFF_ok {d a e : Fin 8} (h : operandsFF s d a = .ok (e, p, x)) :
    s.ModulusIs p ∧ valueOf s.f[a] = some x ∧ x < p := by
  obtain ⟨_, -, h⟩ := bind_ok h
  obtain ⟨b, index, h⟩ := bind_ok h
  obtain ⟨q, modulus_eq, h⟩ := bind_ok h
  obtain ⟨y, read, h⟩ := bind_ok h
  obtain ⟨_, inRange, h⟩ := bind_ok h
  cases h
  obtain rfl : a = b := Fin.ext (fieldIndex_ok.1 index)
  exact ⟨modulus_ok.1 modulus_eq, held_ok.1 read, below_ok.1 inRange⟩

theorem invertsZero_finv {d a : Fin 8} (held : valueOf s.f[a] = some x) :
    s.invertsZero (.finv d a) = natIsZero x := by
  rw [Fin.getElem_fin] at held
  simp [State.invertsZero, natIsZero, held]

/-- Under an odd prime `p` the inversion of an `x` in `[1, p - 1]` ends in its inverse (40_modular_inversion.md R81). -/
theorem invert_inverse {len : Nat} (prime : p.Prime) (odd : p ≠ 2) (bound : p < wordsBound len) (pos : 0 < x)
    (lt : x < p) : ∃ z, invert len p x = .ok z ∧ 1 ≤ z ∧ z < p ∧ z * x % p = 1 :=
  invert_ok (prime.eq_two_or_odd.resolve_left odd) prime.one_lt bound pos lt
    (Nat.coprime_of_lt_prime pos.ne' lt prime).symm

theorem finv_outcome {d a : Fin 8} (shaped : s.firstFailedCheck (.finv d a) = none → s.Shaped) :
    CommandOutcome s (.finv d a) := by
  refine commandOutcome_of_checked (operandsFF_checked s d a) rfl fun ⟨e, p, x⟩ operands => ?_
  obtain ⟨modulus, held, lt⟩ := operandsFF_ok operands
  rw [invertsZero_finv held]
  cases zero : natIsZero x with
  | true => exact .inl ⟨rfl, by simp only [zero]; rfl⟩
  | false =>
    have pos : 0 < x := Nat.pos_of_ne_zero fun eq => by simp [eq, natIsZero] at zero
    refine .inr ⟨rfl, fun passed => ?_⟩
    obtain ⟨z, inverts, -⟩ :=
      invert_inverse modulus.2.1 modulus.2.2 (modulus_lt_wordsBound (shaped passed) modulus) pos lt
    exact ⟨s.writeField e z, by simp only [zero, inverts]; rfl, rfl, rfl⟩

end Inverse

section AllCommands

variable {s t : State} {i : Instr}

/-- Every legal command is refused, faults or completes, as its checks say; none ends in another way. The sizes of the
registers matter only where every check passes: with them the inversion ends. -/
theorem commandOutcome (shaped : s.firstFailedCheck i = none → s.Shaped) (wf : i.wf = true) : CommandOutcome s i := by
  cases i <;> simp only [Instr.wf, Bool.and_eq_true, legalField_iff, legalExt_iff, legalPoint_iff] at wf
  case finv d a =>
    obtain ⟨hd, ha⟩ := wf
    exact finv_outcome (d := ⟨d, hd⟩) (a := ⟨a, ha⟩) shaped
  case fsqr d a | fdbl d a | fneg d a =>
    obtain ⟨hd, ha⟩ := wf
    refine toField_outcome rfl (operandsFF_checked s ⟨d, hd⟩ ⟨a, ha⟩) (by unfold exec; rfl) ?_
    exact fun _ => ⟨_, rfl⟩
  case fred d a =>
    obtain ⟨hd, ha⟩ := wf
    refine toField_outcome rfl (operandsFE_checked s ⟨d, hd⟩ ⟨a, ha⟩) (by unfold exec; rfl) ?_
    exact fun _ => ⟨_, rfl⟩
  case fmul d a b | mmul d a b | fadd d a b | fsub d a b =>
    obtain ⟨⟨hd, ha⟩, hb⟩ := wf
    refine toField_outcome rfl (operandsFFF_checked s ⟨d, hd⟩ ⟨a, ha⟩ ⟨b, hb⟩) (by unfold exec; rfl) ?_
    exact fun _ => ⟨_, rfl⟩
  case mulx d a b =>
    obtain ⟨⟨hd, ha⟩, hb⟩ := wf
    exact toExt_outcome rfl (operandsEFF_checked s ⟨d, hd⟩ ⟨a, ha⟩ ⟨b, hb⟩) (by unfold exec; rfl)
  case subx d a b =>
    obtain ⟨⟨hd, ha⟩, hb⟩ := wf
    exact toExt_outcome rfl (operandsEEE_checked s ⟨d, hd⟩ ⟨a, ha⟩ ⟨b, hb⟩) (by unfold exec; rfl)
  case pdbl d a | pneg d a | ptpl d a =>
    obtain ⟨hd, ha⟩ := wf
    exact toPoint_outcome rfl (operandsPP_checked s ⟨d, hd⟩ ⟨a, ha⟩) (by unfold exec; rfl)
  case padd d a b | psub d a b | pdbladd d a b =>
    obtain ⟨⟨hd, ha⟩, hb⟩ := wf
    exact toPoint_outcome rfl (operandsPPP_checked s ⟨d, hd⟩ ⟨a, ha⟩ ⟨b, hb⟩) (by unfold exec; rfl)

theorem not_badModulus (allowed : s.ModulusAllowed) : ¬BadModulus s := fun ⟨v, hv, bad⟩ => bad (allowed v hv)

/-- A legal command with a failing check records its cause (60_exceptions.md R173, R174). -/
theorem exec_faults {c : Cause} (allowed : s.ModulusAllowed) (wf : i.wf = true)
    (failed : s.firstFailedCheck i = some c) : exec i s = .next (s.raiseFault c) := by
  cases commandOutcome (fun passed => nomatch failed.symm.trans passed) wf with
  | refused bad _ => exact absurd bad (not_badModulus allowed)
  | faults c' failed' executed =>
    obtain rfl : c = c' := Option.some.inj (failed.symm.trans failed')
    exact executed
  | completes _ passed => cases failed.symm.trans passed

/-! ### The causes of the checks -/

theorem pointReg_unheld_cause {r : PointReg} {c : Cause} (unheld : r.unheld = some c) : c = .uninit ∨ c = .badTag := by
  unfold PointReg.unheld at unheld
  split at unheld
  · exact .inl (Option.some.inj unheld).symm
  split_ifs at unheld
  · exact .inr (Option.some.inj unheld).symm
  · exact .inl (Option.some.inj unheld).symm

/-- Step 3 of R173 fails with `UNINIT`, and for a point register also with `BAD_TAG`. -/
theorem unheld_cause {r : Register} {c : Cause} (unheld : s.unheld r = some c) :
    c = .uninit ∨ (r.file = .PT ∧ c = .badTag) := by
  obtain ⟨file, index⟩ := r
  cases file with
  | F =>
    obtain ⟨-, cause⟩ := Option.ite_none_right_eq_some.1 unheld
    exact .inl (Option.some.inj cause).symm
  | E =>
    obtain ⟨-, cause⟩ := Option.ite_none_right_eq_some.1 unheld
    exact .inl (Option.some.inj cause).symm
  | PT =>
    obtain ⟨q, -, unheld⟩ := Option.bind_eq_some_iff.1 unheld
    exact (pointReg_unheld_cause unheld).imp_right fun cause => ⟨rfl, cause⟩

/-- The causes the checks of R173 decide, and the commands they decide them for. -/
theorem firstFailedCheck_cause {c : Cause} (failed : s.firstFailedCheck i = some c) :
    c = .uninit ∨ ((∃ r ∈ i.sources, r.file = .PT) ∧ c = .badTag) ∨ c = .operandRange ∨
      (s.invertsZero i = true ∧ c = .invZero) := by
  unfold State.firstFailedCheck at failed
  split at failed
  · exact .inl (Option.some.inj failed).symm
  split at failed
  case h_1 unheld =>
    cases failed
    obtain ⟨r, source, unheld⟩ := List.exists_of_findSome?_eq_some unheld
    exact (unheld_cause unheld).imp_right fun ⟨file, cause⟩ => .inl ⟨⟨r, source, file⟩, cause⟩
  split_ifs at failed with range zero
  · exact .inr (.inr (.inl (Option.some.inj failed).symm))
  · exact .inr (.inr (.inr ⟨zero, (Option.some.inj failed).symm⟩))

/-! ### Cause 6 -/

theorem raiseFault_cause_ne_six {c : Cause} (other : c ≠ .internal) : (s.raiseFault c).status.cause ≠ 6 := by
  rw [raiseFault_status]
  cases c with
  | internal => exact absurd rfl other
  | _ => decide

/-- `INTERNAL` is the cause of no check (40_modular_inversion.md R90, 60_exceptions.md R183). -/
theorem firstFailedCheck_ne_internal : s.firstFailedCheck i ≠ some .internal := by
  intro failed
  rcases firstFailedCheck_cause failed with cause | ⟨-, cause⟩ | cause | ⟨-, cause⟩ <;> cases cause

/-- A command that begins without cause 6 does not record it. -/
theorem exec_cause_ne_six (shaped : s.Shaped) (before : s.status.cause ≠ 6) (executed : exec i s = .next t) :
    t.status.cause ≠ 6 := by
  cases wf : i.wf with
  | false =>
    obtain rfl := Host.Outcome.next.inj ((exec_illegalIndex wf).symm.trans executed)
    exact raiseFault_cause_ne_six nofun
  | true =>
    cases commandOutcome (fun _ => shaped) wf with
    | refused _ refused => cases refused.symm.trans executed
    | faults c failed faults =>
      obtain rfl := Host.Outcome.next.inj (faults.symm.trans executed)
      exact raiseFault_cause_ne_six fun internal => firstFailedCheck_ne_internal (internal ▸ failed)
    | completes u _ status _ completes =>
      obtain rfl := Host.Outcome.next.inj (completes.symm.trans executed)
      rwa [status]

theorem control_cause_ne_six {w : Word} (before : s.status.cause ≠ 6) : (Machine.control w s).status.cause ≠ 6 := by
  unfold Machine.control
  split
  · exact nofun
  split
  · exact nofun
  · exact before

end AllCommands

/-- Settles O20: by the cases of a step; a command records the cause of a failed check or of an illegal index only. -/
theorem internalIsNeverRecorded : Obligations.InternalIsNeverRecorded := by
  intro s t shaped h before
  cases step_cases h with
  | idle _ eq => exact eq ▸ before
  | read _ _ _ _ eq => exact eq ▸ before
  | rejected _ _ _ _ _ _ eq => exact eq ▸ before
  | dropped _ _ _ _ _ _ _ eq => exact eq ▸ before
  | illegal _ _ _ _ _ _ _ _ _ eq => exact eq ▸ raiseFault_cause_ne_six nofun
  | command _ _ w rest _ _ _ _ _ executed =>
    have shaped' : { taken s rest .ok with cmd := w }.Shaped := shaped
    exact exec_cause_ne_six shaped' before executed
  | control _ _ _ rest _ _ eq => exact eq ▸ control_cause_ne_six (s := taken s rest .ok) before
  | data _ _ _ rest _ _ _ eq =>
    rw [eq, setDataWord_status]
    exact before

/-! ### Every step has a next state -/

section Progress

variable {s : State}

/-- Under a modulus that the spec allows, a command goes on (70_reset_and_hazards.md R200). -/
theorem exec_answers (shaped : s.Shaped) (allowed : s.ModulusAllowed) (i : Instr) : ∃ t, exec i s = .next t := by
  cases wf : i.wf with
  | false => exact ⟨_, exec_illegalIndex wf⟩
  | true =>
    cases commandOutcome (fun _ => shaped) wf with
    | refused bad _ => exact absurd bad (not_badModulus allowed)
    | faults _ _ faults => exact ⟨_, faults⟩
    | completes _ _ _ _ completes => exact ⟨_, completes⟩

theorem takeCommand_answers_next (shaped : s.Shaped) (allowed : s.ModulusAllowed) (w : Word) :
    ∃ t, takeCommand w s = .next t := by
  unfold takeCommand
  split
  · exact ⟨_, rfl⟩
  split
  · exact ⟨_, rfl⟩
  · exact exec_answers (s := { s with cmd := w }) shaped allowed _

theorem memWrite_answers_next (shaped : s.Shaped) (allowed : s.ModulusAllowed) (addr size : Nat) (w : Word) :
    ∃ t, memWrite addr size w s = .next t := by
  unfold memWrite
  split
  case h_2 => exact takeCommand_answers_next (s := s.reply .ok) shaped allowed w
  all_goals exact ⟨_, rfl⟩

end Progress

/-- Settles O19: of all transactions only a write of `CMD` could fail to answer, and its command does not. -/
theorem everyStepAnswersANextState : Obligations.EveryStepAnswersANextState := by
  intro s shaped allowed
  unfold step nextTransaction
  split
  · exact ⟨_, rfl⟩
  next tx rest _ =>
    cases tx with
    | read addr size => exact ⟨_, rfl⟩
    | write addr size w => exact memWrite_answers_next (s := { s with pending := rest }) shaped allowed addr size w

end Sys2Proof.Proofs
end

section
/-! SUPPORT. Proofs of the statements on 40_modular_inversion.md: `odd_reduce` (R83), the start and the end of the
inversion (R84, R86), a turn of its main loop (R85, R87), and FINV (R80, R81). -/

namespace Sys2Proof.Proofs

open Sys2Proof.Machine Sys2Proof.Laws

variable {len p x : Nat}

theorem len_pos_of_lt_wordsBound (pos : 0 < p) (bound : p < wordsBound len) : 0 < len := by
  by_contra zero
  obtain rfl : len = 0 := by omega
  rw [wordsBound, Nat.mul_zero, pow_zero] at bound
  omega

/-- Settles O31: the law of `odd_reduce`, with the tracked integers written as signed values. -/
theorem oddReductionHalvesModuloP : Obligations.OddReductionHalvesModuloP := by
  intro len p u uLen t tc odd bound pos small low counter lower upper
  have len_pos : 0 < len := len_pos_of_lt_wordsBound (by omega) bound
  obtain ⟨u', t', tc', T', count, reduced, prod, u_odd, tracks, cong, lower', upper', -⟩ :=
    oddReduce_ok len_pos odd bound pos small (tracks_signedValue low counter) lower upper
  obtain rfl := tracks.signedValue_eq
  exact ⟨u', t', tc', count, reduced, prod, u_odd, tracks.low, tracks.counter, cong, lower', upper'⟩

/-! ### The start of the inversion (40_modular_inversion.md R84) -/

/-- The initial reduction establishes the invariant of R87: `A` is 1 divided modulo `p` by the power of two in `x`. -/
theorem initialReduction_invariant (odd : p % 2 = 1) (two_lt : 2 < p) (bound : p < wordsBound len) (pos : 0 < x)
    (lt : x < p) (coprime : Nat.Coprime x p) :
    ∃ u a ac, initialReduction len p x = .ok (u, a, ac) ∧ InversionInvariant len p x u a ac p 0 0 ∧
      (x % 2 = 1 → u = x ∧ a = 1 ∧ ac = 0) := by
  have len_pos : 0 < len := len_pos_of_lt_wordsBound (by omega) bound
  have zero : signedValue len 0 0 = 0 := by simp [signedValue]
  have invariant {u a : Nat} {ac A : Int} (le : u ≤ x) (u_odd : u % 2 = 1) (dvd : u ∣ x) (ha : Tracks len a ac A)
      (tight : -(p : Int) < 2 * A ∧ 2 * A < p) (Ax : A * x ≡ u [ZMOD p]) :
      InversionInvariant len p x u a ac p 0 0 := by
    obtain rfl := ha.signedValue_eq
    refine ⟨⟨by omega, ha.low, bound, by positivity⟩, ⟨Ax, ?_⟩, ⟨u_odd, odd, coprime.coprime_dvd_left dvd⟩,
      ⟨tight, by rw [zero]; omega⟩, ha.counter, .inl rfl⟩
    rw [zero]
    simp [Int.ModEq]
  have start : Tracks len 1 0 1 := ⟨by omega, .inl rfl, by simp⟩
  unfold initialReduction
  split
  · rename_i even
    obtain ⟨u, a, ac, A, count, reduced, prod, u_odd, ha, cong, -, -, tight⟩ :=
      oddReduce_ok (uLen := len) len_pos odd bound pos (by omega) start (by omega) (by omega)
    refine ⟨u, a, ac, reduced, invariant ?_ u_odd ⟨_, prod⟩ ha (tight even) ?_, by omega⟩
    · exact Nat.le_of_dvd pos ⟨_, prod⟩
    · refine cancel_pow_two (c := count) odd ?_
      calc (2 : Int) ^ count * (A * x) = 2 ^ count * A * x := by ring
        _ ≡ 1 * x [ZMOD p] := cong.mul_right _
        _ = 2 ^ count * (u : Int) := by rw [prod]; push_cast; ring
  · exact ⟨x, 1, 0, rfl, invariant le_rfl (by omega) dvd_rfl start (by omega) (by rw [one_mul]),
      fun _ => ⟨rfl, rfl, rfl⟩⟩

/-- After the initial reduction: the early test, and else the main loop. -/
theorem invert_eq {u a : Nat} {ac : Int} (ne_one : x ≠ 1) (reduced : initialReduction len p x = .ok (u, a, ac)) :
    invert len p x =
      if u = 1 then .ok (finalise len p a ac) else inversionLoop len p (64 * len) u a ac p 0 0 len := by
  rw [invert, if_neg ne_one, reduced]
  simp only [bind, Except.bind, natIsOne_iff]
  rfl

/-! ### The end of the inversion (40_modular_inversion.md R86) -/

/-- `finalise` adds the modulus to a negative value, which the counter says it is. -/
theorem finalise_eq {t : Nat} {tc T : Int} (bound : p < wordsBound len) (h : Tracks len t tc T)
    (lower : -(p : Int) < T) : (finalise len p t tc : Int) = if tc < 0 then T + p else T := by
  have value := h.eq
  unfold finalise
  split
  · rename_i negative
    obtain rfl : tc = -1 := by rcases h.counter with rfl | rfl <;> omega
    have carries : t + p = (t + p - wordsBound len) + wordsBound len := by omega
    have sum : (natAdd len t p).1 = t + p - wordsBound len := by
      have := h.low
      rw [natAdd, carries, Nat.add_mod_right, Nat.mod_eq_of_lt (by omega)]
      omega
    rw [sum]
    omega
  · rename_i nonnegative
    obtain rfl : tc = 0 := by rcases h.counter with rfl | rfl <;> omega
    omega

/-- Settles O32: the initial reduction, the equation of `invert`, and the two laws of `finalise`. -/
theorem inversionStartsAndEndsAsTheRulesSay : Obligations.InversionStartsAndEndsAsTheRulesSay := by
  intro len p x prime ne_two bound pos lt
  have odd : p % 2 = 1 := prime.eq_two_or_odd.resolve_left ne_two
  have two_le := prime.two_le
  refine ⟨fun one => by rw [invert, if_pos one], fun ne_one => ?_, fun t tc low counter lower upper inverse => ?_⟩
  · obtain ⟨u, a, ac, reduced, invariant, unchanged⟩ := initialReduction_invariant odd (by omega) bound pos lt
      (Nat.coprime_of_lt_prime pos.ne' lt prime).symm
    exact ⟨u, a, ac, reduced, invariant, unchanged, invert_eq ne_one reduced⟩
  · have tracks := tracks_signedValue low counter
    obtain ⟨one_le, below, final⟩ := finalise_spec prime.one_lt bound tracks lower upper inverse
    exact ⟨finalise_eq bound tracks lower, one_le, by omega, final⟩

/-! ### A turn of the main loop (40_modular_inversion.md R85, R87) -/

section Turn

variable {u a v b n : Nat} {ac bc : Int}

theorem shrink_le (u v n : Nat) : shrink u v n ≤ n := by
  fun_induction shrink u v n with
  | case1 | case2 | case4 => exact le_rfl
  | case3 n _ ih => omega

theorem natSub_fst_of_le (le : v ≤ u) (small : u < wordsBound len) : (natSub len u v).1 = u - v := by
  have small' : (u : Int) < wordsBound len := by exact_mod_cast small
  have residue : ((u : Int) - v) % wordsBound len = u - v := Int.emod_eq_of_lt (by omega) (by omega)
  rw [natSub, residue]
  omega

/-- The pair the subtraction of a turn leaves stands for the difference; its counter is legal (R87 (iv)). -/
theorem tracks_sub {A B : Int} (bound : p < wordsBound len) (ha : Tracks len a ac A) (hb : Tracks len b bc B)
    (lower : -(p : Int) < A - B) (upper : A - B < p) :
    Tracks len (natSub len a b).1 (ac + (natSub len a b).2 - bc) (A - B) := by
  have bound' : (p : Int) < wordsBound len := by exact_mod_cast bound
  obtain ⟨low, eq⟩ := natSub_eq ha.low hb.low
  refine tracks_of_range low ?_ (by omega) (by omega)
  rw [ha.eq, hb.eq]
  linarith

theorem inversionInvariant_symm (h : InversionInvariant len p x u a ac v b bc) :
    InversionInvariant len p x v b bc u a ac := by
  obtain ⟨⟨hu, ha, hv, hb⟩, ⟨Ax, Bx⟩, ⟨u_odd, v_odd, coprime⟩, ⟨A_range, B_range⟩, counter_a, counter_b⟩ := h
  exact ⟨⟨hv, hb, hu, ha⟩, ⟨Bx, Ax⟩, ⟨v_odd, u_odd, coprime.symm⟩, ⟨B_range, A_range⟩, counter_b, counter_a⟩

/-- A turn on the side of the larger `u`: the reduced difference takes the place of `u`, and the invariant holds
again. -/
theorem turn_keeps_invariant (odd : p % 2 = 1) (bound : p < wordsBound len)
    (inv : InversionInvariant len p x u a ac v b bc) (less : v < u) (active : u < wordsBound n) :
    LegalCounter (ac + (natSub len a b).2 - bc) ∧
      ∃ u' a' ac', oddReduce len p (u - v) n (natSub len a b).1 (ac + (natSub len a b).2 - bc) = .ok (u', a', ac') ∧
        InversionInvariant len p x u' a' ac' v b bc ∧ u' < u ∧ ∃ count, u - v = u' * 2 ^ count := by
  obtain ⟨⟨hu, low_a, hv, low_b⟩, ⟨Ax, Bx⟩, ⟨u_odd, v_odd, coprime⟩, ⟨A_range, B_range⟩, counter_a, counter_b⟩ := inv
  have len_pos : 0 < len := len_pos_of_lt_wordsBound (by omega) bound
  have ha := tracks_signedValue low_a counter_a
  have hb := tracks_signedValue low_b counter_b
  have difference := tracks_sub bound ha hb (by omega) (by omega)
  obtain ⟨u', a', ac', A', reduced, u'_odd, smaller, coprime', ha', A'_range, Ax'⟩ :=
    turn_ok (x := x) (uLen := n) len_pos odd bound less (by omega) u_odd v_odd hu active coprime ha hb A_range B_range
      Ax Bx
  rw [natSub_fst_of_le less.le hu] at reduced
  obtain rfl := ha'.signedValue_eq
  refine ⟨difference.counter, u', a', ac', reduced, ?_, by omega, ?_⟩
  · exact ⟨⟨by omega, ha'.low, hv, low_b⟩, ⟨Ax', Bx⟩, ⟨u'_odd, v_odd, coprime'⟩, ⟨A'_range, B_range⟩, ha'.counter,
      counter_b⟩
  · obtain ⟨_, _, _, _, count, reduced', prod, -⟩ :=
      oddReduce_ok (u := u - v) (uLen := n) len_pos odd bound (by omega) (by omega) difference (by omega) (by omega)
    cases reduced.symm.trans reduced'
    exact ⟨count, prod⟩

/-- The loop from the side of `u`, once its reduction is known. -/
theorem inversionLoop_of_ge {turns u' a' : Nat} {ac' : Int} (ge : v ≤ u) (hu : u < wordsBound len)
    (reduced : oddReduce len p (u - v) (shrink u v n) (natSub len a b).1 (ac + (natSub len a b).2 - bc) =
      .ok (u', a', ac')) :
    inversionLoop len p (turns + 1) u a ac v b bc n =
      if u' = 1 then .ok (finalise len p a' ac')
      else inversionLoop len p turns u' a' ac' v b bc (shrink u v n) := by
  simp only [inversionLoop, natGte_iff, ge, if_true, natSub_fst_of_le ge hu, reduced, bind, Except.bind, natIsOne_iff]
  rfl

/-- The loop from the side of `v`, once its reduction is known. -/
theorem inversionLoop_of_lt {turns v' b' : Nat} {bc' : Int} (lt : u < v) (hv : v < wordsBound len)
    (reduced : oddReduce len p (v - u) (shrink u v n) (natSub len b a).1 (bc + (natSub len b a).2 - ac) =
      .ok (v', b', bc')) :
    inversionLoop len p (turns + 1) u a ac v b bc n =
      if v' = 1 then .ok (finalise len p b' bc')
      else inversionLoop len p turns u a ac v' b' bc' (shrink u v n) := by
  simp only [inversionLoop, natGte_iff, not_le.2 lt, if_false, natSub_fst_of_le lt.le hv, reduced, bind, Except.bind,
    natIsOne_iff]
  rfl

end Turn

/-- Settles O33: both branches are the one turn, the second with the sides exchanged. -/
theorem inversionTurnKeepsTheInvariant : Obligations.InversionTurnKeepsTheInvariant := by
  intro len p x u a v b n ac bc prime ne_two bound inv u_ne _ u_active v_active
  have odd : p % 2 = 1 := prime.eq_two_or_odd.resolve_left ne_two
  have ⟨⟨hu, _, hv, _⟩, _, ⟨_, _, coprime⟩, _, _⟩ := inv
  obtain ⟨u_kept, v_kept⟩ := shrink_keeps u_active v_active
  refine ⟨⟨shrink_le u v n, u_kept, v_kept⟩, fun ge => ?_, fun less => ?_⟩
  · have less : v < u := lt_of_le_of_ne ge fun same => u_ne ((Nat.coprime_self u).1 (same ▸ coprime))
    obtain ⟨counter, u', a', ac', reduced, inv', smaller, count⟩ := turn_keeps_invariant odd bound inv less u_kept
    exact ⟨counter, u', a', ac', reduced, inv', smaller, count, fun _ => inversionLoop_of_ge ge hu reduced⟩
  · obtain ⟨counter, v', b', bc', reduced, inv', smaller, count⟩ :=
      turn_keeps_invariant odd bound (inversionInvariant_symm inv) less v_kept
    exact ⟨counter, v', b', bc', reduced, inversionInvariant_symm inv', smaller, count,
      fun _ => inversionLoop_of_lt less hv reduced⟩

/-! ### FINV (40_modular_inversion.md R80, R81) -/

/-- There is one inverse in `[0, p - 1]`. -/
theorem inverse_unique {y z : Nat} (coprime : Nat.Coprime p x) (hy : y < p) (hz : z < p) (inverse_y : y * x % p = 1)
    (inverse_z : z * x % p = 1) : y = z := by
  have same : y * x ≡ z * x [MOD p] := inverse_y.trans inverse_z.symm
  exact (Nat.ModEq.cancel_right_of_coprime coprime same).eq_of_lt_of_lt hy hz

section Finv

variable {s : State} {d a : Fin 8}

theorem finv_faultsOnlyWith : s.FaultsOnlyWith (.finv d a) [.uninit, .operandRange, .invZero] := by
  intro allowed c failed
  refine ⟨?_, exec_faults allowed (by simp [Instr.wf]) failed⟩
  rcases firstFailedCheck_cause failed with rfl | ⟨⟨r, source, point⟩, -⟩ | rfl | ⟨-, rfl⟩
  · simp
  · obtain rfl := List.mem_singleton.1 source
    cases point
  · simp
  · simp

theorem firstFailedCheck_finv_zero (modulus : s.ModulusIs p) (held : valueOf s.f[a] = some 0) :
    s.firstFailedCheck (.finv d a) = some .invZero := by
  have operands := operandsFF_of d a modulus held modulus.2.1.pos
  rcases checked_cases (i := .finv d a) (operandsFF_checked s d a) with ⟨-, stops⟩ | ⟨c, -, stops⟩ | ⟨v, -, check⟩
  · cases operands.symm.trans stops
  · cases operands.symm.trans stops
  · rw [check, invertsZero_finv held]
    rfl

theorem exec_finv {z : Nat} (modulus : s.ModulusIs p) (held : valueOf s.f[a] = some x) (pos : 0 < x) (lt : x < p)
    (inverts : invert s.len p x = .ok z) : exec (.finv d a) s = .next (s.writeField d z).complete := by
  unfold exec execFinv
  refine toField_of (operandsFF_of d a modulus held lt) ?_
  simp only [natIsZero_iff, pos.ne', if_false, inverts]

end Finv

/-- Settles O29: the inversion answers the inverse, which is the only one in its range, and the checks decide every
other end. -/
theorem finvWritesTheInverse : Obligations.FinvWritesTheInverse := by
  intro s d a
  refine ⟨rfl, finv_faultsOnlyWith, fun p x shaped modulus held =>
    ⟨fun zero => firstFailedCheck_finv_zero modulus (zero ▸ held), fun pos lt => ?_⟩⟩
  have ⟨_, prime, ne_two⟩ := modulus
  obtain ⟨z, inverts, one_le, below, inverse⟩ :=
    invert_inverse prime ne_two (modulus_lt_wordsBound shaped modulus) pos lt
  refine ⟨z, ⟨one_le, by omega, inverse⟩, fun z' _ below' inverse' => ?_, inverts,
    exec_finv modulus held pos lt inverts⟩
  exact inverse_unique (Nat.coprime_of_lt_prime pos.ne' lt prime) (by omega) below inverse' inverse

end Sys2Proof.Proofs
end

section
/-! SUPPORT. Proofs of the statements on 41_field_ops.md: the pure field functions (R111, R113), the field commands but FINV
(R101 to R110), and that every legal command whose checks pass completes (R100). -/

namespace Sys2Proof.Proofs

open Sys2Proof.Machine Sys2Proof.Laws

/-! ### The field functions as residues (41_field_ops.md R111) -/

section Residues

variable {m p x y s t : Nat}

@[simp] theorem fmul_cast : (fmul p x y : ZMod p) = x * y := by
  rw [fmul, ZMod.natCast_mod, Nat.cast_mul]

@[simp] theorem fsqr_cast : (fsqr p x : ZMod p) = x * x := by
  rw [fsqr, ZMod.natCast_mod, Nat.cast_mul]

@[simp] theorem fadd_cast : (fadd p x y : ZMod p) = x + y := by
  rw [fadd, ZMod.natCast_mod, Nat.cast_add]

@[simp] theorem fdbl_cast : (fdbl p x : ZMod p) = 2 * x := by
  rw [fdbl, ZMod.natCast_mod, Nat.cast_mul, Nat.cast_ofNat]

@[simp] theorem fred_cast : (fred p s : ZMod p) = s := ZMod.natCast_mod s p

/-- Under a positive modulus the residue of a difference is not cut off at 0. -/
theorem subMod_intCast (pos : 0 < m) : (subMod m x y : Int) = ((x : Int) - y) % m :=
  Int.toNat_of_nonneg (Int.emod_nonneg _ (Int.natCast_ne_zero.2 pos.ne'))

theorem subMod_cast (pos : 0 < m) : (subMod m x y : ZMod m) = x - y := by
  rw [← Int.cast_natCast, subMod_intCast pos, ZMod.intCast_mod, Int.cast_sub, Int.cast_natCast, Int.cast_natCast]

theorem fsub_cast (pos : 0 < p) : (fsub p x y : ZMod p) = x - y := subMod_cast pos

theorem subx_cast (pos : 0 < p) : (subx p s t : ZMod (p ^ 2)) = s - t := subMod_cast (Nat.pow_pos pos)

/-- The operand of a negation is reduced, so that `p - x` is not cut off at 0. -/
theorem fneg_cast (lt : x < p) : (fneg p x : ZMod p) = -x := by
  unfold fneg
  split
  next zero => rw [zero, Nat.cast_zero, neg_zero]
  · rw [Nat.cast_sub lt.le, ZMod.natCast_self, zero_sub]

/-! ### The field functions in the case forms of their commands' rules -/

/-- One subtraction of the modulus reduces a number below twice the modulus. -/
theorem mod_eq_ite_of_lt_two_mul (lt : x < 2 * m) : x % m = if x < m then x else x - m := by
  split
  next below => exact Nat.mod_eq_of_lt below
  next above => rw [Nat.mod_eq_sub_mod (not_lt.1 above), Nat.mod_eq_of_lt (by omega)]

theorem fadd_eq_ite (hx : x < p) (hy : y < p) : fadd p x y = if x + y < p then x + y else x + y - p :=
  mod_eq_ite_of_lt_two_mul (by omega)

theorem fdbl_eq_ite (lt : x < p) : fdbl p x = if 2 * x < p then 2 * x else 2 * x - p :=
  mod_eq_ite_of_lt_two_mul (by omega)

/-- One addition of the modulus reduces a difference of reduced numbers. -/
theorem subMod_eq_ite (hx : x < m) (hy : y < m) : subMod m x y = if y ≤ x then x - y else x + m - y := by
  rw [← Int.natCast_inj, subMod_intCast (by omega)]
  split
  next le => rw [Nat.cast_sub le, Int.emod_eq_of_lt (by omega) (by omega)]
  next less => rw [← Int.add_emod_right, Int.emod_eq_of_lt (by omega) (by omega)]; omega

/-! ### The identities (41_field_ops.md R113) -/

theorem fred_mulx : fred p (mulx x y) = fmul p x y := rfl

theorem fsqr_eq_fmul : fsqr p x = fmul p x x := rfl

theorem fdbl_eq_fadd : fdbl p x = fadd p x x := by rw [fdbl, fadd, two_mul]

theorem fneg_eq_fsub (lt : x < p) : fneg p x = fsub p 0 x := by
  rw [fsub, subMod_eq_ite (by omega) lt, fneg]
  simp only [Nat.le_zero, zero_add]
  split
  next zero => rw [zero]
  · rfl

/-- `p` divides `p ^ 2`, so that reducing modulo `p ^ 2` first does not change the residue modulo `p`. -/
theorem fred_subx (pos : 0 < p) : fred p (subx p s t) = fsub p (fred p s) (fred p t) := by
  have divides : (p : Int) ∣ (p ^ 2 : Nat) := Int.natCast_dvd_natCast.2 (Dvd.intro_left p (sq p).symm)
  zify
  calc (fred p (subx p s t) : Int)
      = ((s : Int) - t) % (p ^ 2 : Nat) % p := by rw [fred, Int.natCast_mod, subx, subMod_intCast (Nat.pow_pos pos)]
    _ = ((s : Int) - t) % p := Int.emod_emod_of_dvd _ divides
    _ = ((s : Int) % p - t % p) % p := Int.sub_emod _ _ _
    _ = fsub p (fred p s) (fred p t) := by rw [fsub, subMod_intCast pos, fred, fred, Int.natCast_mod, Int.natCast_mod]

end Residues

/-- Settles O40: each function's residue beside its range. -/
theorem fieldFunctionsReturnTheReducedResidue : Obligations.FieldFunctionsReturnTheReducedResidue := by
  intro p x y s t prime hx hy _ _
  have pos := prime.pos
  exact ⟨⟨fmul_cast, fmul_lt pos⟩, ⟨fsqr_cast, fsqr_lt pos⟩, ⟨fadd_cast, fadd_lt pos⟩, ⟨fsub_cast pos, fsub_lt pos⟩,
    ⟨fdbl_cast, fdbl_lt pos⟩, ⟨fneg_cast hx, fneg_lt pos⟩, ⟨rfl, mulx_lt hx hy⟩, ⟨subx_cast pos, subx_lt pos⟩,
    ⟨fred_cast, fred_lt pos⟩⟩

/-- Settles O41, with `fneg` and the extended path as the two that need the modulus. -/
theorem fieldFunctionIdentities : Obligations.FieldFunctionIdentities :=
  fun _ _ _ _ _ prime hx _ _ _ => ⟨fred_mulx, fsqr_eq_fmul, fdbl_eq_fadd, fneg_eq_fsub hx, fred_subx prime.pos⟩

/-! ### The outcome of a field command -/

section FieldCommands

variable {s : State} {i : Instr} {p x y : Nat}

theorem modulusAllowed_of_modulusIs (modulus : s.ModulusIs p) : s.ModulusAllowed := by
  obtain ⟨value, prime⟩ := modulus
  intro q value'
  obtain rfl : p = q := Option.some.inj (value.symm.trans value')
  exact prime

/-- A command on field and extended registers fails no check of a tag, and only FINV one for 0 (60_exceptions.md R173). -/
theorem fieldCommand_faultsOnlyWith (wf : i.wf = true := by simp [Instr.wf])
    (noPoint : ∀ r ∈ i.sources, r.file ≠ .PT := by simp [Instr.sources])
    (noZero : s.invertsZero i = false := by rfl) : s.FaultsOnlyWith i [.uninit, .operandRange] := by
  intro allowed c failed
  refine ⟨?_, exec_faults allowed wf failed⟩
  rcases firstFailedCheck_cause failed with rfl | ⟨⟨r, source, point⟩, -⟩ | rfl | ⟨zero, -⟩
  · simp
  · exact absurd point (noPoint r source)
  · simp
  · cases noZero.symm.trans zero

/-- What the checks say of an extended register that holds a value. -/
theorem ext_checks {a : Fin 4} (held : valueOf s.e[a] = some x) :
    s.unheld ⟨.E, a⟩ = none ∧ s.outOfRange p ⟨.E, a⟩ = decide (p ^ 2 ≤ x) := by
  rw [Fin.getElem_fin] at held
  simp [State.unheld, State.outOfRange, held]

theorem firstFailedCheck_fred_outOfRange {d : Fin 8} {a : Fin 4} (modulus : s.ModulusIs p)
    (held : valueOf s.e[a] = some x) (outside : p ^ 2 ≤ x) :
    s.firstFailedCheck (.fred d a) = some .operandRange := by
  obtain ⟨unheld, range⟩ := ext_checks (p := p) held
  simp [State.firstFailedCheck, Instr.sources, modulus.1, unheld, range, outside]

/-- MMUL is FMUL (41_field_ops.md R102), in every state and for every operand. -/
theorem exec_mmul_eq_fmul (d a b : Nat) : exec (.mmul d a b) s = exec (.fmul d a b) s := rfl

section OneField

variable {d a : Fin 8} (modulus : s.ModulusIs p) (held : valueOf s.f[a] = some x) (lt : x < p)
include modulus held lt

theorem exec_fsqr : exec (.fsqr d a) s = .next (s.writeField d (fsqr p x)).complete := by
  unfold exec execFsqr
  exact toField_of (operandsFF_of d a modulus held lt) rfl

theorem exec_fdbl : exec (.fdbl d a) s = .next (s.writeField d (fdbl p x)).complete := by
  unfold exec execFdbl
  exact toField_of (operandsFF_of d a modulus held lt) rfl

theorem exec_fneg : exec (.fneg d a) s = .next (s.writeField d (fneg p x)).complete := by
  unfold exec execFneg
  exact toField_of (operandsFF_of d a modulus held lt) rfl

end OneField

section TwoFields

variable {a b : Fin 8} (modulus : s.ModulusIs p) (heldA : valueOf s.f[a] = some x) (heldB : valueOf s.f[b] = some y)
  (hx : x < p) (hy : y < p)
include modulus heldA heldB hx hy

theorem exec_fmul {d : Fin 8} : exec (.fmul d a b) s = .next (s.writeField d (fmul p x y)).complete := by
  unfold exec execFmul
  exact toField_of (operandsFFF_of d a b modulus heldA heldB hx hy) rfl

theorem exec_fadd {d : Fin 8} : exec (.fadd d a b) s = .next (s.writeField d (fadd p x y)).complete := by
  unfold exec execFadd
  exact toField_of (operandsFFF_of d a b modulus heldA heldB hx hy) rfl

theorem exec_fsub {d : Fin 8} : exec (.fsub d a b) s = .next (s.writeField d (fsub p x y)).complete := by
  unfold exec execFsub
  exact toField_of (operandsFFF_of d a b modulus heldA heldB hx hy) rfl

theorem exec_mulx {d : Fin 4} : exec (.mulx d a b) s = .next (s.writeExt d (mulx x y)).complete := by
  unfold exec execMulx
  exact toExt_of (operandsEFF_of d a b modulus heldA heldB hx hy)

end TwoFields

theorem exec_fred {d : Fin 8} {a : Fin 4} (modulus : s.ModulusIs p) (held : valueOf s.e[a] = some x) (lt : x < p ^ 2) :
    exec (.fred d a) s = .next (s.writeField d (fred p x)).complete := by
  unfold exec execFred
  exact toField_of (operandsFE_of d a modulus held lt) rfl

theorem exec_subx {d a b : Fin 4} (modulus : s.ModulusIs p) (heldA : valueOf s.e[a] = some x)
    (heldB : valueOf s.e[b] = some y) (hx : x < p ^ 2) (hy : y < p ^ 2) :
    exec (.subx d a b) s = .next (s.writeExt d (subx p x y)).complete := by
  unfold exec execSubx
  exact toExt_of (operandsEEE_of d a b modulus heldA heldB hx hy)

end FieldCommands

/-- Settles O28: of the ways a legal command can end, the modulus excludes the refusal and the passed checks the faults. -/
theorem checkedCommandCompletes : Obligations.CheckedCommandCompletes := by
  intro i s p shaped modulus wf passed
  cases commandOutcome (fun _ => shaped) wf with
  | refused bad _ => exact absurd bad (not_badModulus (modulusAllowed_of_modulusIs modulus))
  | faults _ failed _ => cases passed.symm.trans failed
  | completes t _ status fcmd executed => exact ⟨t, executed, status, fcmd⟩

/-- Settles O34: the product is FMUL's result by definition, and MMUL is FMUL. -/
theorem fmulAndMmulWriteTheProduct : Obligations.FmulAndMmulWriteTheProduct := by
  intro s d a b
  refine ⟨rfl, rfl, fieldCommand_faultsOnlyWith, fieldCommand_faultsOnlyWith, fun p x y modulus heldA heldB hx hy => ?_⟩
  have product := exec_fmul (d := d) modulus heldA heldB hx hy
  exact ⟨product, (exec_mmul_eq_fmul d a b).trans product⟩

/-- Settles O35: FSQR's and FNEG's results stand as their rules write them, FDBL's is reduced by one subtraction. -/
theorem fsqrFdblFnegWriteTheirResults : Obligations.FsqrFdblFnegWriteTheirResults := by
  intro s d a
  refine ⟨rfl, rfl, rfl, fieldCommand_faultsOnlyWith, fieldCommand_faultsOnlyWith, fieldCommand_faultsOnlyWith,
    fun p x modulus held lt => ?_⟩
  rw [← fdbl_eq_ite lt]
  exact ⟨exec_fsqr modulus held lt, exec_fdbl modulus held lt, exec_fneg modulus held lt⟩

/-- Settles O36: one subtraction or one addition of the modulus reduces the result. -/
theorem faddAndFsubWriteSumAndDifference : Obligations.FaddAndFsubWriteSumAndDifference := by
  intro s d a b
  refine ⟨rfl, rfl, fieldCommand_faultsOnlyWith, fieldCommand_faultsOnlyWith,
    fun p x y modulus heldA heldB hx hy => ?_⟩
  rw [← fadd_eq_ite hx hy, ← subMod_eq_ite hx hy]
  exact ⟨exec_fadd modulus heldA heldB hx hy, exec_fsub modulus heldA heldB hx hy⟩

/-- Settles O37: the product is written as it is, and two factors below `p` bound it. -/
theorem mulxWritesTheUnreducedProduct : Obligations.MulxWritesTheUnreducedProduct := by
  intro s d a b
  refine ⟨rfl, fieldCommand_faultsOnlyWith, fun p x y modulus heldA heldB hx hy => ?_⟩
  exact ⟨mulx_lt hx hy, exec_mulx modulus heldA heldB hx hy⟩

/-- Settles O38: a negative difference is reduced by one addition of `p ^ 2`. -/
theorem subxWritesTheExtendedDifference : Obligations.SubxWritesTheExtendedDifference := by
  intro s d a b
  refine ⟨rfl, fieldCommand_faultsOnlyWith, fun p x y modulus heldA heldB hx hy => ?_⟩
  rw [← subMod_eq_ite hx hy]
  exact exec_subx modulus heldA heldB hx hy

/-- Settles O39: the range check decides between the fault and the residue. -/
theorem fredWritesTheResidue : Obligations.FredWritesTheResidue := by
  intro s d a
  refine ⟨rfl, fieldCommand_faultsOnlyWith, fun p x modulus held => ?_⟩
  exact ⟨firstFailedCheck_fred_outOfRange modulus held, exec_fred modulus held⟩

end Sys2Proof.Proofs
end

section
/-! SUPPORT. Proofs of the statements on the six commands of the group law (42_point_ops.md R130, R139 to R144): each
writes what its function returns, and a failing check is all that can stop it. -/

namespace Sys2Proof.Proofs

open Sys2Proof.Machine Sys2Proof.Laws

/-! ### The outcome of a point command -/

section PointCommands

variable {s : State} {i : Instr} {p : Nat} {P Q : Point}

/-- Step 5 of R173 is FINV's own, so that a point command records the cause of step 2, 3 or 4 (42_point_ops.md R130). -/
theorem pointCommand_faultsOnlyWith (wf : i.wf = true := by simp [Instr.wf])
    (noZero : s.invertsZero i = false := by rfl) : s.FaultsOnlyWith i [.uninit, .badTag, .operandRange] := by
  intro allowed c failed
  refine ⟨?_, exec_faults allowed wf failed⟩
  rcases firstFailedCheck_cause failed with rfl | ⟨-, rfl⟩ | rfl | ⟨zero, -⟩
  · simp
  · simp
  · simp
  · cases noZero.symm.trans zero

section OnePoint

variable {d a : Fin 4} (modulus : s.ModulusIs p) (held : logicalPoint s.pt[a] = .ok P) (reduced : P.reduced p = true)
include modulus held reduced

theorem exec_pdbl : exec (.pdbl d a) s = .next (s.writePoint d (twice p P)).complete := by
  unfold exec execPdbl
  exact toPoint_of (operandsPP_of d a modulus held reduced)

theorem exec_pneg : exec (.pneg d a) s = .next (s.writePoint d (negate p P)).complete := by
  unfold exec execPneg
  exact toPoint_of (operandsPP_of d a modulus held reduced)

theorem exec_ptpl : exec (.ptpl d a) s = .next (s.writePoint d (threeTimes p P)).complete := by
  unfold exec execPtpl
  exact toPoint_of (operandsPP_of d a modulus held reduced)

end OnePoint

section TwoPoints

variable {d a b : Fin 4} (modulus : s.ModulusIs p) (heldA : logicalPoint s.pt[a] = .ok P)
  (heldB : logicalPoint s.pt[b] = .ok Q) (hP : P.reduced p = true) (hQ : Q.reduced p = true)
include modulus heldA heldB hP hQ

/-- Whether an operand is added to itself is read off the register indexes (42_point_ops.md R139). -/
theorem exec_padd : exec (.padd d a b) s = .next (s.writePoint d (add p P Q (decide (a = b)))).complete := by
  unfold exec execPadd
  simp only [Fin.ext_iff]
  exact toPoint_of (operandsPPP_of d a b modulus heldA heldB hP hQ)

theorem exec_psub : exec (.psub d a b) s = .next (s.writePoint d (subtract p P Q)).complete := by
  unfold exec execPsub
  exact toPoint_of (operandsPPP_of d a b modulus heldA heldB hP hQ)

theorem exec_pdbladd :
    exec (.pdbladd d a b) s = .next (s.writePoint d (twicePlus p P Q (decide (a = b)))).complete := by
  unfold exec execPdbladd
  simp only [Fin.ext_iff]
  exact toPoint_of (operandsPPP_of d a b modulus heldA heldB hP hQ)

end TwoPoints

end PointCommands

/-- Settles O42, from the outcome of PADD. -/
theorem paddWritesTheSum : Obligations.PaddWritesTheSum := fun _ _ _ _ =>
  ⟨rfl, pointCommand_faultsOnlyWith, fun _ _ _ => exec_padd⟩

/-- Settles O43, from the outcomes of PDBL and PNEG. -/
theorem pdblAndPnegWriteDoubleAndNegative : Obligations.PdblAndPnegWriteDoubleAndNegative := fun _ _ _ =>
  ⟨rfl, rfl, pointCommand_faultsOnlyWith, pointCommand_faultsOnlyWith,
    fun _ _ modulus held reduced => ⟨exec_pdbl modulus held reduced, exec_pneg modulus held reduced⟩⟩

/-- Settles O44: the cases are those of `subtract`. -/
theorem psubWritesTheDifference : Obligations.PsubWritesTheDifference := fun _ _ _ _ =>
  ⟨rfl, pointCommand_faultsOnlyWith, fun _ _ _ => exec_psub⟩

/-- Settles O45: the cases are those of `threeTimes`. -/
theorem ptplWritesTheTriple : Obligations.PtplWritesTheTriple := fun _ _ _ =>
  ⟨rfl, pointCommand_faultsOnlyWith, fun _ _ => exec_ptpl⟩

/-- Settles O46: the cases are those of `twicePlus`, the first of them tested on the register indexes. -/
theorem pdbladdWritesTwiceTheFirstPlusTheSecond : Obligations.PdbladdWritesTwiceTheFirstPlusTheSecond := by
  intro s d a b
  refine ⟨rfl, pointCommand_faultsOnlyWith, fun p P Q modulus heldA heldB hP hQ => ?_⟩
  have executed := exec_pdbladd (d := d) modulus heldA heldB hP hQ
  simp only [twicePlus, decide_eq_true_eq] at executed
  exact executed

end Sys2Proof.Proofs
end

section
/-! SUPPORT. Proofs of the statements on the values of `twice`, `add` and `negate`: the cases of 42_point_ops.md R132 to
R134, with the coordinates as residues modulo `p`. -/

namespace Sys2Proof.Proofs

open Sys2Proof.Machine Sys2Proof.Laws

/-! ### Logical points -/

section Points

variable {p x : Nat} {P : Point}

theorem eq_infinity_flag (inf : P.isInfinity = true) : P = .infinity P.flag := by
  cases P with
  | infinity c => rfl
  | affine c x y => cases inf
  | jacobian c x y z => cases inf

theorem yCoord_of_infinity (inf : P.isInfinity = true) : P.yCoord = 0 := by rw [eq_infinity_flag inf]; rfl

theorem isInfinity_of_yCoord_ne_zero (ne : P.yCoord ≠ 0) : P.isInfinity = false :=
  Bool.eq_false_iff.2 fun inf => ne (yCoord_of_infinity inf)

theorem yCoord_lt (pos : 0 < p) (reduced : P.reduced p = true) : P.yCoord < p := by
  cases P with
  | infinity c => exact pos
  | affine c x y => exact (affine_reduced_iff.1 reduced).2
  | jacobian c x y z => exact (jacobian_reduced_iff.1 reduced).2.1

/-- The tests for 0 of the functions are made on reduced numbers, so that they are tests of residues. -/
theorem natCast_eq_zero_iff_of_lt (lt : x < p) : (x : ZMod p) = 0 ↔ x = 0 := by
  rw [ZMod.natCast_eq_zero_iff]
  exact ⟨fun dvd => Nat.eq_zero_of_dvd_of_lt dvd lt, fun zero => zero ▸ dvd_zero p⟩

theorem yCoord_cast_eq_zero_iff (pos : 0 < p) (reduced : P.reduced p = true) :
    (P.yCoord : ZMod p) = 0 ↔ P.yCoord = 0 :=
  natCast_eq_zero_iff_of_lt (yCoord_lt pos reduced)

end Points

/-! ### Doubling (42_point_ops.md R132) -/

section Doubling

variable {p : Nat} {P : Point}

/-- The factor `Z` of a coordinate is left out when it is 1 (42_point_ops.md R132, R133, R146). -/
theorem skipOne_cast {x z : Nat} : ((if z ≠ 1 then fmul p x z else x : Nat) : ZMod p) = x * z := by
  split
  · exact fmul_cast
  next one => rw [not_not.1 one, Nat.cast_one, mul_one]

/-- Both cases in which the double is Infinity; `yCoord` of an Infinity is 0. -/
theorem twice_of_yCoord_zero (zero : P.yCoord = 0) : twice p P = .infinity P.flag := by
  unfold twice
  split
  · rfl
  · exact if_pos zero

theorem twice_of_yCoord_ne_zero (pos : 0 < p) (ne : P.yCoord ≠ 0) :
    ∃ x₃ y₃ z₃, twice p P = .jacobian P.flag x₃ y₃ z₃ ∧ x₃ < p ∧ y₃ < p ∧ z₃ < p ∧
      (x₃ : ZMod p) = (3 * P.xCoord ^ 2) ^ 2 - 2 * (4 * (P.xCoord * P.yCoord ^ 2)) ∧
      (y₃ : ZMod p) = 3 * P.xCoord ^ 2 * (4 * (P.xCoord * P.yCoord ^ 2) - x₃) - 8 * P.yCoord ^ 4 ∧
      (z₃ : ZMod p) = 2 * P.yCoord * P.zEff := by
  unfold twice
  rw [if_neg (Bool.eq_false_iff.1 (isInfinity_of_yCoord_ne_zero ne))]
  extract_lets x₁ y₁ z₁ y₁y₁ t₄ t m s x₃ t₈ y₃ z₃
  rw [if_neg ne]
  have hm : (m : ZMod p) = 3 * x₁ ^ 2 := by simp only [m, t, fadd_cast, fdbl_cast, fsqr_cast]; ring
  have hs : (s : ZMod p) = 4 * (x₁ * y₁ ^ 2) := by simp only [s, y₁y₁, fdbl_cast, fmul_cast, fsqr_cast]; ring
  have hx : (x₃ : ZMod p) = (3 * x₁ ^ 2) ^ 2 - 2 * (4 * (x₁ * y₁ ^ 2)) := by
    simp only [x₃, fsub_cast pos, fsqr_cast, hm, hs]; ring
  have hy : (y₃ : ZMod p) = 3 * x₁ ^ 2 * (4 * (x₁ * y₁ ^ 2) - x₃) - 8 * y₁ ^ 4 := by
    simp only [y₃, t₈, t₄, y₁y₁, fsub_cast pos, fmul_cast, fdbl_cast, fsqr_cast, hm, hs]; ring
  have hz : ((if z₁ ≠ 1 then fmul p z₃ z₁ else z₃ : Nat) : ZMod p) = 2 * y₁ * z₁ := by
    rw [skipOne_cast, fdbl_cast]
  exact ⟨x₃, y₃, _, rfl, fsub_lt pos, fsub_lt pos, ite_lt (fmul_lt pos) (fdbl_lt pos), hx, hy, hz⟩

theorem twice_isInfinity : (twice p P).isInfinity = decide (P.yCoord = 0) := by
  by_cases zero : P.yCoord = 0
  · rw [twice_of_yCoord_zero zero, decide_eq_true zero]; rfl
  · unfold twice
    rw [if_neg (Bool.eq_false_iff.1 (isInfinity_of_yCoord_ne_zero zero)), decide_eq_false zero]
    extract_lets
    rw [if_neg zero]
    rfl

end Doubling

/-- Settles O48: both Infinity cases are those of `Y = 0`, and the values are what the steps of R132 multiply out to. -/
theorem twiceComputesTheDoubling : Obligations.TwiceComputesTheDoubling := fun _ _ prime _ =>
  ⟨fun inf => twice_of_yCoord_zero (yCoord_of_infinity inf), fun _ => twice_of_yCoord_zero,
    fun _ => twice_of_yCoord_ne_zero prime.pos⟩

/-! ### Addition (42_point_ops.md R133, R145) -/

/-- The residue of `H = U1 - U2`, the difference of the cross-multiplied `X` (42_point_ops.md R133). -/
def crossX (p : Nat) (P Q : Point) : ZMod p := P.xCoord * Q.zEff ^ 2 - Q.xCoord * P.zEff ^ 2

/-- The residue of `R_ = S1 - S2`, the difference of the cross-multiplied `Y` (42_point_ops.md R133). -/
def crossY (p : Nat) (P Q : Point) : ZMod p := P.yCoord * Q.zEff ^ 3 - Q.yCoord * P.zEff ^ 3

section Addition

variable {p : Nat} {P Q : Point} {same : Bool}

theorem skipSquare_cast {x z : Nat} : ((if z = 1 then x else fmul p x (fsqr p z) : Nat) : ZMod p) = x * z ^ 2 := by
  split
  next one => rw [one, Nat.cast_one, one_pow, mul_one]
  · rw [fmul_cast, fsqr_cast, sq]

theorem skipCube_cast {y z : Nat} :
    ((if z = 1 then y else fmul p y (fmul p (fsqr p z) z) : Nat) : ZMod p) = y * z ^ 3 := by
  split
  next one => rw [one, Nat.cast_one, one_pow, mul_one]
  · rw [fmul_cast, fmul_cast, fsqr_cast]; ring

theorem add_of_infinity (infP : P.isInfinity = true) : add p P Q same = Q := if_pos infP

variable (finP : P.isInfinity = false)
include finP

theorem add_infinity (infQ : Q.isInfinity = true) : add p P Q same = P := by
  unfold add
  rw [if_neg (Bool.eq_false_iff.1 finP), if_pos infQ]

variable (finQ : Q.isInfinity = false)
include finQ

theorem add_same : add p P Q true = twice p P := by
  unfold add
  rw [if_neg (Bool.eq_false_iff.1 finP), if_neg (Bool.eq_false_iff.1 finQ), if_pos rfl]

/-- The three ways the sum of two points that are not Infinity goes, by the residues of `H` and `R_`. -/
theorem add_finite (pos : 0 < p) :
    (crossX p P Q = 0 → crossY p P Q = 0 → add p P Q false = twice p P) ∧
    (crossX p P Q = 0 → crossY p P Q ≠ 0 → add p P Q false = .infinity P.flag) ∧
    (crossX p P Q ≠ 0 →
      ∃ x₃ y₃ z₃, add p P Q false = .jacobian P.flag x₃ y₃ z₃ ∧ x₃ < p ∧ y₃ < p ∧ z₃ < p ∧
        (x₃ : ZMod p) = crossY p P Q ^ 2 + crossX p P Q ^ 3 - 2 * (crossX p P Q ^ 2 * (P.xCoord * Q.zEff ^ 2)) ∧
        (y₃ : ZMod p) = crossY p P Q * (crossX p P Q ^ 2 * (P.xCoord * Q.zEff ^ 2) - x₃) -
          P.yCoord * Q.zEff ^ 3 * crossX p P Q ^ 3 ∧
        (z₃ : ZMod p) = crossX p P Q * P.zEff * Q.zEff) := by
  unfold add
  rw [if_neg (Bool.eq_false_iff.1 finP), if_neg (Bool.eq_false_iff.1 finQ), if_neg Bool.false_ne_true]
  extract_lets x₁ y₁ z₁ x₂ y₂ z₂ z₁z₁ u₂ s₂ z₂z₂ u₁ s₁ h r h₂ g v x₃ y₃ z₃
  have hu : (u₁ : ZMod p) = x₁ * z₂ ^ 2 := skipSquare_cast
  have hs : (s₁ : ZMod p) = y₁ * z₂ ^ 3 := skipCube_cast
  have hh : (h : ZMod p) = crossX p P Q := by
    rw [fsub_cast pos, hu, show (u₂ : ZMod p) = x₂ * z₁ ^ 2 from skipSquare_cast]; rfl
  have hr : (r : ZMod p) = crossY p P Q := by
    rw [fsub_cast pos, hs, show (s₂ : ZMod p) = y₂ * z₁ ^ 3 from skipCube_cast]; rfl
  have zero_h : h = 0 ↔ crossX p P Q = 0 := hh ▸ (natCast_eq_zero_iff_of_lt (fsub_lt pos)).symm
  have zero_r : r = 0 ↔ crossY p P Q = 0 := hr ▸ (natCast_eq_zero_iff_of_lt (fsub_lt pos)).symm
  refine ⟨fun x y => if_pos ⟨zero_h.2 x, zero_r.2 y⟩, fun x y => ?_, fun x => ?_⟩
  · rw [if_neg fun ⟨_, zero⟩ => y (zero_r.1 zero), if_pos (zero_h.2 x)]
  have nonzero : h ≠ 0 := fun zero => x (zero_h.1 zero)
  rw [if_neg fun ⟨zero, _⟩ => nonzero zero, if_neg nonzero]
  have hv : (v : ZMod p) = crossX p P Q ^ 2 * (x₁ * z₂ ^ 2) := by
    simp only [v, h₂, fmul_cast, fsqr_cast, hh, hu]; ring
  have hg : (g : ZMod p) = crossX p P Q ^ 3 := by simp only [g, h₂, fmul_cast, fsqr_cast, hh]; ring
  have hx : (x₃ : ZMod p) =
      crossY p P Q ^ 2 + crossX p P Q ^ 3 - 2 * (crossX p P Q ^ 2 * (x₁ * z₂ ^ 2)) := by
    simp only [x₃, fsub_cast pos, fadd_cast, fdbl_cast, fsqr_cast, hv, hg, hr]; ring
  have hy : (y₃ : ZMod p) =
      crossY p P Q * (crossX p P Q ^ 2 * (x₁ * z₂ ^ 2) - x₃) - y₁ * z₂ ^ 3 * crossX p P Q ^ 3 := by
    simp only [y₃, fred_subx pos, fred_mulx, fsub_cast pos, fmul_cast, hv, hg, hr, hs]; ring
  have hz : ((if z₂ ≠ 1 then fmul p z₃ z₂ else z₃ : Nat) : ZMod p) = crossX p P Q * z₁ * z₂ := by
    rw [skipOne_cast, skipOne_cast, hh]
  have lt : (if z₂ ≠ 1 then fmul p z₃ z₂ else z₃) < p := ite_lt (fmul_lt pos) (ite_lt (fmul_lt pos) (fsub_lt pos))
  exact ⟨x₃, y₃, _, rfl, fsub_lt pos, fred_lt pos, lt, hx, hy, hz⟩

end Addition

/-- Settles O49: `crossX` and `crossY` are the statement's `h` and `r`. -/
theorem addComputesTheRulesCases : Obligations.AddComputesTheRulesCases := by
  intro p P Q same prime _ _
  refine ⟨add_of_infinity, add_infinity, ?_, ?_⟩
  · rintro finP finQ rfl
    exact add_same finP finQ
  · rintro finP finQ rfl
    exact add_finite finP finQ prime.pos

/-- Settles O50, with `fneg` on a reduced `Y`. -/
theorem negateNegatesY : Obligations.NegateNegatesY := fun _ _ _ y _ prime _ hy _ =>
  ⟨rfl, fneg _ y, fneg_lt prime.pos, fneg_cast hy, rfl, rfl⟩

end Sys2Proof.Proofs
end

section
/-! SUPPORT. Proofs of the statements on flags and on stored `Z`: the functions of 42_point_ops.md R132 to R137 read of a
point whether it is Infinity and its coordinates, and nothing else (R131, R146). -/

namespace Sys2Proof.Proofs

open Sys2Proof.Machine Sys2Proof.Laws

/-! ### The flag of a result (42_point_ops.md R131) -/

section Flags

variable {p : Nat} {P Q : Point} {same : Bool}

theorem twice_flag : (twice p P).flag = P.flag := by
  unfold twice
  split
  · rfl
  extract_lets
  split
  · rfl
  · rfl

theorem negate_flag : (negate p P).flag = P.flag := by cases P <;> rfl

theorem negate_isInfinity : (negate p P).isInfinity = P.isInfinity := by cases P <;> rfl

theorem add_flag : (add p P Q same).flag = if P.isInfinity then Q.flag else P.flag := by
  unfold add
  split
  · rfl
  split
  · rfl
  split
  · exact twice_flag
  extract_lets
  split
  · exact twice_flag
  split
  · rfl
  · rfl

theorem subtract_flag :
    (subtract p P Q).flag = if P.isInfinity && !Q.isInfinity then Q.flag else P.flag := by
  unfold subtract
  cases Q.isInfinity
  · rw [if_neg Bool.false_ne_true, add_flag, negate_flag, Bool.not_false, Bool.and_true]
  · rw [if_pos rfl, Bool.not_true, Bool.and_false, if_neg Bool.false_ne_true]

theorem threeTimes_of_yCoord_zero (zero : P.yCoord = 0) : threeTimes p P = P := by
  unfold threeTimes
  rw [if_pos zero, ite_self]

/-- The passed-through cases of R136 are those in which the doubled point is Infinity. -/
theorem threeTimes_eq_add : threeTimes p P = add p (twice p P) P false := by
  by_cases zero : P.yCoord = 0
  · rw [threeTimes_of_yCoord_zero zero, twice_of_yCoord_zero zero, add_of_infinity rfl]
  · unfold threeTimes
    rw [if_neg (Bool.eq_false_iff.1 (isInfinity_of_yCoord_ne_zero zero)), if_neg zero]

theorem twicePlus_same : twicePlus p P Q true = threeTimes p P := if_pos rfl

theorem twicePlus_of_infinity (inf : P.isInfinity = true) : twicePlus p P Q false = Q := by
  unfold twicePlus
  rw [if_neg Bool.false_ne_true, if_pos inf]

theorem twicePlus_infinity (finP : P.isInfinity = false) (infQ : Q.isInfinity = true) :
    twicePlus p P Q false = twice p P := by
  unfold twicePlus
  rw [if_neg Bool.false_ne_true, if_neg (Bool.eq_false_iff.1 finP), if_pos infQ]

/-- The remaining cases of R137 are those of `add` on the doubled point. -/
theorem twicePlus_finite (finQ : Q.isInfinity = false) :
    twicePlus p P Q false = add p (twice p P) Q false := by
  by_cases inf : P.isInfinity = true
  · rw [twicePlus_of_infinity inf, twice_of_yCoord_zero (yCoord_of_infinity inf), add_of_infinity rfl]
  unfold twicePlus
  rw [if_neg Bool.false_ne_true, if_neg inf, if_neg (Bool.eq_false_iff.1 finQ)]
  split
  next zero => rw [twice_of_yCoord_zero zero, add_of_infinity rfl]
  · rfl

theorem threeTimes_flag : (threeTimes p P).flag = P.flag := by rw [threeTimes_eq_add, add_flag, twice_flag, ite_self]

theorem twicePlus_flag : (twicePlus p P Q false).flag =
    if P.isInfinity || (!Q.isInfinity && decide (P.yCoord = 0)) then Q.flag else P.flag := by
  cases infP : P.isInfinity
  · cases infQ : Q.isInfinity
    · rw [twicePlus_finite infQ, add_flag, twice_isInfinity, twice_flag, Bool.not_false, Bool.true_and, Bool.false_or]
    · rw [twicePlus_infinity infP infQ, twice_flag, Bool.not_true, Bool.false_and, Bool.or_false,
        if_neg Bool.false_ne_true]
  · rw [twicePlus_of_infinity infP, Bool.true_or, if_pos rfl]

end Flags

/-! ### What the functions read of a point (42_point_ops.md R131, R146) -/

/-- The two points agree in what the functions read: whether they are Infinity, and the coordinates, with `Zeff` for
`Z`. -/
structure SameInput (P P' : Point) : Prop where
  isInfinity : P'.isInfinity = P.isInfinity
  xCoord : P'.xCoord = P.xCoord
  yCoord : P'.yCoord = P.yCoord
  zEff : P'.zEff = P.zEff

section SameInput

variable {p : Nat} {P P' Q Q' : Point} {same c c₁ c₂ : Bool}

theorem SameInput.refl (P : Point) : SameInput P P := ⟨rfl, rfl, rfl, rfl⟩

theorem SameInput.withFlag (P : Point) (c : Bool) : SameInput P (P.withFlag c) := by
  cases P <;> exact ⟨rfl, rfl, rfl, rfl⟩

theorem SameInput.withStoredZ (P : Point) : SameInput P P.withStoredZ := by
  cases P <;> exact ⟨rfl, rfl, rfl, rfl⟩

theorem SameInput.negate (h : SameInput P P') : SameInput (negate p P) (negate p P') := by
  cases P <;> cases P' <;> cases h.isInfinity
  all_goals exact ⟨rfl, h.xCoord, congrArg (fneg p) h.yCoord, h.zEff⟩

theorem twice_congr (h : SameInput P P') : twice p P' = (twice p P).withFlag P'.flag := by
  unfold twice
  rw [h.isInfinity, h.xCoord, h.yCoord, h.zEff]
  split
  · rfl
  extract_lets
  split
  · rfl
  · rfl

theorem add_congr (hP : SameInput P P') (hQ : SameInput Q Q') (finP : P.isInfinity = false)
    (finQ : Q.isInfinity = false) : add p P' Q' same = (add p P Q same).withFlag P'.flag := by
  unfold add
  rw [hP.isInfinity, hQ.isInfinity, finP, finQ, twice_congr hP, hP.xCoord, hP.yCoord, hP.zEff, hQ.xCoord, hQ.yCoord,
    hQ.zEff]
  iterate 4 rw [if_neg Bool.false_ne_true]
  split
  · rfl
  extract_lets
  split
  · rfl
  split
  · rfl
  · rfl

end SameInput

/-! ### No flag decides anything (42_point_ops.md R131) -/

section WithFlag

variable {p : Nat} {P Q : Point} {same c c₁ c₂ : Bool}

theorem withFlag_withFlag : (P.withFlag c₁).withFlag c = P.withFlag c := by cases P <;> rfl

theorem withFlag_flag : P.withFlag P.flag = P := by cases P <;> rfl

theorem flag_withFlag : (P.withFlag c).flag = c := by cases P <;> rfl

theorem isInfinity_withFlag : (P.withFlag c).isInfinity = P.isInfinity := (SameInput.withFlag P c).isInfinity

theorem twice_withFlag : twice p (P.withFlag c) = (twice p P).withFlag c := by
  rw [twice_congr (SameInput.withFlag P c), flag_withFlag]

theorem negate_withFlag : negate p (P.withFlag c) = (negate p P).withFlag c := by cases P <;> rfl

theorem add_withFlag : (add p (P.withFlag c₁) (Q.withFlag c₂) same).withFlag c = (add p P Q same).withFlag c := by
  cases infP : P.isInfinity
  · cases infQ : Q.isInfinity
    · rw [add_congr (SameInput.withFlag P c₁) (SameInput.withFlag Q c₂) infP infQ, withFlag_withFlag]
    · rw [add_infinity infP infQ, add_infinity (isInfinity_withFlag.trans infP) (isInfinity_withFlag.trans infQ),
        withFlag_withFlag]
  · rw [add_of_infinity infP, add_of_infinity (isInfinity_withFlag.trans infP), withFlag_withFlag]

theorem threeTimes_withFlag : (threeTimes p (P.withFlag c₁)).withFlag c = (threeTimes p P).withFlag c := by
  rw [threeTimes_eq_add, threeTimes_eq_add, twice_withFlag, add_withFlag]

theorem subtract_withFlag :
    (subtract p (P.withFlag c₁) (Q.withFlag c₂)).withFlag c = (subtract p P Q).withFlag c := by
  unfold subtract
  rw [isInfinity_withFlag, negate_withFlag]
  split
  · exact withFlag_withFlag
  · exact add_withFlag

theorem twicePlus_withFlag :
    (twicePlus p (P.withFlag c₁) (Q.withFlag c₂) same).withFlag c = (twicePlus p P Q same).withFlag c := by
  cases same
  · cases infQ : Q.isInfinity
    · rw [twicePlus_finite infQ, twicePlus_finite (isInfinity_withFlag.trans infQ), twice_withFlag, add_withFlag]
    · cases infP : P.isInfinity
      · rw [twicePlus_infinity infP infQ,
          twicePlus_infinity (isInfinity_withFlag.trans infP) (isInfinity_withFlag.trans infQ), twice_withFlag,
          withFlag_withFlag]
      · rw [twicePlus_of_infinity infP, twicePlus_of_infinity (isInfinity_withFlag.trans infP), withFlag_withFlag]
  · exact threeTimes_withFlag

end WithFlag

/-- Settles O51: the passed-through cases, the flag of each function's result, and each function on operands with other
flags. -/
theorem flagOfAResult : Obligations.FlagOfAResult := by
  intro p P Q same c₁ c₂ c
  refine ⟨⟨fun infP => ?_, add_infinity, fun infQ => if_pos infQ, threeTimes_of_yCoord_zero,
      fun _ finQ zero => ?_⟩, ?_,
    congrArg (Point.withFlag c) twice_withFlag |>.trans withFlag_withFlag,
    congrArg (Point.withFlag c) negate_withFlag |>.trans withFlag_withFlag,
    threeTimes_withFlag, add_withFlag, subtract_withFlag, twicePlus_withFlag⟩
  · exact ⟨add_of_infinity infP, threeTimes_of_yCoord_zero (yCoord_of_infinity infP), twicePlus_of_infinity infP⟩
  · rw [twicePlus_finite finQ, twice_of_yCoord_zero zero, add_of_infinity rfl]
  · exact ⟨twice_flag, negate_flag, threeTimes_flag, add_flag, subtract_flag, twicePlus_flag, threeTimes_flag⟩

/-! ### The `Z = 1` shortcuts are invisible (42_point_ops.md R146) -/

section SameInputAndFlag

variable {p : Nat} {P P' Q Q' : Point} {same : Bool}

/-- With the flag of the first operand the same, so is the sum. -/
theorem add_eq_of_sameInput (hP : SameInput P P') (flag : P'.flag = P.flag) (hQ : SameInput Q Q')
    (finP : P.isInfinity = false) (finQ : Q.isInfinity = false) : add p P' Q' same = add p P Q same := by
  rw [add_congr hP hQ finP finQ, flag, ← add_congr (SameInput.refl P) (SameInput.refl Q) finP finQ]

theorem twice_eq_of_sameInput (hP : SameInput P P') (flag : P'.flag = P.flag) : twice p P' = twice p P := by
  rw [twice_congr hP, flag, ← twice_flag, withFlag_flag]

theorem sameInput_of_mem (mem : P' ∈ [P, P.withStoredZ]) : SameInput P P' ∧ P'.flag = P.flag := by
  rcases List.mem_pair.1 mem with rfl | rfl
  · exact ⟨SameInput.refl P', rfl⟩
  · exact ⟨SameInput.withStoredZ P, by cases P <;> rfl⟩

end SameInputAndFlag

/-- Settles O52: a stored `Z = 1` leaves the input and the flag of a point as they are. -/
theorem storedUnitZGivesIdenticalResults : Obligations.StoredUnitZGivesIdenticalResults := by
  intro p P Q same finP finQ ne P' memP Q' memQ
  obtain ⟨hP, flagP⟩ := sameInput_of_mem memP
  obtain ⟨hQ, -⟩ := sameInput_of_mem memQ
  have double : twice p P' = twice p P := twice_eq_of_sameInput hP flagP
  have finDouble : (twice p P).isInfinity = false := twice_isInfinity.trans (decide_eq_false ne)
  have triple : threeTimes p P' = threeTimes p P := by
    rw [threeTimes_eq_add, threeTimes_eq_add, double]
    exact add_eq_of_sameInput (SameInput.refl _) rfl hP finDouble finP
  refine ⟨double, add_eq_of_sameInput hP flagP hQ finP finQ, ?_, triple, ?_⟩
  · unfold subtract
    rw [hQ.isInfinity, finQ, if_neg Bool.false_ne_true]
    exact add_eq_of_sameInput hP flagP hQ.negate finP (negate_isInfinity.trans finQ)
  · cases same
    · rw [twicePlus_finite finQ, twicePlus_finite (hQ.isInfinity.trans finQ), double]
      exact add_eq_of_sameInput (SameInput.refl _) rfl hQ finDouble finQ
    · exact triple

end Sys2Proof.Proofs
end

section
/-! SUPPORT. Proofs of the statements on the group law (42_point_ops.md R147, R148): sums are equal as points whichever
operand comes first, the source's other testable properties, and that the six functions are the group law of
`y^2 = x^3 + b` as Mathlib defines it. -/

namespace Sys2Proof.Proofs

open Sys2Proof.Machine Sys2Proof.Laws

/-! ### Equality as points (42_point_ops.md R147) -/

section SamePoint

variable {p : Nat} {P Q : Point}

theorem samePoint_refl (p : Nat) (P : Point) : P.SamePoint p P := by
  cases inf : P.isInfinity
  · exact .inr ⟨inf, inf, rfl, rfl⟩
  · exact .inl ⟨inf, inf⟩

theorem crossX_swap : crossX p Q P = -crossX p P Q := (neg_sub _ _).symm

theorem crossY_swap : crossY p Q P = -crossY p P Q := (neg_sub _ _).symm

variable [Fact p.Prime]

/-- Points with the same cross products differ by a factor `l` of `Z`, with which `X` and `Y` scale by `l^2` and
`l^3`. -/
theorem exists_scale (zP : (P.zEff : ZMod p) ≠ 0) (zQ : (Q.zEff : ZMod p) ≠ 0) (x : crossX p P Q = 0)
    (y : crossY p P Q = 0) : ∃ l : ZMod p, l ≠ 0 ∧ (Q.zEff : ZMod p) = l * P.zEff ∧
      (Q.xCoord : ZMod p) = l ^ 2 * P.xCoord ∧ (Q.yCoord : ZMod p) = l ^ 3 * P.yCoord := by
  refine ⟨Q.zEff / P.zEff, div_ne_zero zQ zP, (div_mul_cancel₀ _ zP).symm, ?_, ?_⟩
  · rw [div_pow, div_mul_eq_mul_div, eq_div_iff (pow_ne_zero 2 zP)]
    exact (sub_eq_zero.1 x).symm.trans (mul_comm _ _)
  · rw [div_pow, div_mul_eq_mul_div, eq_div_iff (pow_ne_zero 3 zP)]
    exact (sub_eq_zero.1 y).symm.trans (mul_comm _ _)

/-- Doubling does not tell apart two scalings of one point. -/
theorem twice_samePoint (redP : P.reduced p = true) (redQ : Q.reduced p = true) (zP : (P.zEff : ZMod p) ≠ 0)
    (zQ : (Q.zEff : ZMod p) ≠ 0) (x : crossX p P Q = 0) (y : crossY p P Q = 0) :
    (twice p P).SamePoint p (twice p Q) := by
  have pos : 0 < p := NeZero.pos p
  obtain ⟨l, hl, hz, hx, hy⟩ := exists_scale zP zQ x y
  have zero_iff : Q.yCoord = 0 ↔ P.yCoord = 0 := by
    rw [← yCoord_cast_eq_zero_iff pos redQ, ← yCoord_cast_eq_zero_iff pos redP, hy,
      mul_eq_zero_iff_left (pow_ne_zero 3 hl)]
  by_cases zero : P.yCoord = 0
  · rw [twice_of_yCoord_zero zero, twice_of_yCoord_zero (zero_iff.2 zero)]
    exact .inl ⟨rfl, rfl⟩
  obtain ⟨x₃, y₃, z₃, eqP, -, -, -, hx₃, hy₃, hz₃⟩ := twice_of_yCoord_ne_zero pos zero
  obtain ⟨x₄, y₄, z₄, eqQ, -, -, -, hx₄, hy₄, hz₄⟩ := twice_of_yCoord_ne_zero pos (zero_iff.not.2 zero)
  rw [eqP, eqQ]
  refine .inr ⟨rfl, rfl, ?_, ?_⟩
  · change (x₃ : ZMod p) * z₄ ^ 2 = x₄ * z₃ ^ 2
    rw [hx₃, hx₄, hz₃, hz₄, hz, hx, hy]
    ring
  · change (y₃ : ZMod p) * z₄ ^ 3 = y₄ * z₃ ^ 3
    rw [hy₃, hy₄, hx₃, hx₄, hz₃, hz₄, hz, hx, hy]
    ring

/-- The two sums have the same `X`, and `Y` and `Z` of opposite sign (42_point_ops.md R147). -/
theorem add_comm_of_distinct (finP : P.isInfinity = false) (finQ : Q.isInfinity = false) (x : crossX p P Q ≠ 0) :
    (add p P Q false).SamePoint p (add p Q P false) := by
  obtain ⟨-, -, sum⟩ := add_finite finP finQ (NeZero.pos p)
  obtain ⟨-, -, sum'⟩ := add_finite finQ finP (NeZero.pos p)
  obtain ⟨x₃, y₃, z₃, eq, -, -, -, hx, hy, hz⟩ := sum x
  obtain ⟨x₄, y₄, z₄, eq', -, -, -, hx', hy', hz'⟩ := sum' (crossX_swap.trans_ne (neg_ne_zero.2 x))
  have sameX : (x₄ : ZMod p) = x₃ := by rw [hx, hx', crossX, crossX, crossY, crossY]; ring
  have negY : (y₄ : ZMod p) = -y₃ := by rw [hy, hy', sameX, crossX, crossX, crossY, crossY]; ring
  have negZ : (z₄ : ZMod p) = -z₃ := by rw [hz, hz', crossX_swap (P := P)]; ring
  rw [eq, eq']
  refine .inr ⟨rfl, rfl, ?_, ?_⟩
  · change (x₃ : ZMod p) * z₄ ^ 2 = x₄ * z₃ ^ 2
    rw [sameX, negZ, neg_sq]
  · change (y₃ : ZMod p) * z₄ ^ 3 = y₄ * z₃ ^ 3
    rw [negY, negZ]
    ring

theorem add_comm_finite (finP : P.isInfinity = false) (finQ : Q.isInfinity = false) (redP : P.reduced p = true)
    (redQ : Q.reduced p = true) (zP : (P.zEff : ZMod p) ≠ 0) (zQ : (Q.zEff : ZMod p) ≠ 0) :
    (add p P Q false).SamePoint p (add p Q P false) := by
  by_cases x : crossX p P Q = 0
  · have x' : crossX p Q P = 0 := crossX_swap.trans (neg_eq_zero.2 x)
    obtain ⟨equal, opposite, -⟩ := add_finite finP finQ (NeZero.pos p)
    obtain ⟨equal', opposite', -⟩ := add_finite finQ finP (NeZero.pos p)
    by_cases y : crossY p P Q = 0
    · rw [equal x y, equal' x' (crossY_swap.trans (neg_eq_zero.2 y))]
      exact twice_samePoint redP redQ zP zQ x y
    · rw [opposite x y, opposite' x' (crossY_swap.trans_ne (neg_ne_zero.2 y))]
      exact .inl ⟨rfl, rfl⟩
  · exact add_comm_of_distinct finP finQ x

end SamePoint

/-- Settles O53: an Infinity among the operands gives the other one from either side. -/
theorem addIsCommutativeAsPoints : Obligations.AddIsCommutativeAsPoints := by
  intro p P Q prime redP redQ zP zQ
  have : Fact p.Prime := ⟨prime⟩
  cases finP : P.isInfinity
  · cases finQ : Q.isInfinity
    · exact add_comm_finite finP finQ redP redQ (zP finP) (zQ finQ)
    · rw [add_infinity finP finQ, add_of_infinity finQ]
      exact samePoint_refl p P
  · rw [add_of_infinity finP]
    cases finQ : Q.isInfinity
    · rw [add_infinity finQ finP]
      exact samePoint_refl p Q
    · rw [add_of_infinity finQ]
      exact .inl ⟨finQ, finP⟩

/-! ### The source's other testable properties (42_point_ops.md R147) -/

section Properties

variable {p : Nat} {P Q : Point} {same : Bool}

/-- A point added to itself is doubled, whether or not `same` says so (42_point_ops.md R133). -/
theorem add_self (pos : 0 < p) : add p P P same = twice p P := by
  cases inf : P.isInfinity
  · cases same
    · exact (add_finite inf inf pos).1 (sub_self _) (sub_self _)
    · exact add_same inf inf
  · rw [add_of_infinity inf, twice_of_yCoord_zero (yCoord_of_infinity inf)]
    exact eq_infinity_flag inf

theorem negate_residues (pos : 0 < p) (reduced : P.reduced p = true) :
    (negate p P).xCoord = P.xCoord ∧ ((negate p P).yCoord : ZMod p) = -P.yCoord ∧ (negate p P).zEff = P.zEff := by
  have lt := yCoord_lt pos reduced
  cases P with
  | infinity c => exact ⟨rfl, by simp [negate, Point.yCoord], rfl⟩
  | affine c x y => exact ⟨rfl, fneg_cast lt, rfl⟩
  | jacobian c x y z => exact ⟨rfl, fneg_cast lt, rfl⟩

/-- `H = 0`, and `R_ = 2·S1` is 0 only for a point of order 2, whose double is Infinity (42_point_ops.md R142). -/
theorem add_negate_isInfinity (prime : p.Prime) (odd : p ≠ 2) (reduced : P.reduced p = true)
    (z : P.isInfinity = false → (P.zEff : ZMod p) ≠ 0) : (add p P (negate p P) false).isInfinity = true := by
  cases fin : P.isInfinity
  · have : Fact p.Prime := ⟨prime⟩
    obtain ⟨hx, hy, hz⟩ := negate_residues prime.pos reduced
    obtain ⟨equal, opposite, -⟩ := add_finite fin (negate_isInfinity (p := p).trans fin) prime.pos
    have x : crossX p P (negate p P) = 0 := by rw [crossX, hx, hz, sub_self]
    by_cases y : crossY p P (negate p P) = 0
    · have double : (2 * P.zEff ^ 3 : ZMod p) * P.yCoord = 0 := by rw [← y, crossY, hy, hz]; ring
      have two : (2 : ZMod p) ≠ 0 := Ring.two_ne_zero (by rwa [ZMod.ringChar_zmod_n])
      have zero := (mul_eq_zero_iff_left (mul_ne_zero two (pow_ne_zero 3 (z fin)))).1 double
      rw [equal x y, twice_of_yCoord_zero ((yCoord_cast_eq_zero_iff prime.pos reduced).1 zero)]
      rfl
    · rw [opposite x y]
      rfl
  · rw [add_of_infinity fin, negate_isInfinity, fin]

/-- Only where both are Infinity can the flag differ: `twice_plus` takes the case of the second operand first. -/
theorem twicePlus_eq_add_or_infinity :
    twicePlus p P Q false = add p (twice p P) Q false ∨
      (twicePlus p P Q false).isInfinity = true ∧ (add p (twice p P) Q false).isInfinity = true := by
  cases infQ : Q.isInfinity
  · exact .inl (twicePlus_finite infQ)
  by_cases zero : P.yCoord = 0
  · refine .inr ⟨?_, by rw [twice_of_yCoord_zero zero, add_of_infinity rfl, infQ]⟩
    cases infP : P.isInfinity
    · rw [twicePlus_infinity infP infQ, twice_isInfinity, decide_eq_true zero]
    · rw [twicePlus_of_infinity infP, infQ]
  · rw [twicePlus_infinity (isInfinity_of_yCoord_ne_zero zero) infQ,
      add_infinity (twice_isInfinity.trans (decide_eq_false zero)) infQ]
    exact .inl rfl

end Properties

/-- Settles O54: `add` passes `P` through, and `three_times` and `twice_plus` are `add` on the doubled point. -/
theorem sourcesTestableProperties : Obligations.SourcesTestableProperties := by
  intro p P Q c same prime odd redP _ zP _
  refine ⟨?_, add_negate_isInfinity prime odd redP zP, (add_self prime.pos).symm, threeTimes_eq_add, ?_⟩
  · cases infP : P.isInfinity
    · rw [add_infinity infP rfl]
      exact samePoint_refl p P
    · rw [add_of_infinity infP]
      exact .inl ⟨rfl, infP⟩
  · rcases twicePlus_eq_add_or_infinity (p := p) (P := P) (Q := Q) with eq | infinity
    · rw [eq]
      exact samePoint_refl p _
    · exact .inl infinity

/-! ### The curve `y^2 = x^3 + b` (42_point_ops.md R148) -/

section Curve

variable {p : Nat} {b : ZMod p}

theorem curve_negY (x y : ZMod p) : (curve p b).negY x y = -y := by
  simp [WeierstrassCurve.Affine.negY]

theorem curve_addX (x₁ x₂ l : ZMod p) : (curve p b).addX x₁ x₂ l = l ^ 2 - x₁ - x₂ := by
  simp [WeierstrassCurve.Affine.addX]

theorem curve_addY (x₁ x₂ y₁ l : ZMod p) :
    (curve p b).addY x₁ x₂ y₁ l = l * (x₁ - (l ^ 2 - x₁ - x₂)) - y₁ := by
  rw [WeierstrassCurve.Affine.addY, curve_negY, WeierstrassCurve.Affine.negAddY, curve_addX]
  ring

theorem eq_zero_of_represents {g : (curve p b).Point} {P : Point} (rep : P.Represents g) (inf : P.isInfinity = true) :
    g = 0 := by
  cases g with
  | zero => rfl
  | some x y _ => cases inf.symm.trans rep.1

variable [Fact p.Prime]

theorem curve_tangent {x y : ZMod p} (ne : y ≠ (curve p b).negY x y) :
    (curve p b).slope x x y y = 3 * x ^ 2 / (2 * y) := by
  rw [WeierstrassCurve.Affine.slope_of_Y_ne rfl ne, curve_negY, sub_neg_eq_add, ← two_mul]
  simp

theorem two_ne_zero_of_odd (odd : p ≠ 2) : (2 : ZMod p) ≠ 0 := Ring.two_ne_zero (by rwa [ZMod.ringChar_zmod_n])

end Curve

/-! ### The group law -/

section GroupLaw

open WeierstrassCurve
open WeierstrassCurve.Affine.Point (add_of_X_ne add_of_Y_eq add_self_of_Y_eq add_self_of_Y_ne)

variable {p : Nat} [Fact p.Prime] {b : ZMod p} {g h : (curve p b).Point} {P Q : Point}

/-- The tangent at `(x, y)`, its denominator `2·y` cleared by `Z3 = 2·Y1·Z1`. -/
theorem twice_represents_of_ne_zero {x y : ZMod p} {onCurve : (curve p b).Nonsingular x y} (odd : p ≠ 2)
    (rep : P.Represents (.some x y onCurve)) (nonzero : y ≠ 0) (ne : P.yCoord ≠ 0) :
    (twice p P).Represents (Affine.Point.some x y onCurve + Affine.Point.some x y onCurve) := by
  obtain ⟨-, hz, hx, hy⟩ := rep
  have two := two_ne_zero_of_odd odd
  have ne_neg : y ≠ (curve p b).negY x y := by
    rw [curve_negY, Ne, eq_neg_iff_add_eq_zero, ← two_mul]
    exact mul_ne_zero two nonzero
  obtain ⟨x₃, y₃, z₃, eq, -, -, -, hx₃, hy₃, hz₃⟩ := twice_of_yCoord_ne_zero (NeZero.pos p) ne
  rw [← hx, ← hy] at hx₃ hy₃
  rw [← hy] at hz₃
  rw [add_self_of_Y_ne ne_neg, eq]
  refine ⟨rfl, ?_, ?_, ?_⟩
  · change (z₃ : ZMod p) ≠ 0
    rw [hz₃]
    exact mul_ne_zero (mul_ne_zero two (mul_ne_zero nonzero (pow_ne_zero 3 hz))) hz
  · change _ * (z₃ : ZMod p) ^ 2 = x₃
    rw [curve_addX, curve_tangent ne_neg, hx₃, hz₃]
    field_simp
    ring
  · change _ * (z₃ : ZMod p) ^ 3 = y₃
    rw [curve_addY, curve_tangent ne_neg, hy₃, hx₃, hz₃]
    field_simp
    ring

/-- A point is its own negative exactly when its `Y` is 0, and then its double is Infinity. -/
theorem twice_represents (odd : p ≠ 2) (reduced : P.reduced p = true) (rep : P.Represents g) :
    (twice p P).Represents (g + g) := by
  cases g with
  | zero =>
    rw [twice_of_yCoord_zero (yCoord_of_infinity rep)]
    rfl
  | some x y onCurve =>
    have zero_iff : P.yCoord = 0 ↔ y = 0 := by
      obtain ⟨-, hz, -, hy⟩ := rep
      rw [← yCoord_cast_eq_zero_iff (NeZero.pos p) reduced, ← hy, mul_eq_zero_iff_right (pow_ne_zero 3 hz)]
    by_cases zero : y = 0
    · rw [add_self_of_Y_eq (by rw [curve_negY, zero, neg_zero]), twice_of_yCoord_zero (zero_iff.2 zero)]
      rfl
    · exact twice_represents_of_ne_zero odd rep zero (zero_iff.not.2 zero)

section TwoPoints

variable {x₁ y₁ x₂ y₂ : ZMod p} {onCurve₁ : (curve p b).Nonsingular x₁ y₁}
  {onCurve₂ : (curve p b).Nonsingular x₂ y₂} (repP : P.Represents (.some x₁ y₁ onCurve₁))
  (repQ : Q.Represents (.some x₂ y₂ onCurve₂))
include repP repQ

theorem crossX_eq : crossX p P Q = (x₁ - x₂) * P.zEff ^ 2 * Q.zEff ^ 2 := by
  obtain ⟨-, -, hx₁, -⟩ := repP
  obtain ⟨-, -, hx₂, -⟩ := repQ
  rw [crossX, ← hx₁, ← hx₂]
  ring

theorem crossY_eq : crossY p P Q = (y₁ - y₂) * P.zEff ^ 3 * Q.zEff ^ 3 := by
  obtain ⟨-, -, -, hy₁⟩ := repP
  obtain ⟨-, -, -, hy₂⟩ := repQ
  rw [crossY, ← hy₁, ← hy₂]
  ring

theorem crossX_eq_zero_iff : crossX p P Q = 0 ↔ x₁ = x₂ := by
  rw [crossX_eq repP repQ, mul_eq_zero_iff_right (pow_ne_zero 2 repQ.2.1),
    mul_eq_zero_iff_right (pow_ne_zero 2 repP.2.1), sub_eq_zero]

theorem crossY_eq_zero_iff : crossY p P Q = 0 ↔ y₁ = y₂ := by
  rw [crossY_eq repP repQ, mul_eq_zero_iff_right (pow_ne_zero 3 repQ.2.1),
    mul_eq_zero_iff_right (pow_ne_zero 3 repP.2.1), sub_eq_zero]

/-- The chord through two points, its denominator `x₁ - x₂` cleared by `Z3 = H·Z1·Z2`. -/
theorem add_represents_of_ne (ne : x₁ ≠ x₂) :
    (add p P Q false).Represents (Affine.Point.some x₁ y₁ onCurve₁ + Affine.Point.some x₂ y₂ onCurve₂) := by
  have hX := crossX_eq repP repQ
  have hY := crossY_eq repP repQ
  have cross := (crossX_eq_zero_iff repP repQ).not.2 ne
  obtain ⟨finP, zP, hx, hy⟩ := repP
  obtain ⟨finQ, zQ, -, -⟩ := repQ
  obtain ⟨-, -, sum⟩ := add_finite finP finQ (NeZero.pos p)
  obtain ⟨x₃, y₃, z₃, eq, -, -, -, hx₃, hy₃, hz₃⟩ := sum cross
  have diff : x₁ - x₂ ≠ 0 := sub_ne_zero.2 ne
  rw [add_of_X_ne ne, eq]
  refine ⟨rfl, ?_, ?_, ?_⟩
  · change (z₃ : ZMod p) ≠ 0
    rw [hz₃]
    exact mul_ne_zero (mul_ne_zero cross zP) zQ
  · change _ * (z₃ : ZMod p) ^ 2 = x₃
    rw [curve_addX, Affine.slope_of_X_ne ne, hx₃, hz₃, hX, hY, ← hx]
    field_simp
    ring
  · change _ * (z₃ : ZMod p) ^ 3 = y₃
    rw [curve_addY, Affine.slope_of_X_ne ne, hy₃, hx₃, hz₃, hX, hY, ← hx, ← hy]
    field_simp
    ring

end TwoPoints

theorem add_represents (odd : p ≠ 2) (redP : P.reduced p = true) (repP : P.Represents g) (repQ : Q.Represents h) :
    (add p P Q false).Represents (g + h) := by
  cases g with
  | zero =>
    rw [add_of_infinity repP]
    exact (zero_add h).symm ▸ repQ
  | some x₁ y₁ onCurve₁ =>
    cases h with
    | zero =>
      rw [add_infinity repP.1 repQ]
      exact repP
    | some x₂ y₂ onCurve₂ =>
      obtain ⟨equal, opposite, -⟩ := add_finite repP.1 repQ.1 (NeZero.pos p)
      by_cases x : x₁ = x₂
      · have crossX := (crossX_eq_zero_iff repP repQ).2 x
        by_cases y : y₁ = y₂
        · rw [equal crossX ((crossY_eq_zero_iff repP repQ).2 y)]
          subst x y
          exact twice_represents odd redP repP
        · have neg := (Affine.Y_eq_of_X_eq onCurve₁.1 onCurve₂.1 x).resolve_left y
          rw [opposite crossX ((crossY_eq_zero_iff repP repQ).not.2 y), add_of_Y_eq x neg]
          rfl
      · exact add_represents_of_ne repP repQ x

theorem negate_represents (reduced : P.reduced p = true) (rep : P.Represents g) : (negate p P).Represents (-g) := by
  cases g with
  | zero => exact negate_isInfinity.trans rep
  | some x y onCurve =>
    obtain ⟨fin, hz, hx, hy⟩ := rep
    obtain ⟨eqX, eqY, eqZ⟩ := negate_residues (NeZero.pos p) reduced
    refine ⟨negate_isInfinity.trans fin, eqZ ▸ hz, by rw [eqX, eqZ, hx], ?_⟩
    rw [curve_negY, eqY, eqZ, neg_mul, hy]

theorem subtract_represents (odd : p ≠ 2) (redP : P.reduced p = true) (redQ : Q.reduced p = true)
    (repP : P.Represents g) (repQ : Q.Represents h) : (subtract p P Q).Represents (g - h) := by
  unfold subtract
  split
  next inf =>
    rw [eq_zero_of_represents repQ inf, sub_zero]
    exact repP
  · rw [sub_eq_add_neg]
    exact add_represents odd redP repP (negate_represents redQ repQ)

theorem threeTimes_represents (odd : p ≠ 2) (reduced : P.reduced p = true) (rep : P.Represents g) :
    (threeTimes p P).Represents (g + g + g) := by
  rw [threeTimes_eq_add]
  exact add_represents odd (twice_reduced (NeZero.pos p) P) (twice_represents odd reduced rep) rep

theorem twicePlus_represents (odd : p ≠ 2) (redP : P.reduced p = true) (repP : P.Represents g)
    (repQ : Q.Represents h) : (twicePlus p P Q false).Represents (g + g + h) := by
  have sum := add_represents odd (twice_reduced (NeZero.pos p) P) (twice_represents odd redP repP) repQ
  rcases twicePlus_eq_add_or_infinity (p := p) (P := P) (Q := Q) with eq | ⟨infinity, infinity'⟩
  · rw [eq]
    exact sum
  · rw [eq_zero_of_represents sum infinity']
    exact infinity

end GroupLaw

/-- Settles O55: each function by the addition and the doubling of the curve's group. -/
theorem pointFunctionsAreTheGroupLaw : Obligations.PointFunctionsAreTheGroupLaw := by
  intro p _ b g h P Q odd redP redQ repP repQ
  have double := twice_represents odd redP repP
  have triple := threeTimes_represents odd redP repP
  exact ⟨double, add_represents odd redP repP repQ, (add_self (NeZero.pos p)).symm ▸ double,
    negate_represents redP repP, subtract_represents odd redP redQ repP repQ, triple,
    twicePlus_represents odd redP repP repQ, triple⟩

end Sys2Proof.Proofs
end

section
/-! SUPPORT. Proofs of the statements on 60_exceptions.md: fault entry and its precision (R174, R175), the order of the
checks (R173), the sticky record and its clearing (R176, R177), and transactions answered `ERR` (R180). -/

namespace Sys2Proof.Proofs

open Sys2Proof.Machine Sys2Proof.Laws

/-! ### Transactions answered `ERR` -/

/-- Settles O9: only a read and a rejected write are answered `ERR`, and both change nothing; every other transaction is
answered `OK`. -/
theorem errChangesNothing : Obligations.ErrChangesNothing := by
  intro s t answers h nonempty err
  have notOk (ok : t.answers = .ok :: s.answers) : False := by
    cases (List.cons.inj (err.symm.trans ok)).1
  cases step_cases h with
  | idle empty => exact absurd empty nonempty
  | read addr size rest pending eq =>
    subst eq
    obtain ⟨answer, rfl⟩ := List.cons.inj err
    exact ⟨rfl, by rw [pending, List.tail_cons, taken, answer]⟩
  | rejected _ _ _ rest pending _ eq =>
    subst eq
    obtain ⟨-, rfl⟩ := List.cons.inj err
    exact ⟨rfl, by rw [pending, List.tail_cons]⟩
  | dropped _ _ _ _ _ _ _ eq => exact (notOk (congrArg State.answers eq)).elim
  | illegal _ _ _ _ _ _ _ _ _ eq => exact (notOk (congrArg State.answers eq)).elim
  | command _ _ _ _ _ _ _ _ _ executed =>
    obtain ⟨-, -, -, -, kept⟩ := exec_registers executed
    exact (notOk kept).elim
  | control _ _ _ _ _ _ eq => exact (notOk (eq ▸ control_answers)).elim
  | data _ _ _ _ _ _ _ eq => exact (notOk (eq ▸ setDataWord_answers ..)).elim

/-! ### Fault entry -/

section FaultEntry

variable {s t : State} {w : Word}

/-- With no fault recorded before, a command word that leads to a record leads to fault entry and to nothing else: a
command that completes records no fault (60_exceptions.md R174, R175). -/
theorem takeCommand_faults (noFault : s.status.fault = false) (h : takeCommand w s = .next t)
    (fault : t.status.fault = true) : ∃ c, t = { s with cmd := w }.raiseFault c := by
  rcases takeCommand_cases h with ⟨fault', -⟩ | ⟨-, _, -, rfl⟩ | ⟨-, i, -, executed⟩
  · cases noFault.symm.trans fault'
  · exact ⟨.illegalCmd, rfl⟩
  · rcases exec_status executed with ⟨status, -⟩ | faulted
    · rw [status, noFault] at fault
      cases fault
    · exact faulted

end FaultEntry

/-- Settles O13: the write takes its word as a command word, and the record comes from fault entry alone. -/
theorem faultEntryIsExactAndPrecise : Obligations.FaultEntryIsExactAndPrecise := by
  refine ⟨fun s t w rest pending noFault h => ?_, rfl, rfl, rfl, rfl, rfl, rfl⟩
  exact takeCommand_faults (s := taken s rest .ok) noFault ((step_writeCmd pending).symm.trans h)

/-- Settles O14: the second of the three outcomes of a legal command; the fault entry is the record written out. -/
theorem firstFailedCheckDecidesTheCause : Obligations.FirstFailedCheckDecidesTheCause :=
  fun _ _ _ wf allowed => exec_faults allowed wf

/-! ### The sticky record -/

section StickyRecord

variable {s t : State} {w : Word} {rest : List Transaction}

theorem control_noStrobe (clrf : w.getLsbD 0 = false) (srst : w.getLsbD 1 = false) : Machine.control w s = s := by
  rw [Machine.control, srst, clrf]
  rfl

theorem access_size {len addr size : Nat} {tgt : Target} (h : access len addr size = some tgt) : size = 4 := by
  obtain ⟨⟨four, -⟩, -⟩ := Option.ite_none_right_eq_some.1 h
  exact four

/-- While a fault is recorded a command word is answered `OK` and changes nothing (60_exceptions.md R176). -/
theorem step_writeCmd_dropped (fault : s.status.fault = true) (pending : s.pending = .write 0x000 4 w :: rest) :
    step s = .next (taken s rest .ok) :=
  (step_writeCmd pending).trans (takeCommand_dropped (s := taken s rest .ok) fault)

/-- While a fault is recorded only a strobe of `CTRL` can change the record or `CMD` (60_exceptions.md R176). -/
theorem step_keepsRecord (fault : s.status.fault = true) (h : step s = .next t) :
    (t.status = s.status ∧ t.fcmd = s.fcmd ∧ t.cmd = s.cmd) ∨
      ∃ w rest, s.pending = .write 0x008 4 w :: rest ∧ (w.getLsbD 0 = true ∨ w.getLsbD 1 = true) := by
  cases step_cases h with
  | idle _ eq => exact .inl (eq ▸ ⟨rfl, rfl, rfl⟩)
  | read _ _ _ _ eq => exact .inl (eq ▸ ⟨rfl, rfl, rfl⟩)
  | rejected _ _ _ _ _ _ eq => exact .inl (eq ▸ ⟨rfl, rfl, rfl⟩)
  | dropped _ _ _ _ _ _ _ eq => exact .inl (eq ▸ ⟨rfl, rfl, rfl⟩)
  | illegal _ _ _ _ _ _ _ noFault => cases noFault.symm.trans fault
  | command _ _ _ _ _ _ _ noFault => cases noFault.symm.trans fault
  | control _ _ w rest pending reached eq =>
    obtain rfl := access_size reached
    obtain rfl := access_offset reached
    by_cases strobe : w.getLsbD 0 = true ∨ w.getLsbD 1 = true
    · exact .inr ⟨w, rest, pending, strobe⟩
    · simp only [not_or, Bool.not_eq_true] at strobe
      obtain ⟨clrf, srst⟩ := strobe
      rw [control_noStrobe clrf srst] at eq
      exact .inl (eq ▸ ⟨rfl, rfl, rfl⟩)
  | data _ _ _ _ _ _ _ eq => exact .inl (by simp [eq])

/-- A read of a data word that holds a value answers it (20_memory.md R42). -/
theorem step_readData {d : DataWord} {v : Word} (small : s.len ≤ 16) (ex : d.Exists s.len)
    (pending : s.pending = .read d.offset 4 :: rest) (holds : s.dataWord d = some v) :
    step s = .next (taken s rest (.word v)) := by
  rw [step_read pending, memRead_data small ex, holds]
  rfl

end StickyRecord

/-- Settles O16: the dropped command word, the kept record, and each usual access by the lemma of its step, which asks for
no clear record. -/
theorem faultRecordIsStickyAndDropsCommands : Obligations.FaultRecordIsStickyAndDropsCommands := by
  intro s fault
  exact ⟨fun w rest => step_writeCmd_dropped fault, fun t => step_keepsRecord fault,
    fun small d v w rest ex => ⟨step_readData small ex, step_writeData small ex⟩,
    fun rest => ⟨step_read, step_read, fun w => step_writeCtrl⟩⟩

/-! ### Clearing the record -/

section Clearing

variable {s : State} {w : Word}

theorem control_clear (clrf : w.getLsbD 0 = true) (srst : w.getLsbD 1 = false) :
    Machine.control w s = s.clearFault := by
  rw [Machine.control, srst, clrf]
  rfl

/-- The record a host finds after `CLRF`, where the fault that was recorded had set `DONE` to 0 (60_exceptions.md R177). -/
theorem clearFault_of_notDone (notDone : s.status.done = false) :
    s.clearFault = { s with status := { done := false, fault := false, cause := 0 }, fcmd := 0 } := by
  simp only [State.clearFault, notDone]

end Clearing

/-- Settles O17: `CLRF` clears the record, `DONE` being 0 in a sound record, and the next command word meets no fault; both
resets are the reset state; before that a command word is dropped. -/
theorem clearingTheFaultRecord : Obligations.ClearingTheFaultRecord := by
  intro s w c rest ⟨_, sound⟩ fault
  obtain ⟨done, -⟩ := sound fault
  refine ⟨fun pending clrf srst => ?clears, ?resets, step_writeCmd_dropped fault⟩
  case clears =>
    refine ⟨_, ?_, rfl, fun i => stepRunsTheDecodedCommand _ c rest i rfl rfl, fun illegal => ?_⟩
    · rw [step_writeCtrl pending, control_clear clrf srst, clearFault_of_notDone (s := taken s _ _) done]
    · exact (step_writeCmd rfl).trans (takeCommand_illegal rfl illegal)
  case resets =>
    rintro t (rfl | rfl)
    · exact ⟨rfl, rfl, rfl, softReset_dataWord s⟩
    · exact ⟨rfl, rfl, rfl, hardReset_dataWord s⟩

end Sys2Proof.Proofs
end

section
/-! SUPPORT. Proof of the statement on 70_reset_and_hazards.md: a destination that is a source (R193). A command reads and
computes everything before it writes (10_state.md R27), so its destination only says where the result goes. -/

namespace Sys2Proof.Proofs

open Sys2Proof.Machine Sys2Proof.Laws

/-! ### The destination in an operand list -/

section Redirection

variable {n : Nat} {α β : Type}

/-- What follows the destination in an operand list hands it on and uses it for nothing else. -/
def HandsOn (rest : Fin n → Except Stop (Fin n × α)) : Prop :=
  ∀ d e xs, rest d = .ok (e, xs) → e = d ∧ ∀ d', rest d' = .ok (d', xs)

theorem handsOn_return (xs : α) : HandsOn (n := n) fun d => return (d, xs) := by
  intro d e xs' h
  obtain ⟨rfl, rfl⟩ := Prod.mk.inj (Except.ok.inj h)
  exact ⟨rfl, fun _ => rfl⟩

theorem handsOn_bind {x : Except Stop β} {rest : β → Fin n → Except Stop (Fin n × α)} (h : ∀ b, HandsOn (rest b)) :
    HandsOn fun d => x >>= fun b => rest b d := by
  intro d e xs ok
  obtain ⟨b, rfl, ok⟩ := bind_ok ok
  exact h b d e xs ok

/-- Where `x` answers operands for the destination `rd`, `x'` answers the same ones for the destination `rd'`. -/
def Redirects (rd rd' : Nat) (x x' : Except Stop (Fin n × α)) : Prop :=
  ∀ d xs, x = .ok (d, xs) → rd = d ∧ ∃ d' : Fin n, rd' = d' ∧ x' = .ok (d', xs)

variable {rd rd' : Nat}

theorem HandsOn.redirects {index : Nat → Except Stop (Fin n)} {rest : Fin n → Except Stop (Fin n × α)}
    (handsOn : HandsOn rest) (index_ok : ∀ {i : Nat} {j : Fin n}, index i = .ok j ↔ i = j) (legal : rd' < n) :
    Redirects rd rd' (index rd >>= rest) (index rd' >>= rest) := by
  intro d xs ok
  obtain ⟨e, legalIndex, ok⟩ := bind_ok ok
  obtain ⟨rfl, other⟩ := handsOn e d xs ok
  refine ⟨index_ok.1 legalIndex, ⟨rd', legal⟩, rfl, ?_⟩
  have legalIndex' : index rd' = .ok ⟨rd', legal⟩ := index_ok.2 rfl
  rw [legalIndex']
  exact other _

theorem oneSource_handsOn {m : Nat} {source : Except Stop (Fin m)} {modulus : Except Stop Nat}
    {read : Fin m → Except Stop β} {check : Nat → β → Except Stop Unit} :
    HandsOn (n := n) fun d => do
      let a ← source
      let p ← modulus
      let x ← read a
      check p x
      return (d, p, x) :=
  handsOn_bind fun _ => handsOn_bind fun _ => handsOn_bind fun _ => handsOn_bind fun _ => handsOn_return _

theorem twoSources_handsOn {m : Nat} {source₁ source₂ : Except Stop (Fin m)} {modulus : Except Stop Nat}
    {read : Fin m → Except Stop β} {check : Nat → β → Except Stop Unit} :
    HandsOn (n := n) fun d => do
      let a ← source₁
      let b ← source₂
      let p ← modulus
      let x ← read a
      let y ← read b
      check p x
      check p y
      return (d, p, x, y) :=
  handsOn_bind fun _ => handsOn_bind fun _ => handsOn_bind fun _ => handsOn_bind fun _ => handsOn_bind fun _ =>
    handsOn_bind fun _ => handsOn_bind fun _ => handsOn_return _

variable {s : State} {i j : Nat}

theorem operandsFF_redirects (legal : rd' < 8) : Redirects rd rd' (operandsFF s rd i) (operandsFF s rd' i) :=
  oneSource_handsOn.redirects fieldIndex_ok legal

theorem operandsFE_redirects (legal : rd' < 8) : Redirects rd rd' (operandsFE s rd i) (operandsFE s rd' i) :=
  oneSource_handsOn.redirects fieldIndex_ok legal

theorem operandsPP_redirects (legal : rd' < 4) : Redirects rd rd' (operandsPP s rd i) (operandsPP s rd' i) :=
  oneSource_handsOn.redirects pointIndex_ok legal

theorem operandsFFF_redirects (legal : rd' < 8) : Redirects rd rd' (operandsFFF s rd i j) (operandsFFF s rd' i j) :=
  twoSources_handsOn.redirects fieldIndex_ok legal

theorem operandsEFF_redirects (legal : rd' < 4) : Redirects rd rd' (operandsEFF s rd i j) (operandsEFF s rd' i j) :=
  twoSources_handsOn.redirects extIndex_ok legal

theorem operandsEEE_redirects (legal : rd' < 4) : Redirects rd rd' (operandsEEE s rd i j) (operandsEEE s rd' i j) :=
  twoSources_handsOn.redirects extIndex_ok legal

theorem operandsPPP_redirects (legal : rd' < 4) : Redirects rd rd' (operandsPPP s rd i j) (operandsPPP s rd' i j) :=
  twoSources_handsOn.redirects pointIndex_ok legal

/-! ### The same result in another destination -/

variable {t : State}

theorem toField_redirects {x x' : Except Stop (Fin 8 × α)} {f : α → Except Stop Nat} (operands : Redirects rd rd' x x')
    (h : toField s x f = .next t) (done : t.status.done = true) :
    ∃ u, toField s x' f = .next u ∧ u.status.done = true ∧ t.SameContents ⟨.F, rd⟩ u ⟨.F, rd'⟩ := by
  obtain ⟨d, a, z, hx, hz, rfl⟩ := toField_completes h done
  obtain ⟨rfl, d', rfl, hx'⟩ := operands d a hx
  refine ⟨(s.writeField d' z).complete, conclude_ok ?_, rfl, by simp [State.SameContents]⟩
  simp [hx', hz, bind, Except.bind, pure, Except.pure]

theorem toExt_redirects {x x' : Except Stop (Fin 4 × α)} {f : α → Nat} (operands : Redirects rd rd' x x')
    (h : toExt s x f = .next t) (done : t.status.done = true) :
    ∃ u, toExt s x' f = .next u ∧ u.status.done = true ∧ t.SameContents ⟨.E, rd⟩ u ⟨.E, rd'⟩ := by
  obtain ⟨d, a, hx, rfl⟩ := toExt_completes h done
  obtain ⟨rfl, d', rfl, hx'⟩ := operands d a hx
  exact ⟨(s.writeExt d' (f a)).complete, conclude_ok (by rw [hx']; rfl), rfl, by simp [State.SameContents]⟩

theorem toPoint_redirects {x x' : Except Stop (Fin 4 × α)} {f : α → Point} (operands : Redirects rd rd' x x')
    (h : toPoint s x f = .next t) (done : t.status.done = true) :
    ∃ u, toPoint s x' f = .next u ∧ u.status.done = true ∧ t.SameContents ⟨.PT, rd⟩ u ⟨.PT, rd'⟩ := by
  obtain ⟨d, a, hx, rfl⟩ := toPoint_completes h done
  obtain ⟨rfl, d', rfl, hx'⟩ := operands d a hx
  exact ⟨(s.writePoint d' (f a)).complete, conclude_ok (by rw [hx']; rfl), rfl, by simp [State.SameContents]⟩

end Redirection

/-- Settles O26: each command by its operand form, which answers the same operands for any legal destination, and by the
register file it writes. -/
theorem destinationMayBeASource : Obligations.DestinationMayBeASource := by
  intro i s t d h done wf
  obtain ⟨legal, -⟩ := (wf_iff_lt_size _).1 wf
  cases i <;> simp only [Instr.withDestination, Instr.destination, exec, execFinv, execFmul, execMmul, execFsqr, execFred,
    execFadd, execFsub, execFdbl, execFneg, execMulx, execSubx, execPadd, execPdbl, execPneg, execPsub, execPtpl,
    execPdbladd] at h legal ⊢
  case finv | fsqr | fdbl | fneg => exact toField_redirects (operandsFF_redirects legal) h done
  case fred => exact toField_redirects (operandsFE_redirects legal) h done
  case fmul | mmul | fadd | fsub => exact toField_redirects (operandsFFF_redirects legal) h done
  case mulx => exact toExt_redirects (operandsEFF_redirects legal) h done
  case subx => exact toExt_redirects (operandsEEE_redirects legal) h done
  case pdbl | pneg | ptpl => exact toPoint_redirects (operandsPP_redirects legal) h done
  case padd | psub | pdbladd => exact toPoint_redirects (operandsPPP_redirects legal) h done

end Sys2Proof.Proofs
end
